-- ==== Sys2Proof/Word.lean ====
section
/-! DEFINITION. The word types of the retro-205 core and the plainest arithmetic on BCD digits
(spec/00_scope.md R5-R10). A digit list is written low digit first, as the adder iterates. -/

namespace Sys2Proof

/-- A memory word, and the registers A, C and D: 44 bits, a sign digit above ten digits (R5, R7). -/
abbrev Word := BitVec 44

/-- Four BCD digits: an operand address, a control address, B or the special counter (R5). -/
abbrev Address := BitVec 16

/-- The order digits, COP (R22, R23). -/
abbrev Order := BitVec 8

/-- The register R: ten digits, no sign digit (R26). -/
abbrev Extension := BitVec 40

/-- The twenty digits of A's magnitude above R (spec/45_shift_store.md, "AR"). -/
abbrev Pair := BitVec 80

/-- A codec value, below 2^53 (spec/40_field_codec.md R120). -/
abbrev CodecValue := BitVec 53

/-- The `n` low digits (nibbles) of `v`, digit 1 first (R7). -/
def digitsOf : Nat → Nat → List Nat
  | 0, _ => []
  | n + 1, v => v % 16 :: digitsOf n (v / 16)

/-- The value whose nibbles are the listed digits, digit 1 first. -/
def packDigits : List Nat → Nat
  | [] => 0
  | d :: ds => d + 16 * packDigits ds

/-- The natural number the listed digits spell in base ten, digit 1 first. -/
def decimalValue : List Nat → Nat
  | [] => 0
  | d :: ds => d + 10 * decimalValue ds

/-- Every listed nibble is a decimal digit. -/
def allDecimal (ds : List Nat) : Bool := ds.all (fun d => decide (d ≤ 9))

end Sys2Proof
end

