-- ==== Sys2Proof/Syntax.lean ====
section
/-! DEFINITION. The instructions: one constructor for each row of spec/opcode_table.json
(spec/30_encoding.md R96). -/

namespace Sys2Proof

/-- An instruction, as `COP` and `CADDR` give it (R90, R93, R100): every row takes the four address
digits; the STOP family also leaves the three low bits of its order free (R95). -/
inductive Instr where
  /-- Circulate A. -/
  | cira (addr : Address)
  /-- Store A and clear. -/
  | stc (addr : Address)
  /-- Change on Non-Zero. -/
  | cnz (addr : Address)
  /-- Stop; `low` is the low three bits of the order, 0x08 to 0x0F. -/
  | stop (low : BitVec 3) (addr : Address)
  /-- Store A. -/
  | st (addr : Address)
  /-- Shift Right A and R. -/
  | sr (addr : Address)
  /-- Shift Left A and R. -/
  | sl (addr : Address)
  /-- Normalize. -/
  | nor (addr : Address)
  /-- Add Special Counter to A. -/
  | adsc (addr : Address)
  /-- Subtract Special Counter from A. -/
  | susc (addr : Address)
  /-- Change Unconditionally. -/
  | cu (addr : Address)
  /-- Change Unconditionally, Record. -/
  | cur (addr : Address)
  /-- Decrease B. -/
  | db (addr : Address)
  /-- Change Conditionally. -/
  | cc (addr : Address)
  /-- Change Conditionally, Record. -/
  | ccr (addr : Address)
  /-- Increase B. -/
  | ib (addr : Address)
  /-- Multiply. -/
  | m (addr : Address)
  /-- Divide. -/
  | div (addr : Address)
  /-- Extract. -/
  | ex (addr : Address)
  /-- Add. -/
  | ad (addr : Address)
  /-- Subtract. -/
  | su (addr : Address)
  /-- Clear and Add. -/
  | cad (addr : Address)
  /-- Clear and Subtract. -/
  | csu (addr : Address)
  /-- Floating Add. -/
  | fad (addr : Address)
  /-- Floating Subtract. -/
  | fsu (addr : Address)
  /-- Floating Multiply. -/
  | fm (addr : Address)
  /-- Floating Divide. -/
  | fdiv (addr : Address)
  /-- Add Absolute. -/
  | ada (addr : Address)
  /-- Subtract Absolute. -/
  | sua (addr : Address)
  /-- Clear and Add Absolute. -/
  | cada (addr : Address)
  /-- Clear and Subtract Absolute. -/
  | csua (addr : Address)
deriving DecidableEq, Repr

/-- A whole instruction word: the instruction, its sign digit (bit 0 of it asks for B-modification,
the others are the breakpoint digit, R92) and digits 10-7, which the fetch ignores (R90, R91). -/
structure InstrWord where
  signDigit : BitVec 4
  spare : BitVec 16
  instr : Instr
deriving DecidableEq, Repr

end Sys2Proof
end

