-- ==== Sys2Proof/Decode.lean ====
section
/-! DEFINITION. The fields of a word, the opcode map, the decoder and the encoder
(spec/30_encoding.md R90-R101). -/

namespace Sys2Proof

/-! ### The fields of an instruction word and of C (R90; spec/10_state.md R22) -/

/-- Digit 11, bits 43-40. -/
def signDigitOf (w : Word) : BitVec 4 := w.extractLsb' 40 4

/-- Digits 10-7, bits 39-24: in C the control address `CCONTROL`. -/
def controlOf (w : Word) : Address := w.extractLsb' 24 16

/-- Digits 6-5, bits 23-16: `COP`. -/
def copOf (w : Word) : Order := w.extractLsb' 16 8

/-- Digits 4-1, bits 15-0: `CADDR`. -/
def addressOf (w : Word) : Address := w.extractLsb' 0 16

/-- The word with these fields. -/
def buildWord (sign : BitVec 4) (control : Address) (order : Order) (addr : Address) : Word :=
  BitVec.ofNat 44
    (2 ^ 40 * sign.toNat + 2 ^ 24 * control.toNat + 2 ^ 16 * order.toNat + addr.toNat)

/-! ### Opcode classes (R95, R97): tests on the raw eight bits of `COP` -/

/-- The STOP family: `COP & 0xF8 = 0x08`. -/
def isStopOrder (cop : Order) : Bool := cop &&& 0xF8#8 == 0x08#8

/-- The operand class: `COP >= 0x60`. -/
def isOperandOrder (cop : Order) : Bool := decide (0x60 ≤ cop.toNat)

/-! ### The opcode map (R96) -/

/-- `OPCODE_MAP`: the order of every row but STOP's, whose codes R95 fixes (R96; spec/00_scope.md R5). -/
structure OpcodeMap where
  cira : Order
  stc : Order
  cnz : Order
  st : Order
  sr : Order
  sl : Order
  nor : Order
  adsc : Order
  susc : Order
  cu : Order
  cur : Order
  db : Order
  cc : Order
  ccr : Order
  ib : Order
  m : Order
  div : Order
  ex : Order
  ad : Order
  su : Order
  cad : Order
  csu : Order
  fad : Order
  fsu : Order
  fm : Order
  fdiv : Order
  ada : Order
  sua : Order
  cada : Order
  csua : Order
deriving DecidableEq, Repr

/-- The table of R96, the parameter's default. PRESUMED (log 12): its codes are the spec's from general
knowledge. -/
def OpcodeMap.default : OpcodeMap where
  cira := 0x01#8
  stc := 0x02#8
  cnz := 0x04#8
  st := 0x12#8
  sr := 0x13#8
  sl := 0x14#8
  nor := 0x15#8
  adsc := 0x16#8
  susc := 0x17#8
  cu := 0x20#8
  cur := 0x21#8
  db := 0x22#8
  cc := 0x28#8
  ccr := 0x29#8
  ib := 0x32#8
  m := 0x60#8
  div := 0x64#8
  ex := 0x71#8
  ad := 0x74#8
  su := 0x75#8
  cad := 0x76#8
  csu := 0x77#8
  fad := 0x80#8
  fsu := 0x81#8
  fm := 0x82#8
  fdiv := 0x83#8
  ada := 0x84#8
  sua := 0x85#8
  cada := 0x86#8
  csua := 0x87#8

/-- The class column of R96: the instruction is of the operand class. -/
def Instr.operandClass : Instr → Bool
  | .cira _ => false
  | .stc _ => false
  | .cnz _ => false
  | .stop _ _ => false
  | .st _ => false
  | .sr _ => false
  | .sl _ => false
  | .nor _ => false
  | .adsc _ => false
  | .susc _ => false
  | .cu _ => false
  | .cur _ => false
  | .db _ => false
  | .cc _ => false
  | .ccr _ => false
  | .ib _ => false
  | .m _ => true
  | .div _ => true
  | .ex _ => true
  | .ad _ => true
  | .su _ => true
  | .cad _ => true
  | .csu _ => true
  | .fad _ => true
  | .fsu _ => true
  | .fm _ => true
  | .fdiv _ => true
  | .ada _ => true
  | .sua _ => true
  | .cada _ => true
  | .csua _ => true

/-- A row of the map: its mnemonic, its order, and the instruction an address field makes of it (R96). -/
structure OpcodeRow where
  mnemonic : String
  code : Order
  build : Address → Instr

/-- The rows of a map (R96). -/
def OpcodeMap.rows (m : OpcodeMap) : List OpcodeRow := [
  ⟨"CIRA", m.cira, .cira⟩,
  ⟨"STC", m.stc, .stc⟩,
  ⟨"CNZ", m.cnz, .cnz⟩,
  ⟨"ST", m.st, .st⟩,
  ⟨"SR", m.sr, .sr⟩,
  ⟨"SL", m.sl, .sl⟩,
  ⟨"NOR", m.nor, .nor⟩,
  ⟨"ADSC", m.adsc, .adsc⟩,
  ⟨"SUSC", m.susc, .susc⟩,
  ⟨"CU", m.cu, .cu⟩,
  ⟨"CUR", m.cur, .cur⟩,
  ⟨"DB", m.db, .db⟩,
  ⟨"CC", m.cc, .cc⟩,
  ⟨"CCR", m.ccr, .ccr⟩,
  ⟨"IB", m.ib, .ib⟩,
  ⟨"M", m.m, .m⟩,
  ⟨"DIV", m.div, .div⟩,
  ⟨"EX", m.ex, .ex⟩,
  ⟨"AD", m.ad, .ad⟩,
  ⟨"SU", m.su, .su⟩,
  ⟨"CAD", m.cad, .cad⟩,
  ⟨"CSU", m.csu, .csu⟩,
  ⟨"FAD", m.fad, .fad⟩,
  ⟨"FSU", m.fsu, .fsu⟩,
  ⟨"FM", m.fm, .fm⟩,
  ⟨"FDIV", m.fdiv, .fdiv⟩,
  ⟨"ADA", m.ada, .ada⟩,
  ⟨"SUA", m.sua, .sua⟩,
  ⟨"CADA", m.cada, .cada⟩,
  ⟨"CSUA", m.csua, .csua⟩]

/-- A map that changes codes only: the codes are distinct, none is of the STOP family, and each is of
its row's class (R95, R96). What a map that is not so does is no rule of the spec (log 12). -/
def OpcodeMap.wf (m : OpcodeMap) : Bool :=
  decide (m.rows.map OpcodeRow.code).Nodup &&
    m.rows.all (fun row =>
      !isStopOrder row.code && isOperandOrder row.code == (row.build 0#16).operandClass)

/-- The CC class of a map, CC and CCR (R97). -/
def isConditionalOrder (m : OpcodeMap) (cop : Order) : Bool := cop == m.cc || cop == m.ccr

/-! ### The decoder -/

/-- What an order decodes to (R98). -/
inductive Decoded where
  /-- A row of the opcode map, or the STOP family. -/
  | instr (i : Instr)
  /-- A reserved code of the operand class. -/
  | reservedOperand
  /-- A reserved code of the non-operand class. -/
  | reservedNonOperand
deriving DecidableEq, Repr

/-- The instruction that `COP` and `CADDR` name, if the code is not reserved: the STOP family first, then
the map (R98, R100). -/
def decodeOrder (m : OpcodeMap) (cop : Order) (addr : Address) : Option Instr :=
  if isStopOrder cop then some (.stop (cop.extractLsb' 0 3) addr)
  else (m.rows.find? (fun row => row.code == cop)).map (fun row => row.build addr)

/-- `decodeClass`, total on every `COP` (R98, R99). -/
def decodeClass (m : OpcodeMap) (cop : Order) (addr : Address) : Decoded :=
  match decodeOrder m cop addr with
  | some i => .instr i
  | none => if isOperandOrder cop then .reservedOperand else .reservedNonOperand

/-- The instruction of a word. -/
def decode (m : OpcodeMap) (w : Word) : Option Instr := decodeOrder m (copOf w) (addressOf w)

/-- The instruction of a word with the digits a decoder of `COP` does not read. -/
def decodeWord (m : OpcodeMap) (w : Word) : Option InstrWord :=
  (decode m w).map (fun i => ⟨signDigitOf w, controlOf w, i⟩)

/-- The host's question: the instruction whose bits are `w`, bit 0 the least significant of its one
word, by the default map. A number with a bit above the word's 44 is no instruction. -/
def decodeTableWord (nbits w : Nat) : Option Instr :=
  if w % 2 ^ nbits < 2 ^ 44 then decode OpcodeMap.default (BitVec.ofNat 44 (w % 2 ^ nbits)) else none

/-! ### The encoder -/

/-- The order digits of an instruction, by a map (R95, R96). -/
def encodeOrder (m : OpcodeMap) : Instr → Order
  | .cira _ => m.cira
  | .stc _ => m.stc
  | .cnz _ => m.cnz
  | .stop low _ => 0x01#5 ++ low
  | .st _ => m.st
  | .sr _ => m.sr
  | .sl _ => m.sl
  | .nor _ => m.nor
  | .adsc _ => m.adsc
  | .susc _ => m.susc
  | .cu _ => m.cu
  | .cur _ => m.cur
  | .db _ => m.db
  | .cc _ => m.cc
  | .ccr _ => m.ccr
  | .ib _ => m.ib
  | .m _ => m.m
  | .div _ => m.div
  | .ex _ => m.ex
  | .ad _ => m.ad
  | .su _ => m.su
  | .cad _ => m.cad
  | .csu _ => m.csu
  | .fad _ => m.fad
  | .fsu _ => m.fsu
  | .fm _ => m.fm
  | .fdiv _ => m.fdiv
  | .ada _ => m.ada
  | .sua _ => m.sua
  | .cada _ => m.cada
  | .csua _ => m.csua

/-- The address digits of an instruction (R93). -/
def encodeAddress : Instr → Address
  | .cira addr => addr
  | .stc addr => addr
  | .cnz addr => addr
  | .stop _ addr => addr
  | .st addr => addr
  | .sr addr => addr
  | .sl addr => addr
  | .nor addr => addr
  | .adsc addr => addr
  | .susc addr => addr
  | .cu addr => addr
  | .cur addr => addr
  | .db addr => addr
  | .cc addr => addr
  | .ccr addr => addr
  | .ib addr => addr
  | .m addr => addr
  | .div addr => addr
  | .ex addr => addr
  | .ad addr => addr
  | .su addr => addr
  | .cad addr => addr
  | .csu addr => addr
  | .fad addr => addr
  | .fsu addr => addr
  | .fm addr => addr
  | .fdiv addr => addr
  | .ada addr => addr
  | .sua addr => addr
  | .cada addr => addr
  | .csua addr => addr

/-- The word of an instruction with a sign digit and the ignored digits (R90, R101). -/
def encodeWord (m : OpcodeMap) (x : InstrWord) : Word :=
  buildWord x.signDigit x.spare (encodeOrder m x.instr) (encodeAddress x.instr)

/-- The word of an instruction written without `*`, its other digits 0 (R101). -/
def encode (m : OpcodeMap) (i : Instr) : Word := encodeWord m ⟨0#4, 0#16, i⟩

end Sys2Proof
end

