-- ==== Sys2Proof/Machine/State.lean ====
section
/-! DEFINITION. The state of the core, plain data, holding every piece of state the spec gives it
(spec/10_state.md, spec/47_scheduler.md R303), with the reasons a step can stop and the state after
reset. -/

namespace Sys2Proof.Machine

/-- The pending successor of an access (R35, R36). -/
inductive Successor where
  | fetchComplete
  | execWithOperand
  /-- `clear` asks for A to be cleared at completion. -/
  | storeComplete (clear : Bool)
deriving DecidableEq, Repr

/-- The state machine's position (R35). -/
inductive Phase where
  /-- Halted: only the host leaves it. -/
  | idle
  /-- Between half-steps. -/
  | running
  /-- A memory access is outstanding. -/
  | awaitMem (k : Successor)
  /-- An I/O operation is outstanding; unreachable, no I/O opcode being in the map (R292). -/
  | awaitIO (k : Successor)
deriving DecidableEq, Repr

/-- The Lock-Normal switch (R38). -/
inductive LockNormal where
  | lock
  | normal
deriving DecidableEq, Repr

/-- The step-mode switch (R38). -/
inductive StepMode where
  | step
  | continuous
deriving DecidableEq, Repr

/-- The values of the parameters `STUB_MODE` and `RESERVED_MODE` (spec/00_scope.md R5). -/
inductive OpenCodeMode where
  | refuse
  | noop
deriving DecidableEq, Repr

/-- The console switches (R38): read-only inputs that no step writes. -/
structure Switches where
  lockNormal : LockNormal
  stepMode : StepMode
  /-- `BKPT_MASK`; bit 0 is ignored. -/
  bkptMask : BitVec 4
  skip : Bool
  /-- `PRINT_SUPPRESS`, read by nothing in the core. DESIGN CHOICE (log 21): of two values, where R38 says
  "any". -/
  printSuppress : Bool
  /-- `AUDIBLE_ALARM`, read by nothing in the core. DESIGN CHOICE (log 21): as `printSuppress`. -/
  audibleAlarm : Bool
  /-- `IO_SELECT`: a selector's position, read by nothing in the core (log 21). -/
  ioSelect : Nat
deriving DecidableEq, Repr

/-- A pending call of the host timer, which fires no earlier than `due` (spec/47_scheduler.md R300; log 29). -/
structure TimerToken where
  due : Rat
deriving DecidableEq, Repr

/-- The scheduler's state (spec/47_scheduler.md R303); times in milliseconds (log 8). -/
structure Scheduler where
  busy : Bool
  token : Option TimerToken
  totalCycles : Nat
  runTime : Rat
  runStamp : Rat
  lastSlice : Rat
  nextDelay : Rat
  avgSlack : Rat
  avgRun : Rat
deriving DecidableEq, Repr

/-- The console operations of the host (spec/47_scheduler.md R301, R302, R313-R315). -/
inductive HostOp where
  | start
  | stop
  | step
  | clear
  | clearControl
deriving DecidableEq, Repr

/-- Whose turn it is (spec/42_sequencer.md R170; log 13). -/
inductive Turn where
  /-- The processor or the drum, whichever is enabled. -/
  | agent
  /-- The host timer, which calls `schedule`. -/
  | timer
  /-- A console operation. -/
  | host (op : HostOp)
deriving DecidableEq, Repr

/-- Memory: the words given so far, keyed by location in rising order (spec/10_state.md R39; logs 1, 2). -/
abbrev Memory := List (Nat × Word)

/-- The whole state. A toggle is `true` where the spec writes 1. `CADDR` and `CCONTROL` are views of
`c`, not fields (R23; log 28). -/
structure State where
  /-- The accumulator A (R20). -/
  a : Word
  /-- The index register B (R21). -/
  b : Address
  /-- The current instruction word C (R22). -/
  c : Word
  /-- The memory buffer D (R25). -/
  d : Word
  /-- The accumulator extension R (R26). -/
  r : Extension
  /-- The special counter SPECIAL (R27). -/
  special : Address
  /-- The cached order COP (R23). -/
  cop : Order
  /-- Complement mode of the last adder operation (R28). -/
  togCOMPL : Bool
  /-- Sign of the last adder result (R28). -/
  togSIGN : Bool
  /-- The carry toggle CT (R28). -/
  ct : Bool
  /-- Unspecified after an adder operation (R29; log 6). -/
  togADDER : Bool
  /-- Unspecified after an adder operation (R29; log 6). -/
  togCLEAR : Bool
  /-- Unspecified after an adder operation (R29; log 6). -/
  togDPCTR : Bool
  /-- The stop toggles (R30). -/
  stopOverflow : Bool
  stopForbidden : Bool
  stopControl : Bool
  stopIdle : Bool
  /-- The Timing toggle: fetch next (R31). -/
  togTiming : Bool
  /-- The computer-stop toggle (R32). -/
  togCST : Bool
  /-- The breakpoint-pending toggle (R33). -/
  togBKPT : Bool
  /-- Memory-control display toggle, main memory or loop (R34; log 7). -/
  dispLoop : Bool
  /-- Memory-control display toggle, read or write (R34; log 7). -/
  dispWrite : Bool
  phase : Phase
  /-- The mark of a refused state (R37; log 15). -/
  refused : Bool
  sw : Switches
  /-- `STUB_MODE` (spec/46_unimplemented.md R290; log 5). -/
  stubMode : OpenCodeMode
  /-- `RESERVED_MODE` (spec/46_unimplemented.md R293; log 5). -/
  reservedMode : OpenCodeMode
  /-- `OPCODE_MAP` (spec/30_encoding.md R96; log 12). -/
  opcodes : OpcodeMap
  mem : Memory
  sched : Scheduler
  /-- The host clock, in milliseconds: no reading to come is below it (spec/47_scheduler.md R300; log 8). -/
  hostTime : Rat
  /-- The latency, in words, of the last access issued (spec/20_memory.md R64, R65); read by its completion
  only, so not before an access (log 23). -/
  latency : Nat
  /-- The model's own: how many free values have been drawn (log 6). -/
  draws : Nat
  /-- The model's own: the completion to come halts, the host's `step` having ended its slice in
  `AwaitMem` (spec/47_scheduler.md R315; log 17). -/
  stepHalt : Bool
  /-- The model's own: the turns to come; when none is left the enabled agent moves (log 13). -/
  turns : List Turn
deriving DecidableEq, Repr

/-- The reasons the machine stops with a fault. The hardware's own faults are no such stop: they set a
stop toggle and halt (spec/60_exceptions.md R330). -/
inductive Fault where
  /-- Raised by the adder when its top digit is none of 0, 1 and 9, "an implementation bug"; no execution
  reaches it (spec/41_decimal_adder.md R148; log 22). Safe. -/
  | adderInvariant
  /-- Raised by the step in `AwaitIO`, which nothing reaches: no peripheral agent exists to complete the
  operation, "a hung successor chain hangs the processor" (spec/47_scheduler.md R307; log 16). Safe. -/
  | hungSuccessor
deriving DecidableEq, Repr

/-- The reasons the model gives no meaning (spec/42_sequencer.md R201). -/
inductive Refusal where
  /-- Raised by an arm of `exec` whose instruction has no meaning yet; none is left. Safe. -/
  | notModelled (mnemonic : String)
  /-- Raised by a stub executed with `STUB_MODE = refuse` (spec/46_unimplemented.md R290). Safe. -/
  | unimplemented (cop : Order)
  /-- Raised by a reserved code executed with `RESERVED_MODE = refuse` (spec/46_unimplemented.md R293). Safe. -/
  | reserved (cop : Order)
  /-- Raised by an access at an address with a nibble above 9 (spec/20_memory.md R61). Safe. -/
  | nonDecimalAddress
  /-- Raised by a shift or circulate whose count has a nibble above 9 (spec/30_encoding.md R94). Safe. -/
  | nonDecimalCount
  /-- Raised by a codec call outside its domain (spec/40_field_codec.md R128); no rule makes one. Safe. -/
  | codecRange
  /-- Raised by a host `start` or `step` with the skip switch on: the run is not admitted
  (spec/10_state.md R38; log 20). Safe. -/
  | skipSwitchOn
  /-- Raised by any step from a state marked refused, which has none (R37; log 15). Safe. -/
  | alreadyRefused
deriving DecidableEq, Repr

/-- Switches at rest: Normal, Continuous, no breakpoint, SKIP off. DESIGN CHOICE (log 4): they are launch
inputs. -/
def Switches.atRest : Switches where
  lockNormal := .normal
  stepMode := .continuous
  bkptMask := 0#4
  skip := false
  printSuppress := false
  audibleAlarm := false
  ioSelect := 0

/-- The scheduler at launch: not busy, no token, every number 0 (spec/47_scheduler.md R303). -/
def Scheduler.atLaunch : Scheduler where
  busy := false
  token := none
  totalCycles := 0
  runTime := 0
  runStamp := 0
  lastSlice := 0
  nextDelay := 0
  avgSlack := 0
  avgRun := 0

/-- The state after reset: the launch state (spec/70_reset_and_hazards.md R361) after the console Clear
(spec/47_scheduler.md R313), which is the operation that gives the registers and `togTiming` a value
(log 3). Nothing is listed in memory, so every word is the launch's unspecified one (log 2). `latency`,
whose value before any access no rule gives, is 0: DESIGN CHOICE (log 23). -/
def State.reset : State where
  a := 0#44
  b := 0#16
  c := 0#44
  d := 0#44
  r := 0#40
  special := 0#16
  cop := 0#8
  togCOMPL := false
  togSIGN := false
  ct := false
  togADDER := false
  togCLEAR := false
  togDPCTR := false
  stopOverflow := false
  stopForbidden := false
  stopControl := false
  stopIdle := true
  togTiming := true
  togCST := false
  togBKPT := false
  dispLoop := false
  dispWrite := false
  phase := .idle
  refused := false
  sw := Switches.atRest
  stubMode := .noop
  reservedMode := .noop
  opcodes := OpcodeMap.default
  mem := []
  sched := Scheduler.atLaunch
  hostTime := 0
  latency := 0
  draws := 0
  stepHalt := false
  turns := []

end Sys2Proof.Machine
end

