-- ==== Sys2Proof/Machine/Operands.lean ====
section
/-! DEFINITION. Operand forms: decimal values and counts, the address map, the views of C, the operand
words the adder is given, and the shifted pair A:R. -/

namespace Sys2Proof.Machine

/-! ### Digits and decimal values (spec/00_scope.md R7-R9) -/

/-- Digit `k` of a word, `k` from 1 (R7). -/
def digit (w : Word) (k : Nat) : Nat := w.toNat / 16 ^ (k - 1) % 16

/-- The sign of a word: bit 40, 1 is negative (R8). -/
def signBit (w : Word) : Bool := w.getLsbD 40

/-- The ten magnitude digits of a word (R8). -/
def magnitude (w : Word) : Extension := w.extractLsb' 0 40

/-- `val(x, k)`: the number a `k`-digit BCD value spells, when every digit is decimal (R9). -/
def val? (k x : Nat) : Option Nat :=
  if allDecimal (digitsOf k x) then some (decimalValue (digitsOf k x)) else none

/-- `bcd(n, k)`: the `k`-digit BCD encoding of `n` (R9). -/
def bcd : (k n : Nat) → Nat
  | 0, _ => 0
  | k + 1, n => n % 10 + 16 * bcd k (n / 10)

/-! ### The address map (spec/20_memory.md R60-R63) -/

/-- A word of memory: of main memory, or of one of the four loops, band 0 being loop 4. -/
inductive Location where
  | main (n : Fin 4000)
  | loop (band : Fin 4) (word : Fin 20)
deriving DecidableEq, Repr

/-- The location's own address, under which memory lists it (R60). -/
def Location.key : Location → Nat
  | .main n => n.val
  | .loop band word => 4000 + 1000 * band.val + word.val

/-- Decoding of an address value: modulo 8000, then main memory or the loop of its thousand, whose
words repeat every twenty (R62). -/
def locate (v : Nat) : Location :=
  if h : v % 8000 < 4000 then .main ⟨v % 8000, h⟩
  else .loop ⟨v % 8000 / 1000 - 4, by omega⟩ ⟨v % 8000 % 20, by omega⟩

/-- The location an address field names; none when a nibble exceeds 9 (R61). -/
def decodeAddress (x : Address) : Option Location := (val? 4 x.toNat).map locate

/-- The shift count of an address field: its two low digits (spec/30_encoding.md R94). -/
def decodeCount (x : Address) : Option Nat := val? 2 (x.toNat % 256)

/-! ### Views of C and of A (spec/10_state.md R20, R22, R23) -/

/-- The operand address `CADDR`, a view of C. -/
def State.caddr (s : State) : Address := addressOf s.c

/-- The control address `CCONTROL`, the program counter, a view of C (R24). -/
def State.ccontrol (s : State) : Address := controlOf s.c

/-- C with its control address replaced. -/
def withControl (c : Word) (target : Address) : Word :=
  buildWord (signDigitOf c) target (copOf c) (addressOf c)

/-- The word with this sign digit and these ten magnitude digits (R8). -/
def joinSign (sign : BitVec 4) (mag : Extension) : Word :=
  BitVec.ofNat 44 (2 ^ 40 * sign.toNat + mag.toNat)

/-- A word with its magnitude digits replaced, the sign digit kept. -/
def withMagnitude (w : Word) (mag : Extension) : Word := joinSign (signDigitOf w) mag

/-- R with its four low digits replaced: where a return address is recorded (spec/44_control.md R243). -/
def withReturnAddress (r : Extension) (back : Address) : Extension :=
  BitVec.ofNat 40 (2 ^ 16 * (r.toNat / 2 ^ 16) + back.toNat)

/-! ### Operand words given to the adder (spec/41_decimal_adder.md R153) -/

/-- The augend of every clear-and-add form. -/
def zeroWord : Word := 0#44

/-- `neg(w)`: bit 40 flipped. -/
def negWord (w : Word) : Word := w ^^^ 0x10000000000#44

/-- `abs(w)`: the sign digit set to 0. -/
def absWord (w : Word) : Word := joinSign 0#4 (magnitude w)

/-- `negabs(w)`: the sign digit set to 1. -/
def negAbsWord (w : Word) : Word := joinSign 1#4 (magnitude w)

/-- `+SPECIAL` as a word (spec/43_arithmetic.md R219). -/
def specialWord (special : Address) : Word := joinSign 0#4 (special.setWidth 40)

/-- `-SPECIAL` as a word (spec/43_arithmetic.md R220). -/
def negSpecialWord (special : Address) : Word := joinSign 1#4 (special.setWidth 40)

/-! ### The pair A:R and its shifts (spec/45_shift_store.md R270-R273) -/

/-- `AR`: A's ten magnitude digits above R's ten. -/
def pairOf (a : Word) (r : Extension) : Pair :=
  BitVec.ofNat 80 (2 ^ 40 * (magnitude a).toNat + r.toNat)

/-- The upper ten digits of the pair. -/
def pairHigh (p : Pair) : Extension := p.extractLsb' 40 40

/-- The lower ten digits of the pair. -/
def pairLow (p : Pair) : Extension := p.extractLsb' 0 40

/-- The pair moved `n` digits right, zeros entering at the top (R270). -/
def shiftPairRight (p : Pair) (n : Nat) : Pair := if n < 20 then p >>> (4 * n) else 0#80

/-- The pair moved `n` digits left, zeros entering at the bottom (R271). -/
def shiftPairLeft (p : Pair) (n : Nat) : Pair := if n < 20 then p <<< (4 * n) else 0#80

/-- Ten digits rotated left by `n`, `n < 10` (R272). -/
def rotateDigits (x : Extension) (n : Nat) : Extension := x <<< (4 * n) ||| x >>> (4 * (10 - n))

/-- The loop of NOR: while the top digit is zero, one digit left, counting; at most `fuel` times (R273). -/
def normalizePair : (fuel : Nat) → Pair → Nat → Pair × Nat
  | 0, p, n => (p, n)
  | fuel + 1, p, n =>
    if p.extractLsb' 76 4 = 0#4 then normalizePair fuel (shiftPairLeft p 1) (n + 1) else (p, n)

end Sys2Proof.Machine
end

