-- ==== Sys2Proof/Machine/Adder.lean ====
section
/-! DEFINITION. The decimal adder (spec/41_decimal_adder.md R140-R153): functions of their operands
that report events; the caller applies the events to the toggles. Digit lists run low to high. -/

namespace Sys2Proof.Machine

/-- One digit position's result: the digit, the carry out, and whether a forbidden nibble was met. -/
structure DigitSum where
  digit : Nat
  carry : Bool
  fc : Bool
deriving DecidableEq, Repr

/-- The digit step (R140): a nibble above 9 gives digit 0 and no carry. -/
def digitStep (x y : Nat) (cin : Bool) : DigitSum :=
  if 9 < x ∨ 9 < y then ⟨0, false, true⟩
  else if 10 ≤ x + y + cin.toNat then ⟨x + y + cin.toNat - 10, true, false⟩
  else ⟨x + y + cin.toNat, false, false⟩

/-- The result of a pass over digit positions: the digits, the last carry out, and whether any position
met a forbidden nibble. -/
structure Pass where
  digits : List Nat
  carry : Bool
  fc : Bool
deriving DecidableEq, Repr

/-- One position of the main pass: nibbles are tested before the augend is complemented (R142). -/
def mainStep (compl : Bool) (x y : Nat) (cin : Bool) : DigitSum :=
  if 9 < x ∨ 9 < y then ⟨0, false, true⟩
  else digitStep (if compl then 9 - x else x) y cin

/-- The main pass over the listed positions (R142). -/
def mainPass (compl : Bool) : List (Nat × Nat) → Bool → Pass
  | [], carry => ⟨[], carry, false⟩
  | (x, y) :: rest, carry =>
    let here := mainStep compl x y carry
    let above := mainPass compl rest here.carry
    ⟨here.digit :: above.digits, above.carry, here.fc || above.fc⟩

/-- The recomplement pass: every digit nine's-complemented, a carry entering at the bottom (R144). -/
def recomplementPass : List Nat → Bool → Pass
  | [], carry => ⟨[], carry, false⟩
  | d :: rest, carry =>
    let here := digitStep (9 - d) 0 carry
    let above := recomplementPass rest here.carry
    ⟨here.digit :: above.digits, above.carry, here.fc || above.fc⟩

/-- The eleven positions of a main pass: ten pairs of magnitude digits and 0 + 0 (R142). -/
def addPositions (a d : Word) : List (Nat × Nat) :=
  (digitsOf 10 a.toNat).zip (digitsOf 10 d.toNat) ++ [(0, 0)]

/-- A sign digit above 9 is a forbidden nibble too (R142, R143). -/
def signDigitsForbidden (a d : Word) : Bool := decide (9 < digit a 11) || decide (9 < digit d 11)

/-- What `serialAdd` answers: the sum, its events, and the toggles it records (R141-R147). -/
structure AddResult where
  sum : Word
  /-- The event `ovf` (R146). -/
  ovf : Bool
  /-- The event `fc` (R143). -/
  fc : Bool
  /-- Complement mode, recorded in `togCOMPL`. -/
  compl : Bool
  /-- The result's sign, recorded in `togSIGN`. -/
  sign : Bool
  /-- The carry out of position 11 of the last pass run, recorded in `CT`. -/
  ct : Bool
  /-- The top digit of the main pass (R144). -/
  top : Nat
deriving DecidableEq, Repr

/-- The word with this sign in its sign digit and these ten magnitude digits (R145). -/
def signedWord (negative : Bool) (mag : Nat) : Word :=
  joinSign (BitVec.ofNat 4 negative.toNat) (BitVec.ofNat 40 mag)

/-- `serialAdd(a, d)`: the augend is the accumulator's side, the addend the operand's (R141-R147). -/
def serialAdd (a d : Word) : AddResult :=
  let compl := signBit a ^^ signBit d
  let pass := mainPass compl (addPositions a d) compl
  let top := pass.digits.getLastD 0
  let recomplemented := top == 9
  let last := if recomplemented then recomplementPass pass.digits true else pass
  let sign := signBit d ^^ recomplemented
  { sum := signedWord sign (packDigits (last.digits.take 10))
    ovf := top == 1
    fc := pass.fc || signDigitsForbidden a d
    compl := compl
    sign := sign
    ct := last.carry
    top := top }

/-- The source's assertion on the top digit (R144, R148). -/
def AddResult.topOk (r : AddResult) : Bool := r.top == 0 || r.top == 1 || r.top == 9

/-- One magnitude position of `serialExtract`: an even pattern digit replaces the value digit and drops
the carry; an odd one, less its low bit, is added with carry (R149). -/
def extractStep (v p : Nat) (cin : Bool) : DigitSum :=
  if 9 < v ∨ 9 < p then ⟨0, false, true⟩
  else if p % 2 = 0 then ⟨p, false, false⟩
  else digitStep v (p - 1) cin

/-- `serialExtract` over the listed pairs of value and pattern digits (R149). -/
def extractPass : List (Nat × Nat) → Bool → Pass
  | [], carry => ⟨[], carry, false⟩
  | (v, p) :: rest, carry =>
    let here := extractStep v p carry
    let above := extractPass rest here.carry
    ⟨here.digit :: above.digits, above.carry, here.fc || above.fc⟩

/-- The sign digit of an extract: carry-in 0, carry-out dropped (R150). -/
def extractSign (v p : Nat) : Nat :=
  if 9 < v ∨ 9 < p then 0 else if p % 2 = 0 then p else (v + p - 1) % 10

/-- What `serialExtract` answers (R149, R150). -/
structure ExtractResult where
  merged : Word
  ovf : Bool
  fc : Bool
deriving DecidableEq, Repr

/-- `serialExtract(a, d)`: `a` the value, `d` the pattern (R149, R150). -/
def serialExtract (a d : Word) : ExtractResult :=
  let pass := extractPass ((digitsOf 10 a.toNat).zip (digitsOf 10 d.toNat)) false
  { merged := joinSign (BitVec.ofNat 4 (extractSign (digit a 11) (digit d 11)))
      (BitVec.ofNat 40 (packDigits pass.digits))
    ovf := pass.carry
    fc := pass.fc || signDigitsForbidden a d }

/-- The unsigned add over the listed positions (R151). -/
def unsignedPass : List (Nat × Nat) → Bool → Pass
  | [], carry => ⟨[], carry, false⟩
  | (x, y) :: rest, carry =>
    let here := digitStep x y carry
    let above := unsignedPass rest here.carry
    ⟨here.digit :: above.digits, above.carry, here.fc || above.fc⟩

/-- `bcdAddN(x, y, n, cin)`: its digits are `packDigits` of the pass's (R151). -/
def bcdAddN (x y n : Nat) (cin : Bool) : Pass :=
  unsignedPass ((digitsOf n x).zip (digitsOf n y)) cin

end Sys2Proof.Machine
end

