-- ==== Sys2Proof/Config.lean ====
section
/-! DEFINITION. What is fixed for the machine (spec/00_scope.md R5) and the values the spec leaves
open, which are constants without a body: nothing can be proved of what they are. -/

namespace Sys2Proof

/-- What a cycle cost may depend on: the half-step or the access just done (spec/47_scheduler.md R305). -/
inductive Activity where
  /-- A Fetch half-step up to its access. -/
  | fetch
  /-- An Execute half-step with this order, up to its access or its end. -/
  | execute (order : Order)
  /-- The access that completed, with its latency in words. -/
  | access (latency : Nat)
  /-- The halt taken at the start of a processor step. -/
  | halt
deriving DecidableEq, Repr

/-- Numerator of `WORDS_PER_MS`, OPEN (log 9). -/
opaque Config.wordsPerMsNum : ℕ+

/-- Denominator of `WORDS_PER_MS`, OPEN (log 9). -/
opaque Config.wordsPerMsDen : ℕ+

/-- Numerator of `CYCLES_PER_MS`, OPEN (log 9). -/
opaque Config.cyclesPerMsNum : ℕ+

/-- Denominator of `CYCLES_PER_MS`, OPEN (log 9). -/
opaque Config.cyclesPerMsDen : ℕ+

/-- `WORDS_PER_MS`, a positive rate with no value fixed here (R5, D52). -/
def Config.wordsPerMs : Rat := (Config.wordsPerMsNum : Rat) / (Config.wordsPerMsDen : Rat)

/-- `CYCLES_PER_MS`, a positive rate with no value fixed here (R5, D53). -/
def Config.cyclesPerMs : Rat := (Config.cyclesPerMsNum : Rat) / (Config.cyclesPerMsDen : Rat)

/-- `CYCLE_COST`, OPEN (R5, D27), less the one cycle every activity costs at least (log 10). -/
opaque Config.extraCycles : Activity → Nat

/-- The cycles charged for an activity: `CYCLE_COST`, at least one (log 10). -/
def Config.cycleCost (x : Activity) : Nat := 1 + Config.extraCycles x

/-- `CYCLE_BUDGET`, the simulated cycles of a slice (R5). -/
def Config.cycleBudget : Nat := 4000

/-- `SLACK_DECAY`, "~0.999" (R5; log 11). -/
def Config.slackDecay : Rat := 999 / 1000

/-- `RUN_DECAY`, "~0.9999" (R5; log 11). -/
def Config.runDecay : Rat := 9999 / 10000

/-- How far the host clock has moved, in milliseconds, at its `n`th draw: never backwards, so that
"a model takes each clock reading as a draw that never decreases" (spec/47_scheduler.md R300; log 8). -/
opaque Config.clockAdvance : Nat → NNRat

/-- The word a location holds at launch where the launch gives none: unspecified
(spec/70_reset_and_hazards.md R361; log 2). The argument is the location's key. -/
opaque Config.launchWord : Nat → Word

/-- A bit the spec leaves unspecified, at the `n`th draw: the toggles of spec/10_state.md R29 and R34
(logs 6, 7). -/
opaque Config.freeBit : Nat → Bool

end Sys2Proof
end

