-- ==== Sys2Proof/Machine/Ops.lean ====
section
/-! DEFINITION. The named operations over memory, registers and toggles; raising a fault, halting, and
the restart that returns from a halt; the end of an Execute and the injected Change Conditionally. -/

namespace Sys2Proof.Machine

/-- An outcome of the model. -/
abbrev Result := Host.Outcome State Fault Refusal

/-- Goes on from a next state; a fault or a refusal stays. -/
def andThen (o : Result) (f : State → Result) : Result :=
  match o with
  | .next s => f s
  | .fault e => .fault e
  | .refused e => .refused e

/-- Changes the next state of an outcome. -/
def onNext (f : State → State) (o : Result) : Result := andThen o (fun s => .next (f s))

/-! ### Memory (spec/10_state.md R39; spec/20_memory.md R60-R66) -/

/-- The word listed at a key, if one is. -/
def Memory.find? : Memory → Nat → Option Word
  | [], _ => none
  | (k, w) :: rest, key => if k = key then some w else Memory.find? rest key

/-- What an unlisted location reads as: the launch's unspecified word of that location, the same at
every read (spec/70_reset_and_hazards.md R361; log 2). -/
def unlistedWord (key : Nat) : Word := Config.launchWord key

/-- The word a memory holds at a key. -/
def Memory.read (m : Memory) (key : Nat) : Word := (m.find? key).getD (unlistedWord key)

/-- A memory with the word at a key replaced, in rising order of keys. -/
def Memory.write : Memory → Nat → Word → Memory
  | [], key, v => [(key, v)]
  | (k, w) :: rest, key, v =>
    if k < key then (k, w) :: Memory.write rest key v
    else if k = key then (key, v) :: rest
    else (key, v) :: (k, w) :: rest

/-- A key is the own address of a location (R60). -/
def keyExists (key : Nat) : Bool :=
  decide (key < 4000) || (decide (key < 8000) && decide (key % 1000 < 20))

/-- The canonical form: keys of existing words, strictly rising from `low` (log 2). -/
def Memory.wfFrom : Nat → Memory → Bool
  | _, [] => true
  | low, (k, _) :: rest => decide (low ≤ k) && keyExists k && Memory.wfFrom (k + 1) rest

/-- The canonical form of a memory. -/
def Memory.wf (m : Memory) : Bool := Memory.wfFrom 0 m

/-- The word at a location. -/
def State.read (s : State) (loc : Location) : Word := s.mem.read loc.key

/-- The state with the word at a location replaced. -/
def State.write (s : State) (loc : Location) (v : Word) : State :=
  { s with mem := s.mem.write loc.key v }

/-! ### The clock and the drum (spec/20_memory.md R67-R70; spec/47_scheduler.md R300) -/

/-- A reading of the host clock: the clock moves on by a draw; the reading is the new `hostTime` (log 8). -/
def readClock (s : State) : State :=
  { s with hostTime := s.hostTime + (Config.clockAdvance s.draws : Rat), draws := s.draws + 1 }

/-- The words of a revolution: 200 for main memory, 20 for a loop (R67). -/
def drumPeriod : Location → Nat
  | .main _ => 200
  | .loop _ _ => 20

/-- The slot under the heads at a time, at a rate in words a millisecond (R67). -/
def currentSlot (period : Nat) (now rate : Rat) : Nat := ((now * rate).floor % (period : Int)).toNat

/-- `DrumLatency`, in words: 0 to `period - 1` (R67). -/
def drumLatency (loc : Location) (now rate : Rat) : Nat :=
  let period := drumPeriod loc
  (loc.key % period + period - currentSlot period now rate) % period

/-- An access of a location is issued: its latency is sampled and `k` awaits it (R64, R65). -/
def issueAccess (loc : Location) (k : Successor) (s : State) : State :=
  let s := readClock s
  { s with latency := drumLatency loc s.hostTime Config.wordsPerMs, phase := .awaitMem k }

/-- `MemRead`: the word is sampled into D at issue (R64); a non-decimal address is refused (R61). -/
def memRead (x : Address) (k : Successor) (s : State) : Result :=
  match decodeAddress x with
  | none => .refused .nonDecimalAddress
  | some loc => .next (issueAccess loc k { s with d := s.read loc })

/-- `MemWrite`: the word of A is stored at issue (R65); a non-decimal address is refused (R61). -/
def memWrite (x : Address) (clearAfter : Bool) (s : State) : Result :=
  match decodeAddress x with
  | none => .refused .nonDecimalAddress
  | some loc => .next (issueAccess loc (.storeComplete clearAfter) (s.write loc s.a))

/-- The access in progress has arrived: the host clock is no earlier than its delay of
`latency / WORDS_PER_MS` milliseconds after its issue (R68). DESIGN CHOICE (log 8): the whole delay is
added to the latest reading, also where a timer or stop turn has read the clock since the issue; R68 and
R300 bound the arrival from the issue only. -/
def accessArrives (s : State) : State :=
  { s with hostTime := s.hostTime + (s.latency : Rat) / Config.wordsPerMs }

/-- The memory-control display toggles take unspecified values (spec/10_state.md R34; log 7). -/
def drawDisplay (s : State) : State :=
  { s with
    dispLoop := Config.freeBit s.draws
    dispWrite := Config.freeBit (s.draws + 1)
    draws := s.draws + 2 }

/-! ### Registers -/

/-- "Decomposes C into COP/CADDR/CCONTROL" (spec/10_state.md R23): `CADDR` and `CCONTROL` are views, so
only the cached `COP` is written. -/
def decompose (s : State) : State := { s with cop := copOf s.c }

/-- `CCONTROL <- target` (spec/10_state.md R24). -/
def branchTo (target : Address) (s : State) : State := { s with c := withControl s.c target }

/-- `R[15:0] <- CCONTROL`, the return-address save (spec/44_control.md R243). -/
def recordReturn (s : State) : State := { s with r := withReturnAddress s.r s.ccontrol }

/-! ### Faults, the halt and the restart (spec/60_exceptions.md R330-R338) -/

/-- The fault kinds of the hardware (R331). -/
inductive FaultKind where
  /-- Forbidden Combination. -/
  | forbidden
  /-- Overflow. -/
  | overflow
  /-- Control fault. -/
  | control
deriving DecidableEq, Repr

/-- `raise Fault(kind)`: the kind's stop toggle is set, and `togCST` where the kind is fatal at once; no
transfer of control (R330-R334). -/
def raiseFault (kind : FaultKind) (s : State) : State :=
  match kind with
  | .forbidden => { s with stopForbidden := true, togCST := true }
  | .overflow => { s with stopOverflow := true }
  | .control => { s with stopControl := true, togCST := true }

/-- A fault raised when its condition holds. -/
def raiseIf (condition : Bool) (kind : FaultKind) (s : State) : State :=
  if condition then raiseFault kind s else s

/-- A peripheral error raises the Control fault (R334). No agent of this block raises it (log 16). -/
def peripheralError (s : State) : State := raiseFault .control s

/-- `halt()` (spec/42_sequencer.md R200). -/
def halt (s : State) : State := { s with stopIdle := true, phase := .idle }

/-- The toggle and phase writes of `start`, the return from a halt (R338; spec/47_scheduler.md R301). -/
def restart (s : State) : State :=
  { s with
    stopIdle := false
    stopOverflow := false
    stopForbidden := false
    stopControl := false
    togCST := false
    phase := .running }

/-! ### The end of an Execute (spec/42_sequencer.md R195, R196) and the injected CC (R190) -/

/-- The Timing toggle takes a value under Normal, and holds under Lock (R178, R195). -/
def setTiming (fetchNext : Bool) (s : State) : State :=
  match s.sw.lockNormal with
  | .normal => { s with togTiming := fetchNext }
  | .lock => s

/-- The end of `executeComplete`: a pending breakpoint is taken first, then step mode and stop (R196). -/
def haltOrGoOn (s : State) : State :=
  if s.togBKPT then halt { s with togBKPT := false }
  else if s.sw.stepMode = .step ∨ s.togCST then halt s
  else { s with phase := .running }

/-- `executeComplete()` (R195, R196). -/
def executeComplete (s : State) : State := haltOrGoOn (setTiming true s)

/-- Change Conditionally (spec/44_control.md R245). -/
def changeConditionally (addr : Address) (s : State) : State :=
  if s.stopOverflow then branchTo addr { s with stopOverflow := false } else s

/-- `injectCC()`: the operator's overflow, then CC in its place; C itself keeps its order (R190). -/
def injectCC (addr : Address) (s : State) : State :=
  changeConditionally addr { raiseFault .overflow s with cop := s.opcodes.cc }

/-- The successor of a store: A is cleared if asked, then the Execute ends (spec/45_shift_store.md R284,
R285). -/
def storeComplete (clear : Bool) (s : State) : State :=
  executeComplete (if clear then { s with a := 0#44 } else s)

/-- An operand-class instruction: the operand is read into D, and when it has come the instruction is
performed and the Execute ends (spec/42_sequencer.md R181, R183; log 19). -/
def operandInstr (addr : Address) (perform : State → Result) (s : State) : Result :=
  match s.phase with
  | .awaitMem .execWithOperand => onNext executeComplete (perform s)
  | _ => memRead addr .execWithOperand s

/-- A storing instruction: the store is issued, and when it has been done its successor ends the Execute
(R182, R202; log 19). -/
def storeInstr (addr : Address) (clearAfter : Bool) (s : State) : Result :=
  match s.phase with
  | .awaitMem (.storeComplete clear) => .next (storeComplete clear s)
  | _ => memWrite addr clearAfter s

end Sys2Proof.Machine
end

