-- ==== Sys2Proof/Machine/Flags.lean ====
section
/-! DEFINITION. The toggles an instruction writes: the adder's record and events
(spec/41_decimal_adder.md R143-R150; spec/43_arithmetic.md R221) and the Forbidden Combination of the
unsigned adds. -/

namespace Sys2Proof.Machine

/-- `togADDER`, `togCLEAR` and `togDPCTR` after any adder operation: unspecified (spec/10_state.md R29;
log 6). -/
def drawAdderToggles (s : State) : State :=
  { s with
    togADDER := Config.freeBit s.draws
    togCLEAR := Config.freeBit (s.draws + 1)
    togDPCTR := Config.freeBit (s.draws + 2)
    draws := s.draws + 3 }

/-- `applyAdderEvents` (R221). -/
def applyAdderEvents (fc ovf : Bool) (s : State) : State :=
  raiseIf ovf .overflow (raiseIf fc .forbidden s)

/-- A sum written to A, with the toggles it records and its events (R147, R221). -/
def recordSum (sum : AddResult) (s : State) : State :=
  applyAdderEvents sum.fc sum.ovf
    { drawAdderToggles s with
      a := sum.sum
      togCOMPL := sum.compl
      togSIGN := sum.sign
      ct := sum.ct }

/-- `(A, ev) <- serialAdd(augend, addend)` with its toggles and events (R141-R147, R221); the source's
assertion is kept as a fault that no execution reaches (R148; log 22). -/
def addIntoA (augend addend : Word) (s : State) : Result :=
  if (serialAdd augend addend).topOk then .next (recordSum (serialAdd augend addend) s)
  else .fault .adderInvariant

/-- `(A, ev) <- serialExtract(value, pattern)` with its toggles and events (R150, R221). -/
def extractIntoA (value pattern : Word) (s : State) : State :=
  let result := serialExtract value pattern
  applyAdderEvents result.fc result.ovf { drawAdderToggles s with a := result.merged }

/-- `B <- r` from a four-digit add of `x`, with its Forbidden Combination (spec/44_control.md R250, R252). -/
def addIntoB (x : Nat) (s : State) : State :=
  let sum := bcdAddN s.b.toNat x 4 false
  { raiseIf sum.fc .forbidden s with b := BitVec.ofNat 16 (packDigits sum.digits) }

end Sys2Proof.Machine
end

