-- ==== Sys2Proof/Machine/Arithmetic.lean ====
section
/-! DEFINITION. The arithmetic instructions (spec/43_arithmetic.md). The operand-class ones read their
operand into D and then perform the operation of their rule; ADSC and SUSC read no memory. -/

namespace Sys2Proof.Machine

/-- AD (R210). -/
def execAd (addr : Address) (s : State) : Result :=
  operandInstr addr (fun t => addIntoA t.a t.d t) s

/-- SU (R211). -/
def execSu (addr : Address) (s : State) : Result :=
  operandInstr addr (fun t => addIntoA t.a (negWord t.d) t) s

/-- CAD (R212). -/
def execCad (addr : Address) (s : State) : Result :=
  operandInstr addr (fun t => addIntoA zeroWord t.d t) s

/-- CSU (R213). -/
def execCsu (addr : Address) (s : State) : Result :=
  operandInstr addr (fun t => addIntoA zeroWord (negWord t.d) t) s

/-- ADA (R214). -/
def execAda (addr : Address) (s : State) : Result :=
  operandInstr addr (fun t => addIntoA t.a (absWord t.d) t) s

/-- SUA (R215). -/
def execSua (addr : Address) (s : State) : Result :=
  operandInstr addr (fun t => addIntoA t.a (negAbsWord t.d) t) s

/-- CADA (R216). -/
def execCada (addr : Address) (s : State) : Result :=
  operandInstr addr (fun t => addIntoA zeroWord (absWord t.d) t) s

/-- CSUA (R217). -/
def execCsua (addr : Address) (s : State) : Result :=
  operandInstr addr (fun t => addIntoA zeroWord (negAbsWord t.d) t) s

/-- EX (R218). -/
def execEx (addr : Address) (s : State) : Result :=
  operandInstr addr (fun t => .next (extractIntoA t.a t.d t)) s

/-- ADSC (R219). -/
def execAdsc (s : State) : Result :=
  onNext executeComplete (addIntoA s.a (specialWord s.special) s)

/-- SUSC (R220). -/
def execSusc (s : State) : Result :=
  onNext executeComplete (addIntoA s.a (negSpecialWord s.special) s)

end Sys2Proof.Machine
end

