-- ==== Sys2Proof/Machine/Control.lean ====
section
/-! DEFINITION. STOP, the branches and the B register (spec/44_control.md). -/

namespace Sys2Proof.Machine

/-- STOP (R240). -/
def execStop (s : State) : Result := .next (executeComplete (raiseFault .control s))

/-- CU (R242). -/
def execCu (addr : Address) (s : State) : Result := .next (executeComplete (branchTo addr s))

/-- CUR (R243): the return address is that of the word after this instruction. -/
def execCur (addr : Address) (s : State) : Result :=
  .next (executeComplete (branchTo addr (recordReturn s)))

/-- CC (R245). -/
def execCc (addr : Address) (s : State) : Result :=
  .next (executeComplete (changeConditionally addr s))

/-- CCR (R246): recorded only when the branch is taken. -/
def execCcr (addr : Address) (s : State) : Result :=
  .next (executeComplete
    (if s.stopOverflow then branchTo addr (recordReturn { s with stopOverflow := false }) else s))

/-- CNZ (R248): the sign of A is ignored. -/
def execCnz (addr : Address) (s : State) : Result :=
  .next (executeComplete (if magnitude s.a = 0#40 then s else injectCC addr s))

/-- DB (R250): B - 1 as B + 9999, whose carry is the branch condition. -/
def execDb (addr : Address) (s : State) : Result :=
  let t := addIntoB 0x9999 s
  .next (executeComplete (if (bcdAddN s.b.toNat 0x9999 4 false).carry then injectCC addr t else t))

/-- IB (R252): no branch. -/
def execIb (s : State) : Result := .next (executeComplete (addIntoB 0x0001 s))

end Sys2Proof.Machine
end

