-- ==== Sys2Proof/Machine/ShiftStore.lean ====
section
/-! DEFINITION. The shifts, circulate, normalize and the stores (spec/45_shift_store.md). -/

namespace Sys2Proof.Machine

/-- A shift or circulate by the count of an address field; a non-decimal count is refused
(spec/30_encoding.md R94). -/
def countedInstr (addr : Address) (perform : Nat → State → State) (s : State) : Result :=
  match decodeCount addr with
  | none => .refused .nonDecimalCount
  | some n => .next (executeComplete (perform n s))

/-- A's magnitude and R taken from a pair; A's sign digit never moves. -/
def setPair (p : Pair) (s : State) : State :=
  { s with a := withMagnitude s.a (pairHigh p), r := pairLow p }

/-- SR (R270). -/
def execSr (addr : Address) (s : State) : Result :=
  countedInstr addr (fun n t => setPair (shiftPairRight (pairOf t.a t.r) n) t) s

/-- SL (R271). -/
def execSl (addr : Address) (s : State) : Result :=
  countedInstr addr (fun n t => setPair (shiftPairLeft (pairOf t.a t.r) n) t) s

/-- CIRA (R272). -/
def execCira (addr : Address) (s : State) : Result :=
  countedInstr addr
    (fun n t => { t with a := withMagnitude t.a (rotateDigits (magnitude t.a) (n % 10)) }) s

/-- NOR (R273): a zero magnitude branches; another is shifted until its top digit is not zero, and the
number of digits goes to SPECIAL. -/
def execNor (addr : Address) (s : State) : Result :=
  .next (executeComplete
    (if magnitude s.a = 0#40 then injectCC addr s
     else
      let shifted := normalizePair 10 (pairOf s.a s.r) 0
      { setPair shifted.1 s with special := BitVec.ofNat 16 (bcd 4 shifted.2) }))

/-- ST (R284). -/
def execSt (addr : Address) (s : State) : Result := storeInstr addr false s

/-- STC (R285). -/
def execStc (addr : Address) (s : State) : Result := storeInstr addr true s

end Sys2Proof.Machine
end

