-- ==== Sys2Proof/Machine/Unimplemented.lean ====
section
/-! DEFINITION. The stubs and the reserved codes (spec/46_unimplemented.md): in `noop` mode the operand
is read and nothing is done with it, in `refuse` mode they are refused when executed (log 5). -/

namespace Sys2Proof.Machine

/-- A stub: refused at the Execute entry in `refuse` mode; in `noop` mode, and when its operand has come,
an operand read and nothing more (R290, R291; spec/42_sequencer.md R181, R183). -/
def stubInstr (addr : Address) (s : State) : Result :=
  match s.phase, s.stubMode with
  | .awaitMem .execWithOperand, _ => .next (executeComplete s)
  | _, .noop => memRead addr .execWithOperand s
  | _, .refuse => .refused (.unimplemented s.cop)

/-- M, Multiply (R290). -/
def execM (addr : Address) (s : State) : Result := stubInstr addr s

/-- DIV, Divide (R290). -/
def execDiv (addr : Address) (s : State) : Result := stubInstr addr s

/-- FAD, Floating Add (R290). -/
def execFad (addr : Address) (s : State) : Result := stubInstr addr s

/-- FSU, Floating Subtract (R290). -/
def execFsu (addr : Address) (s : State) : Result := stubInstr addr s

/-- FM, Floating Multiply (R290). -/
def execFm (addr : Address) (s : State) : Result := stubInstr addr s

/-- FDIV, Floating Divide (R290). -/
def execFdiv (addr : Address) (s : State) : Result := stubInstr addr s

/-- A reserved code of the operand class, executed (R293). -/
def execReservedOperand (s : State) : Result :=
  match s.reservedMode with
  | .noop => memRead s.caddr .execWithOperand s
  | .refuse => .refused (.reserved s.cop)

/-- A reserved code of the non-operand class, executed (R293). -/
def execReservedNonOperand (s : State) : Result :=
  match s.reservedMode with
  | .noop => .next (executeComplete s)
  | .refuse => .refused (.reserved s.cop)

end Sys2Proof.Machine
end

