-- ==== Sys2Proof/Machine/Dispatch.lean ====
section
/-! DEFINITION. The dispatch: one arm per constructor, each one call of its meaning
(spec/42_sequencer.md R182, R183). In phase AwaitMem the meaning is the instruction's second half, run by
the successor; in any other phase its first. -/

namespace Sys2Proof.Machine

open Sys2Proof

def exec (i : Instr) (s : State) : Host.Outcome State Fault Refusal :=
  match i with
  | .cira addr => Sys2Proof.Machine.execCira addr s
  | .stc addr => Sys2Proof.Machine.execStc addr s
  | .cnz addr => Sys2Proof.Machine.execCnz addr s
  | .stop _ _ => Sys2Proof.Machine.execStop s
  | .st addr => Sys2Proof.Machine.execSt addr s
  | .sr addr => Sys2Proof.Machine.execSr addr s
  | .sl addr => Sys2Proof.Machine.execSl addr s
  | .nor addr => Sys2Proof.Machine.execNor addr s
  | .adsc _ => Sys2Proof.Machine.execAdsc s
  | .susc _ => Sys2Proof.Machine.execSusc s
  | .cu addr => Sys2Proof.Machine.execCu addr s
  | .cur addr => Sys2Proof.Machine.execCur addr s
  | .db addr => Sys2Proof.Machine.execDb addr s
  | .cc addr => Sys2Proof.Machine.execCc addr s
  | .ccr addr => Sys2Proof.Machine.execCcr addr s
  | .ib _ => Sys2Proof.Machine.execIb s
  | .m addr => Sys2Proof.Machine.execM addr s
  | .div addr => Sys2Proof.Machine.execDiv addr s
  | .ex addr => Sys2Proof.Machine.execEx addr s
  | .ad addr => Sys2Proof.Machine.execAd addr s
  | .su addr => Sys2Proof.Machine.execSu addr s
  | .cad addr => Sys2Proof.Machine.execCad addr s
  | .csu addr => Sys2Proof.Machine.execCsu addr s
  | .fad addr => Sys2Proof.Machine.execFad addr s
  | .fsu addr => Sys2Proof.Machine.execFsu addr s
  | .fm addr => Sys2Proof.Machine.execFm addr s
  | .fdiv addr => Sys2Proof.Machine.execFdiv addr s
  | .ada addr => Sys2Proof.Machine.execAda addr s
  | .sua addr => Sys2Proof.Machine.execSua addr s
  | .cada addr => Sys2Proof.Machine.execCada addr s
  | .csua addr => Sys2Proof.Machine.execCsua addr s

end Sys2Proof.Machine
end

