-- ==== Sys2Proof/Machine/Sequencer.lean ====
section
/-! DEFINITION. The fetch/execute state machine: the processor's step, the drum's completion
(spec/42_sequencer.md R170-R205). -/

namespace Sys2Proof.Machine

/-! ### Fetch (R173-R178) -/

/-- `fetch()`: the word at the control address is read (R173). -/
def fetch (s : State) : Result :=
  let t := decompose s
  memRead t.ccontrol .fetchComplete t

/-- The breakpoint digit of the fetched word meets the mask; bit 0 takes no part (R174). -/
def breakpointMatches (s : State) : Bool :=
  decide (signDigitOf s.d &&& s.sw.bkptMask &&& 0b1110#4 ≠ 0#4)

/-- The breakpoint test of `fetchComplete` (R174). -/
def testBreakpoint (s : State) : State :=
  if breakpointMatches s then { s with togBKPT := true } else s

/-- The sum of B-modification: B added to the six order and address digits, the carry out dropped
(R176). -/
def modificationSum (low6 : Nat) (b : Address) : Pass := bcdAddN low6 b.toNat 6 false

/-- `transferDtoC()`: the order and address digits of D, B-modified when bit 40 of D asks for it, and the
advanced control address go into C (R175, R176). -/
def transferDtoC (s : State) : State :=
  let low6 := s.d.toNat % 2 ^ 24
  let modified := modificationSum low6 s.b
  let modify := signBit s.d
  let advanced := bcdAddN s.ccontrol.toNat 0x0001 4 false
  let newLow := if modify then packDigits modified.digits else low6
  let newC : Word := BitVec.ofNat 44
    (2 ^ 40 * (signDigitOf s.d).toNat + 2 ^ 24 * packDigits advanced.digits + newLow)
  let t := raiseIf advanced.fc .forbidden (raiseIf (modify && modified.fc) .forbidden s)
  { t with c := newC, cop := copOf newC }

/-- The end of `fetchComplete`: only `togCST` halts here (R178). -/
def endFetch (s : State) : State :=
  let t := setTiming false s
  if t.togCST then halt t else { t with phase := .running }

/-- `fetchComplete()` (R174, R175, R178). -/
def fetchComplete (s : State) : State := endFetch (transferDtoC (testBreakpoint s))

/-! ### Execute (R179-R183) -/

/-- A fault is pending and the order is not one that consumes it: neither STOP, whose test comes first,
nor the CC class (R180; spec/30_encoding.md R97). -/
def faultPending (s : State) : Bool :=
  !isStopOrder s.cop && (s.stopOverflow || s.stopForbidden) && !isConditionalOrder s.opcodes s.cop

/-- The Execute entry of a decomposed state: the pending fault halts without performing the operation
(R180); otherwise the order is dispatched (R181, R182). -/
def dispatchOrder (s : State) : Result :=
  if faultPending s then .next (executeComplete { s with togCST := true })
  else
    match decodeClass s.opcodes s.cop s.caddr with
    | .instr i => exec i s
    | .reservedOperand => execReservedOperand s
    | .reservedNonOperand => execReservedNonOperand s

/-- `execute()` (R179). -/
def execute (s : State) : Result := dispatchOrder (decompose s)

/-- `executeWithOperand()`, with the operand in D: the operand-class instruction is performed; a reserved
code, or an instruction that awaits no operand, does nothing (R183; log 27). -/
def executeWithOperand (s : State) : Result :=
  match decodeClass s.opcodes s.cop s.caddr with
  | .instr i => if i.operandClass then exec i s else .next (executeComplete s)
  | .reservedOperand => .next (executeComplete s)
  | .reservedNonOperand => .next (executeComplete s)

/-! ### The steps of the processor and of the drum (R170, R171, R202) -/

/-- `ProcessorStep` (R171, R172). -/
def processorStep (s : State) : Result :=
  if s.togCST then .next (halt s)
  else if s.togTiming then fetch s
  else execute s

/-- The halt that the host's `step` left to this completion (spec/47_scheduler.md R315; log 17). -/
def takeStepHalt (s : State) : State :=
  if s.stepHalt then
    if s.phase = .running then halt { s with stepHalt := false } else { s with stepHalt := false }
  else s

/-- The successor of the access that has completed (R202). -/
def runSuccessor (k : Successor) (s : State) : Result :=
  match k with
  | .fetchComplete => .next (fetchComplete s)
  | .execWithOperand => executeWithOperand s
  | .storeComplete clear => .next (storeComplete clear s)

/-- The drum's completion step (R202). -/
def completion (k : Successor) (s : State) : Result :=
  onNext takeStepHalt (runSuccessor k (accessArrives s))

/-- The step of the enabled one of processor and drum; a halted machine has none and stays as it is
(R170; spec/60_exceptions.md R345; log 14). -/
def agentStep (s : State) : Result :=
  match s.phase with
  | .idle => .next s
  | .running => processorStep (drawDisplay s)
  | .awaitMem k => completion k (drawDisplay s)
  | .awaitIO _ => .fault .hungSuccessor

/-- The state in which the very next step of the processor executes the word `w`: the instruction is in
C with `togTiming = 0`, as spec/70_reset_and_hazards.md R363 lets the host give it, and the machine runs
as after `start`. The control address stays (R91), and `COP` is the word's order (spec/10_state.md R23; log 18). -/
def placeInstruction (w : Word) (s : State) : State :=
  { restart s with
    c := buildWord (signDigitOf w) s.ccontrol (copOf w) (addressOf w)
    cop := copOf w
    togTiming := false
    stepHalt := false
    refused := false
    turns := [] }

end Sys2Proof.Machine
end

