-- ==== Sys2Proof/Machine/Scheduler.lean ====
section
/-! DEFINITION. The host's console operations and the scheduler's slices (spec/47_scheduler.md). No
architectural result depends on the scheduler (R306). -/

namespace Sys2Proof.Machine

/-! ### The slice (R305) -/

/-- What the step of the enabled agent is charged as (R305; log 10). -/
def activityOf (s : State) : Activity :=
  match s.phase with
  | .awaitMem _ => .access s.latency
  | _ =>
    if s.togCST then .halt
    else if s.togTiming then .fetch
    else .execute (copOf s.c)

/-- The processor or the drum is enabled (spec/42_sequencer.md R170). -/
def agentEnabled (s : State) : Bool :=
  match s.phase with
  | .running => true
  | .awaitMem _ => true
  | .idle => false
  | .awaitIO _ => false

/-- The loop of `runSlice`: steps until the budget is used or no agent is enabled, answering the cycles
charged. Every activity costs a cycle, so `fuel` no smaller than the budget never runs out (log 10). -/
def sliceLoop : (fuel cycles : Nat) → State → Host.Outcome (Nat × State) Fault Refusal
  | 0, cycles, s => .next (cycles, s)
  | fuel + 1, cycles, s =>
    if agentEnabled s = true ∧ cycles < Config.cycleBudget then
      match agentStep s with
      | .next t => sliceLoop fuel (cycles + Config.cycleCost (activityOf s)) t
      | .fault e => .fault e
      | .refused e => .refused e
    else .next (cycles, s)

/-- `runSlice()` (R305). -/
def runSlice (s : State) : Result :=
  match sliceLoop Config.cycleBudget 0 s with
  | .next (cycles, t) =>
    .next { t with sched := { t.sched with totalCycles := t.sched.totalCycles + cycles } }
  | .fault e => .fault e
  | .refused e => .refused e

/-! ### The timer's call (R304) -/

/-- An exponentially weighted moving average (R304). -/
def ewma (average decay sample : Rat) : Rat := average * decay + sample * (1 - decay)

/-- The delay asked of the timer after a slice (R304). -/
def delayAfter (totalCycles : Nat) (rate runTime : Rat) : Rat := max 0 ((totalCycles : Rat) / rate - runTime)

/-- The entry of `schedule`: the token is used up and the slack averaged (R304). -/
def scheduleEntry (s : State) : State :=
  let t := readClock s
  let slack := (t.hostTime - t.sched.lastSlice) - t.sched.nextDelay
  { t with sched := { t.sched with
      token := none
      avgSlack := ewma t.sched.avgSlack Config.slackDecay slack } }

/-- The end of `schedule` after a slice begun at `now`: the run time averaged, and the next call asked for
unless the processor halted in the slice (R304). -/
def scheduleExit (now : Rat) (s : State) : State :=
  let t := readClock s
  let after := t.hostTime
  let runTime := t.sched.runTime + (after - t.sched.runStamp)
  let sched := { t.sched with
    avgRun := ewma t.sched.avgRun Config.runDecay (after - now)
    runTime := runTime
    runStamp := after }
  if t.stopIdle then { t with sched := { sched with busy := false } }
  else
    let delay := delayAfter sched.totalCycles Config.cyclesPerMs runTime
    { t with sched := { sched with
        nextDelay := delay
        lastSlice := after
        token := some ⟨after + delay⟩ } }

/-- `schedule()` (R304). -/
def schedule (s : State) : Result :=
  let t := scheduleEntry s
  if !t.sched.busy || t.stopIdle then .next { t with sched := { t.sched with busy := false } }
  else onNext (scheduleExit t.hostTime) (runSlice t)

/-- The host timer fires: the pending call runs, no earlier than its time; with no token there is none
(R300; log 29). -/
def timerFires (s : State) : Result :=
  match s.sched.token with
  | none => .next s
  | some token => schedule { s with hostTime := max s.hostTime token.due }

/-! ### The console operations (R301, R302, R313-R315) -/

/-- `start()` from `Idle` (R301). DESIGN CHOICE (log 29): a call of `schedule` still pending from an earlier
run, which R301 overwrites without a cancel, is dropped. -/
def startRun (s : State) : State :=
  let t := readClock (restart s)
  { t with sched := { t.sched with
      totalCycles := 0
      runTime := 0
      runStamp := t.hostTime
      lastSlice := t.hostTime
      nextDelay := 0
      busy := true
      token := some ⟨t.hostTime⟩ } }

/-- `stop()`: the halt request, taken at once when the processor is between half-steps (R302). DESIGN CHOICE
(log 32): in `Idle` too every write of R302's pseudocode is made, where the table of R309 says "sets
`togCST` only". The clock is read twice (log 23). -/
def stopRun (s : State) : State :=
  let first := readClock { s with togCST := true }
  let second := readClock first
  let t := { second with sched := { second.sched with
      token := none
      busy := false
      runTime := second.sched.runTime + (first.hostTime - second.sched.runStamp)
      runStamp := second.hostTime } }
  if t.phase = .running then halt t else t

/-- The toggles that `clear` and `clearControl` reset, and to what (R313, R314). -/
def clearToggles (s : State) : State :=
  { s with
    togCOMPL := false
    togSIGN := false
    ct := false
    togADDER := false
    togCLEAR := false
    togDPCTR := false
    stopOverflow := false
    stopForbidden := false
    stopControl := false
    togCST := false
    togBKPT := false
    togTiming := true
    stopIdle := true }

/-- `clear()`, the console Clear (R313). DESIGN CHOICE (log 29): a call of `schedule` still pending, whose
token R313 clears without the cancel that R302 names, is dropped. -/
def clearAll (s : State) : State :=
  let t := clearToggles s
  { t with
    a := 0#44
    b := 0#16
    c := 0#44
    d := 0#44
    r := 0#40
    special := 0#16
    cop := 0#8
    sched := { t.sched with busy := false, token := none } }

/-- `step()`: one slice, after which the processor halts, at once or at the end of the access in progress
(R315; log 17). -/
def stepRun (s : State) : Result :=
  onNext
    (fun t =>
      let u :=
        match t.phase with
        | .running => halt t
        | .awaitMem _ => { t with stepHalt := true }
        | _ => t
      { u with sched := { u.sched with busy := false } })
    (runSlice (restart s))

/-- An operation enabled only in `Idle`; elsewhere it does nothing (R309). -/
def whenIdle (s : State) (perform : Result) : Result :=
  if s.phase = .idle then perform else .next s

/-- A run is admitted only with the skip switch off (spec/10_state.md R38; log 20). -/
def admitted (s : State) (perform : Result) : Result :=
  if s.sw.skip then .refused .skipSwitchOn else perform

/-- A console operation of the host (R309). -/
def hostOperation (op : HostOp) (s : State) : Result :=
  match op with
  | .start => whenIdle s (admitted s (.next (startRun s)))
  | .stop => .next (stopRun s)
  | .step => whenIdle s (admitted s (stepRun s))
  | .clear => whenIdle s (.next (clearAll s))
  | .clearControl => whenIdle s (.next (clearToggles s))

/-- One step of the block: the agent whose turn it is moves; a refused state has no step (R170, R201;
spec/10_state.md R37; log 13). -/
def blockStep (s : State) : Result :=
  if s.refused then .refused .alreadyRefused
  else
    match s.turns with
    | [] => agentStep s
    | .agent :: rest => agentStep { s with turns := rest }
    | .timer :: rest => timerFires { s with turns := rest }
    | .host op :: rest => hostOperation op { s with turns := rest }

end Sys2Proof.Machine
end

