-- ==== Sys2Proof/Machine/Codec.lean ====
section
/-! DEFINITION. The word/field codec (spec/40_field_codec.md R120-R130): pure primitives on values
below 2^53. Each total function is the rule's pseudocode; the checked form beside it refuses arguments
outside the stated domain (R128). -/

namespace Sys2Proof.Machine

/-- The stated domain of a bit position (R120). -/
def codecBitOk (bit : Nat) : Bool := decide (bit ≤ 52)

/-- The stated domain of a field (R125). -/
def codecFieldOk (start width : Nat) : Bool := decide (start ≤ 52) && decide (width ≤ start + 1)

/-- `bitTest` (R121). -/
def bitTest (word : CodecValue) (bit : Nat) : Nat := word.toNat / 2 ^ bit % 2

/-- `bitSet` (R122). -/
def bitSet (word : CodecValue) (bit : Nat) : CodecValue := word ||| BitVec.ofNat 53 (2 ^ bit)

/-- `bitReset` (R123). -/
def bitReset (word : CodecValue) (bit : Nat) : CodecValue := word &&& ~~~(BitVec.ofNat 53 (2 ^ bit))

/-- `bitFlip` (R124). -/
def bitFlip (word : CodecValue) (bit : Nat) : CodecValue := word ^^^ BitVec.ofNat 53 (2 ^ bit)

/-- The lowest bit of the field of `width` bits ending at `start` (R125). -/
def fieldLow (start width : Nat) : Nat := start + 1 - width

/-- `fieldIsolate` (R125). -/
def fieldIsolate (word : CodecValue) (start width : Nat) : Nat :=
  word.toNat / 2 ^ fieldLow start width % 2 ^ width

/-- `fieldInsert` (R126): bits of `value` above the field are dropped. -/
def fieldInsert (word : CodecValue) (start width value : Nat) : CodecValue :=
  BitVec.ofNat 53
    (word.toNat - fieldIsolate word start width * 2 ^ fieldLow start width
      + value % 2 ^ width * 2 ^ fieldLow start width)

/-- `fieldTransfer` (R127). -/
def fieldTransfer (word : CodecValue) (wstart width : Nat) (value : CodecValue) (vstart : Nat) :
    CodecValue :=
  fieldInsert word wstart width (fieldIsolate value vstart width)

/-- A codec call, refused outside its domain (R128). -/
def codecCall {α : Type} (ok : Bool) (answer : α) : Except Refusal α :=
  if ok then .ok answer else .error .codecRange

/-- `bitTest`, refused out of range. -/
def bitTestChecked (word : CodecValue) (bit : Nat) : Except Refusal Nat :=
  codecCall (codecBitOk bit) (bitTest word bit)

/-- `bitSet`, refused out of range. -/
def bitSetChecked (word : CodecValue) (bit : Nat) : Except Refusal CodecValue :=
  codecCall (codecBitOk bit) (bitSet word bit)

/-- `bitReset`, refused out of range. -/
def bitResetChecked (word : CodecValue) (bit : Nat) : Except Refusal CodecValue :=
  codecCall (codecBitOk bit) (bitReset word bit)

/-- `bitFlip`, refused out of range. -/
def bitFlipChecked (word : CodecValue) (bit : Nat) : Except Refusal CodecValue :=
  codecCall (codecBitOk bit) (bitFlip word bit)

/-- `fieldIsolate`, refused out of range. -/
def fieldIsolateChecked (word : CodecValue) (start width : Nat) : Except Refusal Nat :=
  codecCall (codecFieldOk start width) (fieldIsolate word start width)

/-- `fieldInsert`, refused out of range. -/
def fieldInsertChecked (word : CodecValue) (start width value : Nat) : Except Refusal CodecValue :=
  codecCall (codecFieldOk start width) (fieldInsert word start width value)

/-- `fieldTransfer`, refused out of range. -/
def fieldTransferChecked (word : CodecValue) (wstart width : Nat) (value : CodecValue) (vstart : Nat) :
    Except Refusal CodecValue :=
  codecCall (codecFieldOk wstart width && codecFieldOk vstart width)
    (fieldTransfer word wstart width value vstart)

/-- A 44-bit word as a codec value, bits 52-44 zero (R120). -/
def toCodec (w : Word) : CodecValue := w.setWidth 53

end Sys2Proof.Machine
end

