-- ==== Sys2Proof/WellFormed.lean ====
section
/-! DEFINITION. Well-formed instructions: those whose operand digits the spec gives a value
(spec/20_memory.md R61, spec/30_encoding.md R94). An ill-formed one still decodes, and is refused
when it is executed. -/

namespace Sys2Proof

/-- The four address digits are decimal, so the address has a value (R61). -/
def addressWellFormed (addr : Address) : Bool := allDecimal (digitsOf 4 addr.toNat)

/-- The two low address digits are decimal, so the count has a value (R94). -/
def countWellFormed (addr : Address) : Bool := allDecimal (digitsOf 2 addr.toNat)

/-- Operand reads and stores need a decimal address, shifts and circulate a decimal count; a branch
target is copied without decoding (R93), and the other instructions ignore their address. -/
def Instr.wellFormed : Instr → Bool
  | .cira addr => countWellFormed addr
  | .stc addr => addressWellFormed addr
  | .cnz _ => true
  | .stop _ _ => true
  | .st addr => addressWellFormed addr
  | .sr addr => countWellFormed addr
  | .sl addr => countWellFormed addr
  | .nor _ => true
  | .adsc _ => true
  | .susc _ => true
  | .cu _ => true
  | .cur _ => true
  | .db _ => true
  | .cc _ => true
  | .ccr _ => true
  | .ib _ => true
  | .m addr => addressWellFormed addr
  | .div addr => addressWellFormed addr
  | .ex addr => addressWellFormed addr
  | .ad addr => addressWellFormed addr
  | .su addr => addressWellFormed addr
  | .cad addr => addressWellFormed addr
  | .csu addr => addressWellFormed addr
  | .fad addr => addressWellFormed addr
  | .fsu addr => addressWellFormed addr
  | .fm addr => addressWellFormed addr
  | .fdiv addr => addressWellFormed addr
  | .ada addr => addressWellFormed addr
  | .sua addr => addressWellFormed addr
  | .cada addr => addressWellFormed addr
  | .csua addr => addressWellFormed addr

end Sys2Proof
end

