-- ==== Sys2Proof/Safety.lean ====
section
/-! DEFINITION. The terms in which claims about the machine are made: values of words, the end of an
Execute, the invariant of the block, what of a state a program's result is, and the cycles of a run. -/

namespace Sys2Proof.Machine

/-! ### Values of words (spec/41_decimal_adder.md R152) -/

/-- Every digit of a word is decimal, the sign digit too. -/
def validWord (w : Word) : Bool := allDecimal (digitsOf 11 w.toNat)

/-- The number the ten magnitude digits spell. -/
def magnitudeValue (w : Word) : Nat := decimalValue (digitsOf 10 w.toNat)

/-- The signed decimal value of a word: bit 40 set is negative. -/
def signedValue (w : Word) : Int := if signBit w then -(magnitudeValue w : Int) else magnitudeValue w

/-- The number four BCD digits spell. -/
def addressValue (x : Address) : Nat := decimalValue (digitsOf 4 x.toNat)

/-- Four digits are decimal. -/
def validAddress (x : Address) : Bool := allDecimal (digitsOf 4 x.toNat)

/-- Nibble `k` of a number, `k` from 0. -/
def nibble (x k : Nat) : Nat := x / 16 ^ k % 16

/-- `r` has the digit-step sum of the `n` low digits of `x` and `y`, and `cout` is the carry out of the
last: a position with a forbidden nibble gives digit 0 and no carry, any other the decimal sum of its
digits and the carry into it (spec/41_decimal_adder.md R140, R151). -/
def digitwiseSum (n x y r : Nat) (cout : Bool) : Prop :=
  ∃ carry : Nat → Nat, carry 0 = 0 ∧ (cout = true ↔ carry n = 1) ∧
    ∀ k < n,
      (9 < nibble x k ∨ 9 < nibble y k → nibble r k = 0 ∧ carry (k + 1) = 0) ∧
      (nibble x k ≤ 9 → nibble y k ≤ 9 → nibble r k ≤ 9 ∧ carry (k + 1) ≤ 1 ∧
        nibble r k + 10 * carry (k + 1) = nibble x k + nibble y k + carry k)

/-- A fetched word asks for B-modification, and a digit of its order or address or of B exceeds 9
(spec/42_sequencer.md R176). -/
def modificationForbidden (w : Word) (b : Address) : Bool :=
  signBit w && !(allDecimal (digitsOf 6 w.toNat) && validAddress b)

/-! ### Frames -/

/-- `s` but for the fields that the end of an Execute writes, which are `t`'s (spec/42_sequencer.md R195,
R196). -/
def withEndOf (s t : State) : State :=
  { s with
    togTiming := t.togTiming
    togBKPT := t.togBKPT
    stopIdle := t.stopIdle
    phase := t.phase }

/-- `s` but for the fields that an adder operation writes besides A and its own toggles: the three
unspecified toggles, the draws they take, and the toggles of its events (spec/41_decimal_adder.md R147,
R150; spec/43_arithmetic.md R221). -/
def withEventsOf (s t : State) : State :=
  { s with
    togADDER := t.togADDER
    togCLEAR := t.togCLEAR
    togDPCTR := t.togDPCTR
    draws := t.draws
    stopOverflow := t.stopOverflow
    stopForbidden := t.stopForbidden
    togCST := t.togCST }

/-- `s` but for the fields that issuing an access writes besides D and memory (spec/20_memory.md R64,
R65). -/
def withIssueOf (s t : State) : State :=
  { s with hostTime := t.hostTime, draws := t.draws, latency := t.latency, phase := t.phase }

/-- `t` has issued an access of `loc`: its latency is that of `loc` at the clock's reading, `t.hostTime`, no
earlier than the latest reading of `s` (spec/20_memory.md R64, R65, R67). -/
def samplesLatency (loc : Location) (s t : State) : Prop :=
  t.latency = drumLatency loc t.hostTime Config.wordsPerMs ∧ s.hostTime ≤ t.hostTime

/-- Every word of memory reads the same in both. -/
def sameWords (s t : State) : Prop := ∀ loc, t.read loc = s.read loc

/-- The fields of C but CCONTROL are the same in both words (spec/10_state.md R22). -/
def sameInstruction (c c' : Word) : Prop :=
  signDigitOf c' = signDigitOf c ∧ copOf c' = copOf c ∧ addressOf c' = addressOf c

/-- `t` is at the end of an Execute begun in `s`: the Timing toggle, the breakpoint and the halt tests
are as `executeComplete` makes them (spec/42_sequencer.md R195, R196). -/
def endsExecute (s t : State) : Prop :=
  t.togTiming = (if s.sw.lockNormal = .normal then true else s.togTiming) ∧
  t.togBKPT = false ∧
  (if s.togBKPT = true ∨ s.sw.stepMode = .step ∨ t.togCST = true then
    t.phase = .idle ∧ t.stopIdle = true
  else t.phase = .running ∧ t.stopIdle = s.stopIdle)

/-! ### The invariant -/

/-- The orders whose operator injects a Change Conditionally: CNZ, NOR and DB (spec/42_sequencer.md
R190). -/
def isInjectingOrder (m : OpcodeMap) (order : Order) : Bool :=
  order == m.cnz || order == m.nor || order == m.db

/-- What holds of the machine at every step. -/
structure State.Inv (s : State) : Prop where
  /-- Memory is in canonical form: each listed word exists, once (spec/20_memory.md R60; log 2). -/
  memory : s.mem.wf = true
  /-- `stopIdle` says that the processor is halted (spec/10_state.md R30, R35). -/
  idle : s.stopIdle = true ↔ s.phase = .idle
  /-- The cached order departs from C only by the injected Change Conditionally (spec/10_state.md R23). -/
  order : s.cop = copOf s.c ∨ (s.cop = s.opcodes.cc ∧ isInjectingOrder s.opcodes (copOf s.c) = true)
  /-- No I/O operation is outstanding (spec/46_unimplemented.md R292). -/
  noIO : ∀ k, s.phase ≠ .awaitIO k
  /-- An operand is awaited only by an operand-class order (spec/42_sequencer.md R181). -/
  operand : s.phase = .awaitMem .execWithOperand → isOperandOrder s.cop = true
  /-- A halt is left to a completion only while an access is outstanding (spec/47_scheduler.md R315;
  log 17). -/
  latched : s.stepHalt = true → ∃ k, s.phase = .awaitMem k
  /-- The opcode map gives every row a code of its own and of its class (spec/30_encoding.md R96; log 12). -/
  map : s.opcodes.wf = true

/-- The machine runs on its own: no turn of the host is to come, and the state is not marked refused. -/
def freeRunning (s : State) : Prop := s.turns = [] ∧ s.refused = false

/-! ### Results -/

/-- The part of a state that a program's result is: all of it but the clock, the latency, the scheduler
and the toggles the spec leaves unspecified (spec/47_scheduler.md R306; spec/10_state.md R29, R34). -/
def results (s : State) : State :=
  { s with
    hostTime := 0
    latency := 0
    sched := Scheduler.atLaunch
    draws := 0
    togADDER := false
    togCLEAR := false
    togDPCTR := false
    dispLoop := false
    dispWrite := false }

/-- The two outcomes are of one kind, with the same reason, and their next states have the same
results. -/
def sameResults : Result → Result → Prop
  | .next s, .next t => results s = results t
  | .fault e, .fault e' => e = e'
  | .refused e, .refused e' => e = e'
  | .next _, .fault _ => False
  | .next _, .refused _ => False
  | .fault _, .next _ => False
  | .fault _, .refused _ => False
  | .refused _, .next _ => False
  | .refused _, .fault _ => False

/-! ### Runs -/

/-- The cycles charged for the first `n` steps of the run from `s`: each step its activity's cost
(spec/47_scheduler.md R305; log 10). -/
def runCycles : (n : Nat) → State → Nat
  | 0, _ => 0
  | n + 1, s =>
    match step s with
    | .next t => Config.cycleCost (activityOf s) + runCycles n t
    | .fault _ => 0
    | .refused _ => 0

/-- Step `m` of the run from `s` is begun with an agent enabled and the cycle budget not used by the steps
before it (spec/47_scheduler.md R305). -/
def beginsWithinBudget (m : Nat) (s : State) : Prop :=
  runCycles m s < Config.cycleBudget ∧ ∃ t, core.run m s = .next t ∧ agentEnabled t = true

/-- The end of a run: halted (spec/42_sequencer.md R204). -/
def halted (s : State) : Prop := s.phase = .idle ∧ s.stopIdle = true

/-- A halted run that no fault ended, and no STOP: the stop toggles of R331 are clear. -/
def haltedWithoutFault (s : State) : Prop :=
  halted s ∧ s.stopOverflow = false ∧ s.stopForbidden = false ∧ s.stopControl = false

/-- A step is safe when it goes on: it neither faults nor is refused. -/
def stepIsSafe (s : State) : Prop := ∃ t, step s = .next t

end Sys2Proof.Machine
end

