-- ==== Sys2Proof/Certificates/Slice0/Obligations.lean ====
section
/-! DEFINITION. The statements for the provers, from the numbered rules of spec/. A statement whose basis
is the model's own choice says so in its docstring. -/

open Sys2Proof Sys2Proof.Machine

/-! ### Encoding (spec/30_encoding.md) -/

/-- Decode and encode agree: by every opcode map that gives each row a code of its own and of its class,
an encoded instruction word, with any sign digit and any ignored digits, decodes to itself (R90, R96,
R98). -/
def Obligations.DecodeWordInvertsEncodeWord : Prop :=
  ∀ m : OpcodeMap, m.wf = true → ∀ x : InstrWord, decodeWord m (encodeWord m x) = some x

/-- Every word that decodes, by any opcode map, is the encoding of what it decodes to: no bit is dropped
(R90, R96, R98). -/
def Obligations.EncodeWordInvertsDecodeWord : Prop :=
  ∀ (m : OpcodeMap) (w : Word) (x : InstrWord), decodeWord m w = some x → encodeWord m x = w

/-- The STOP family is decoded first, whatever the opcode map; by every map that gives each row a code of
its own and of its class, a code of a row is that row's instruction, and the reserved codes are exactly
those of no instruction, split at 0x60 (R95, R96, R98, R99). -/
def Obligations.DecodeClassPartitionsTheCodes : Prop :=
  ∀ (m : OpcodeMap) (cop : Order) (addr : Address),
    (cop &&& 0xF8#8 = 0x08#8 → ∃ low, decodeClass m cop addr = .instr (.stop low addr)) ∧
    (m.wf = true →
      (∀ i, decodeClass m cop addr = .instr i ↔ encodeOrder m i = cop ∧ encodeAddress i = addr) ∧
      (decodeClass m cop addr = .reservedOperand ↔ (∀ i, encodeOrder m i ≠ cop) ∧ 0x60 ≤ cop.toNat) ∧
      (decodeClass m cop addr = .reservedNonOperand ↔
        (∀ i, encodeOrder m i ≠ cop) ∧ cop.toNat < 0x60))

/-- Words written out in the spec decode to the instructions they stand for (R101 and the programs of
spec/95_test_vectors.md). The codes are the spec's default map (log 12). -/
def Obligations.SpecWordsDecodeToTheirInstructions : Prop :=
  decodeWord OpcodeMap.default 0x00000740100#44 = some ⟨0#4, 0#16, .ad 0x0100#16⟩ ∧
  decodeWord OpcodeMap.default 0x10000760100#44 = some ⟨1#4, 0#16, .cad 0x0100#16⟩ ∧
  decodeWord OpcodeMap.default 0x00000080000#44 = some ⟨0#4, 0#16, .stop 0#3 0x0000#16⟩ ∧
  decodeWord OpcodeMap.default 0x00000220020#44 = some ⟨0#4, 0#16, .db 0x0020#16⟩ ∧
  decodeWord OpcodeMap.default 0x00000150080#44 = some ⟨0#4, 0#16, .nor 0x0080#16⟩ ∧
  decodeWord OpcodeMap.default 0x00042020102#44 = some ⟨0#4, 0x0042#16, .stc 0x0102#16⟩ ∧
  decodeWord OpcodeMap.default 0x00000600100#44 = some ⟨0#4, 0#16, .m 0x0100#16⟩ ∧
  decodeWord OpcodeMap.default 0x00000000000#44 = none

/-! ### The codec (spec/40_field_codec.md) -/

/-- The round-trip law of the field operations (R129). -/
def Obligations.InsertOfIsolatedFieldIsIdentity : Prop :=
  ∀ (word : CodecValue) (start width : Nat), width ≤ start + 1 →
    fieldInsert word start width (fieldIsolate word start width) = word

/-- An inserted field reads back as the value's low bits, and every bit outside it stays (R125, R126); a
transferred one reads back as the other value's field, and every bit outside it stays (R127). -/
def Obligations.InsertReplacesExactlyTheField : Prop :=
  (∀ (word : CodecValue) (start width value : Nat), start ≤ 52 → width ≤ start + 1 →
    fieldIsolate (fieldInsert word start width value) start width = value % 2 ^ width ∧
    ∀ bit, bit ≤ 52 → (bit < fieldLow start width ∨ start < bit) →
      bitTest (fieldInsert word start width value) bit = bitTest word bit) ∧
  (∀ (word value : CodecValue) (wstart vstart width : Nat), wstart ≤ 52 → width ≤ wstart + 1 →
    vstart ≤ 52 → width ≤ vstart + 1 →
    fieldIsolate (fieldTransfer word wstart width value vstart) wstart width =
      fieldIsolate value vstart width ∧
    ∀ bit, bit ≤ 52 → (bit < fieldLow wstart width ∨ wstart < bit) →
      bitTest (fieldTransfer word wstart width value vstart) bit = bitTest word bit)

/-- Setting, resetting and flipping a bit change that bit alone (R121-R124). -/
def Obligations.BitOperationsTouchOneBit : Prop :=
  ∀ (word : CodecValue) (bit other : Nat), bit ≤ 52 → other ≤ 52 →
    bitTest (bitSet word bit) other = (if other = bit then 1 else bitTest word other) ∧
    bitTest (bitReset word bit) other = (if other = bit then 0 else bitTest word other) ∧
    bitTest (bitFlip word bit) other = (if other = bit then 1 - bitTest word other else bitTest word other)

/-- The views the state machine takes of a word are the codec's fields (R130), and the operand forms of an
addition are the codec's writes: `neg` flips bit 40, `abs` and `negabs` put 0 and 1 in the sign digit, of
every word, valid or not (R153). -/
def Obligations.ViewsAreCodecFields : Prop :=
  ∀ w : Word,
    (copOf w).toNat = fieldIsolate (toCodec w) 23 8 ∧
    (addressOf w).toNat = fieldIsolate (toCodec w) 15 16 ∧
    (controlOf w).toNat = fieldIsolate (toCodec w) 39 16 ∧
    (signDigitOf w).toNat = fieldIsolate (toCodec w) 43 4 ∧
    (signBit w).toNat = bitTest (toCodec w) 40 ∧
    (∀ k, 1 ≤ k → k ≤ 11 → digit w k = fieldIsolate (toCodec w) (4 * k - 1) 4) ∧
    toCodec (negWord w) = bitFlip (toCodec w) 40 ∧
    toCodec (absWord w) = fieldInsert (toCodec w) 43 4 0 ∧
    toCodec (negAbsWord w) = fieldInsert (toCodec w) 43 4 1

/-- Codec calls answer their primitive on the whole of the stated ranges (R120, R125) and are refused outside
them (R128). -/
def Obligations.CodecCallsAnswerExactlyInRange : Prop :=
  (∀ (word : CodecValue) (bit : Nat), bit ≤ 52 →
    bitTestChecked word bit = .ok (bitTest word bit) ∧ bitSetChecked word bit = .ok (bitSet word bit) ∧
    bitResetChecked word bit = .ok (bitReset word bit) ∧
    bitFlipChecked word bit = .ok (bitFlip word bit)) ∧
  (∀ (word value : CodecValue) (start width v other : Nat),
    start ≤ 52 → width ≤ start + 1 → other ≤ 52 → width ≤ other + 1 →
    fieldIsolateChecked word start width = .ok (fieldIsolate word start width) ∧
    fieldInsertChecked word start width v = .ok (fieldInsert word start width v) ∧
    fieldTransferChecked word start width value other = .ok (fieldTransfer word start width value other)) ∧
  (∀ (word : CodecValue) (bit : Nat), 52 < bit →
    bitTestChecked word bit = .error .codecRange ∧ bitSetChecked word bit = .error .codecRange ∧
    bitResetChecked word bit = .error .codecRange ∧ bitFlipChecked word bit = .error .codecRange) ∧
  (∀ (word value : CodecValue) (start width v other : Nat), 52 < start ∨ start + 1 < width →
    fieldIsolateChecked word start width = .error .codecRange ∧
    fieldInsertChecked word start width v = .error .codecRange ∧
    fieldTransferChecked word start width value other = .error .codecRange ∧
    fieldTransferChecked word other width value start = .error .codecRange)

/-! ### The decimal adder (spec/41_decimal_adder.md) -/

/-- The correctness law: on valid words `serialAdd` is integer addition of signed decimals; where the
magnitude does not fit in ten digits it overflows, keeping the operands' sign and the low ten digits; a
zero result has the addend's sign (R152). -/
def Obligations.SerialAddIsSignedDecimalAddition : Prop :=
  ∀ a d : Word, validWord a = true → validWord d = true →
    validWord (serialAdd a d).sum = true ∧
    ((serialAdd a d).ovf = true ↔ 9999999999 < (signedValue a + signedValue d).natAbs) ∧
    ((serialAdd a d).ovf = false → signedValue (serialAdd a d).sum = signedValue a + signedValue d) ∧
    ((serialAdd a d).ovf = true →
      signBit a = signBit d ∧ signBit (serialAdd a d).sum = signBit a ∧
      magnitudeValue (serialAdd a d).sum = (signedValue a + signedValue d).natAbs - 10 ^ 10) ∧
    (signedValue a + signedValue d = 0 → signBit (serialAdd a d).sum = signBit d)

/-- `serialAdd` of any two words, digit by digit. Complement mode is the XOR of the signs. In the main pass a
position with a forbidden nibble gives 0 and no carry, and any other the decimal sum of the addend's digit,
the augend's digit or its nine's complement, and the carry into it; position 11 gives the top digit. At a top
digit of 9 a second pass takes the ten's complement of these digits and flips the result's sign, which starts
as the addend's. The sum holds the ten digits of the last pass and the sign, 0 or 1, in its sign digit; CT is
the carry out of position 11 of that pass, and a top digit of 1 is the Overflow (R141-R147). The top digit is
0, 1 or 9, so the adder's assertion never fires (R148). -/
def Obligations.AdderPassesDigitByDigit : Prop :=
  ∀ a d : Word,
    (serialAdd a d).compl = (signBit a ^^ signBit d) ∧
    (serialAdd a d).sign = (signBit d ^^ decide ((serialAdd a d).top = 9)) ∧
    ((serialAdd a d).ovf = true ↔ (serialAdd a d).top = 1) ∧
    digit (serialAdd a d).sum 11 = (serialAdd a d).sign.toNat ∧
    (∃ main carry : Nat → Nat, carry 1 = (serialAdd a d).compl.toNat ∧
      (∀ k, 1 ≤ k → k ≤ 10 →
        (9 < digit a k ∨ 9 < digit d k → main k = 0 ∧ carry (k + 1) = 0) ∧
        (digit a k ≤ 9 → digit d k ≤ 9 → main k ≤ 9 ∧ carry (k + 1) ≤ 1 ∧
          main k + 10 * carry (k + 1) =
            (if (serialAdd a d).compl = true then 9 - digit a k else digit a k) + digit d k + carry k)) ∧
      main 11 = (serialAdd a d).top ∧ main 11 ≤ 9 ∧ carry 12 ≤ 1 ∧
      main 11 + 10 * carry 12 = (if (serialAdd a d).compl = true then 9 else 0) + carry 11 ∧
      ((serialAdd a d).top ≠ 9 →
        (∀ k, 1 ≤ k → k ≤ 10 → digit (serialAdd a d).sum k = main k) ∧
        ((serialAdd a d).ct = true ↔ carry 12 = 1)) ∧
      ((serialAdd a d).top = 9 → ∃ again carry' : Nat → Nat, carry' 1 = 1 ∧
        (∀ k, 1 ≤ k → k ≤ 11 → again k ≤ 9 ∧ carry' (k + 1) ≤ 1 ∧
          again k + 10 * carry' (k + 1) = (9 - main k) + carry' k) ∧
        (∀ k, 1 ≤ k → k ≤ 10 → digit (serialAdd a d).sum k = again k) ∧
        ((serialAdd a d).ct = true ↔ carry' 12 = 1))) ∧
    ((serialAdd a d).top = 0 ∨ (serialAdd a d).top = 1 ∨ (serialAdd a d).top = 9) ∧
    ∀ s : State, addIntoA a d s = .next (recordSum (serialAdd a d) s)

/-- The adder reports a Forbidden Combination exactly when one of the 22 nibbles of its operands exceeds
9, in an addition and in an extract (R143, R150). -/
def Obligations.ForbiddenExactlyWhenANibbleExceedsNine : Prop :=
  ∀ a d : Word,
    ((serialAdd a d).fc = true ↔ ∃ k, 1 ≤ k ∧ k ≤ 11 ∧ (9 < digit a k ∨ 9 < digit d k)) ∧
    ((serialExtract a d).fc = true ↔ ∃ k, 1 ≤ k ∧ k ≤ 11 ∧ (9 < digit a k ∨ 9 < digit d k))

/-- An extract puts every even pattern digit in place of the value digit, dropping the carry into it, and
adds every odd one, less its low bit, with the carry; a forbidden nibble gives 0 and no carry; the carry
out of digit 10 is the Overflow and none enters or leaves the sign digit. With a valid value and a pattern
of 0s and 1s it keeps the digits under 1 and zeroes those under 0, without overflow (R149, R150). -/
def Obligations.ExtractReplacesAndMasks : Prop :=
  ∀ a d : Word,
    (∃ carry : Nat → Nat, carry 1 = 0 ∧ ((serialExtract a d).ovf = true ↔ carry 11 = 1) ∧
      ∀ k, 1 ≤ k → k ≤ 10 →
        (9 < digit a k ∨ 9 < digit d k →
          digit (serialExtract a d).merged k = 0 ∧ carry (k + 1) = 0) ∧
        (digit a k ≤ 9 → digit d k ≤ 9 → digit d k % 2 = 0 →
          digit (serialExtract a d).merged k = digit d k ∧ carry (k + 1) = 0) ∧
        (digit a k ≤ 9 → digit d k ≤ 9 → digit d k % 2 = 1 →
          digit (serialExtract a d).merged k ≤ 9 ∧ carry (k + 1) ≤ 1 ∧
          digit (serialExtract a d).merged k + 10 * carry (k + 1) =
            digit a k + (digit d k - 1) + carry k)) ∧
    (9 < digit a 11 ∨ 9 < digit d 11 → digit (serialExtract a d).merged 11 = 0) ∧
    (digit a 11 ≤ 9 → digit d 11 ≤ 9 →
      digit (serialExtract a d).merged 11 =
        if digit d 11 % 2 = 0 then digit d 11 else (digit a 11 + (digit d 11 - 1)) % 10) ∧
    (validWord a = true → (∀ k, 1 ≤ k → k ≤ 11 → digit d k ≤ 1) →
      (serialExtract a d).ovf = false ∧
      ∀ k, 1 ≤ k → k ≤ 11 →
        digit (serialExtract a d).merged k = if digit d k = 1 then digit a k else 0)

/-- The unsigned add of decimal digits is decimal addition, its carry the part above `n` digits (R151). -/
def Obligations.UnsignedAddIsDecimalAddition : Prop :=
  ∀ (n x y : Nat) (cin : Bool),
    allDecimal (digitsOf n x) = true → allDecimal (digitsOf n y) = true →
    (bcdAddN x y n cin).fc = false ∧
    (bcdAddN x y n cin).digits.length = n ∧
    allDecimal (bcdAddN x y n cin).digits = true ∧
    decimalValue (bcdAddN x y n cin).digits + 10 ^ n * (bcdAddN x y n cin).carry.toNat =
      decimalValue (digitsOf n x) + decimalValue (digitsOf n y) + cin.toNat

/-! ### Memory and the drum (spec/20_memory.md) -/

/-- A decimal address reaches main memory or the loop of its thousand, modulo 8000 and with the loop's
words repeating; any other is refused, for a read and for a store (R61, R62). -/
def Obligations.AddressesReachTheirWords : Prop :=
  ∀ x : Address,
    (validAddress x = true →
      ∃ loc, decodeAddress x = some loc ∧
        (addressValue x % 8000 < 4000 → loc.key = addressValue x % 8000) ∧
        (4000 ≤ addressValue x % 8000 →
          loc.key = 1000 * (addressValue x % 8000 / 1000) + addressValue x % 8000 % 20)) ∧
    (validAddress x = false →
      ∀ (k : Successor) (clear : Bool) (s : State),
        memRead x k s = .refused .nonDecimalAddress ∧ memWrite x clear s = .refused .nonDecimalAddress)

/-- A stored word is in memory from the step that issues the store, and no other word changes: every later
read of its location, by a fetch too, samples it into D for as long as that location holds it (R65,
R76). -/
def Obligations.StoredWordIsSeenByEveryLaterRead : Prop :=
  ∀ (x : Address) (clear : Bool) (s t : State) (loc : Location),
    decodeAddress x = some loc → memWrite x clear s = .next t →
    (∀ other, other ≠ loc → t.read other = s.read other) ∧
    ∀ (u : State) (y : Address) (k : Successor), u.read loc = t.read loc → decodeAddress y = some loc →
      ∃ v, memRead y k u = .next v ∧ v.d = s.a

/-- A revolution has 200 words in main memory and 20 in a loop, the slot under the heads is the clock's count
of words modulo the revolution, and the latency lies within a revolution and brings that slot to the word's
(R67). -/
def Obligations.DrumLatencyReachesTheSlot : Prop :=
  ∀ (loc : Location) (now rate : Rat),
    drumPeriod loc = (if loc.key < 4000 then 200 else 20) ∧
    (currentSlot (drumPeriod loc) now rate : Int) = (now * rate).floor % (drumPeriod loc : Int) ∧
    currentSlot (drumPeriod loc) now rate < drumPeriod loc ∧
    drumLatency loc now rate < drumPeriod loc ∧
    (currentSlot (drumPeriod loc) now rate + drumLatency loc now rate) % drumPeriod loc =
      loc.key % drumPeriod loc

/-! ### Arithmetic instructions (spec/43_arithmetic.md) -/

/-- The first half of every arithmetic instruction of the operand class: the operand is read into D and
awaited, with the latency of its location at the clock's reading; nothing else changes but what the issue
of an access writes (R64, R67, R181). -/
def Obligations.OperandInstructionsReadTheirOperand : Prop :=
  ∀ (addr : Address) (s : State) (loc : Location), s.phase ≠ .awaitMem .execWithOperand →
    decodeAddress addr = some loc →
    ∀ i ∈ [Instr.ad addr, .su addr, .cad addr, .csu addr, .ada addr, .sua addr, .cada addr,
        .csua addr, .ex addr],
      ∃ t, exec i s = .next t ∧ t.d = s.read loc ∧ t.phase = .awaitMem .execWithOperand ∧
        samplesLatency loc s t ∧ t = { withIssueOf s t with d := t.d } ∧ sameWords s t

/-- The second half of the signed additions, for every word in A and D, forbidden nibbles included: the
sum of the rule's operand forms is in A, the adder's toggles and events are recorded, the Execute ends,
and nothing else changes (R210-R217, R221). -/
def Obligations.AdderInstructionsRecordTheirSum : Prop :=
  ∀ (addr : Address) (s : State), s.phase = .awaitMem .execWithOperand →
    ∀ c ∈ [(Instr.ad addr, serialAdd s.a s.d), (.su addr, serialAdd s.a (negWord s.d)),
        (.cad addr, serialAdd 0#44 s.d), (.csu addr, serialAdd 0#44 (negWord s.d)),
        (.ada addr, serialAdd s.a (absWord s.d)), (.sua addr, serialAdd s.a (negAbsWord s.d)),
        (.cada addr, serialAdd 0#44 (absWord s.d)), (.csua addr, serialAdd 0#44 (negAbsWord s.d))],
      ∃ t, exec c.1 s = .next t ∧
        t.a = c.2.sum ∧ t.togCOMPL = c.2.compl ∧ t.togSIGN = c.2.sign ∧ t.ct = c.2.ct ∧
        t.stopOverflow = (c.2.ovf || s.stopOverflow) ∧
        t.stopForbidden = (c.2.fc || s.stopForbidden) ∧ t.togCST = (c.2.fc || s.togCST) ∧
        t = { withEventsOf (withEndOf s t) t with
              a := t.a, togCOMPL := t.togCOMPL, togSIGN := t.togSIGN, ct := t.ct } ∧
        endsExecute s t ∧ sameWords s t

/-- ADSC and SUSC, whatever A and the special counter hold: the sum with `+SPECIAL` or `-SPECIAL` is in A
with its toggles and events, and nothing else changes (R219, R220, R221). -/
def Obligations.SpecialCounterInstructionsRecordTheirSum : Prop :=
  ∀ (addr : Address) (s : State),
    ∀ c ∈ [(Instr.adsc addr, serialAdd s.a (BitVec.ofNat 44 s.special.toNat)),
        (.susc addr, serialAdd s.a (BitVec.ofNat 44 (2 ^ 40 + s.special.toNat)))],
      ∃ t, exec c.1 s = .next t ∧
        t.a = c.2.sum ∧ t.togCOMPL = c.2.compl ∧ t.togSIGN = c.2.sign ∧ t.ct = c.2.ct ∧
        t.stopOverflow = (c.2.ovf || s.stopOverflow) ∧
        t.stopForbidden = (c.2.fc || s.stopForbidden) ∧ t.togCST = (c.2.fc || s.togCST) ∧
        t = { withEventsOf (withEndOf s t) t with
              a := t.a, togCOMPL := t.togCOMPL, togSIGN := t.togSIGN, ct := t.ct } ∧
        endsExecute s t ∧ sameWords s t

/-- The second half of EX, for every word in A and D: the merged digits are in A, the events are recorded,
and the adder's record of an addition is kept (R218, R221). -/
def Obligations.ExtractMergesIntoA : Prop :=
  ∀ (addr : Address) (s : State), s.phase = .awaitMem .execWithOperand →
    ∃ t, exec (.ex addr) s = .next t ∧ t.a = (serialExtract s.a s.d).merged ∧
      t.stopOverflow = ((serialExtract s.a s.d).ovf || s.stopOverflow) ∧
      t.stopForbidden = ((serialExtract s.a s.d).fc || s.stopForbidden) ∧
      t.togCST = ((serialExtract s.a s.d).fc || s.togCST) ∧
      t = { withEventsOf (withEndOf s t) t with a := t.a } ∧ endsExecute s t ∧ sameWords s t

/-- On valid words every arithmetic instruction computes its signed decimal result, absolute forms
included, once its operand has come, and ADSC and SUSC whatever D and the phase; past ten digits it keeps
the low ten and sets Overflow (R152, R210-R217, R219, R220). -/
def Obligations.ArithmeticComputesSignedDecimals : Prop :=
  ∀ (addr : Address) (s : State) (c : Instr × Int), validWord s.a = true →
    (s.phase = .awaitMem .execWithOperand ∧ validWord s.d = true ∧
        c ∈ [(Instr.ad addr, signedValue s.a + signedValue s.d),
          (.su addr, signedValue s.a - signedValue s.d),
          (.cad addr, signedValue s.d), (.csu addr, - signedValue s.d),
          (.ada addr, signedValue s.a + magnitudeValue s.d),
          (.sua addr, signedValue s.a - magnitudeValue s.d),
          (.cada addr, (magnitudeValue s.d : Int)), (.csua addr, -(magnitudeValue s.d : Int))] ∨
      validAddress s.special = true ∧
        c ∈ [(Instr.adsc addr, signedValue s.a + addressValue s.special),
          (.susc addr, signedValue s.a - addressValue s.special)]) →
      ∃ t, exec c.1 s = .next t ∧ validWord t.a = true ∧ t.stopForbidden = s.stopForbidden ∧
        (c.2.natAbs ≤ 9999999999 → signedValue t.a = c.2 ∧ t.stopOverflow = s.stopOverflow) ∧
        (9999999999 < c.2.natAbs →
          magnitudeValue t.a = c.2.natAbs - 10 ^ 10 ∧ t.stopOverflow = true)

/-! ### Stubs and reserved codes (spec/46_unimplemented.md) -/

/-- The stubs with `STUB_MODE = noop`: the operand is read into D with the latency of its location, and when
it has come nothing is done and the Execute ends (R64, R290, R291). The mode is a parameter of the spec; log 5
says which one reset has. -/
def Obligations.StubsReadTheirOperandAndDoNothing : Prop :=
  ∀ (addr : Address) (s : State),
    ∀ i ∈ [Instr.m addr, .div addr, .fad addr, .fsu addr, .fm addr, .fdiv addr],
      (s.phase = .awaitMem .execWithOperand →
        ∃ t, exec i s = .next t ∧ t = withEndOf s t ∧ endsExecute s t ∧ sameWords s t) ∧
      (s.phase ≠ .awaitMem .execWithOperand → s.stubMode = .noop →
        ∀ loc, decodeAddress addr = some loc →
          ∃ t, exec i s = .next t ∧ t.d = s.read loc ∧ t.phase = .awaitMem .execWithOperand ∧
            samplesLatency loc s t ∧ t = { withIssueOf s t with d := t.d } ∧ sameWords s t)

/-- The stubs with `STUB_MODE = refuse` are refused when executed, with their order (R290). -/
def Obligations.StubsAreRefusedInRefuseMode : Prop :=
  ∀ (addr : Address) (s : State), s.phase = .running → s.stubMode = .refuse →
    ∀ i ∈ [Instr.m addr, .div addr, .fad addr, .fsu addr, .fm addr, .fdiv addr],
      exec i s = .refused (.unimplemented s.cop)

/-- A reserved code executed: refused with its order, or, in `noop` mode, the end of an Execute below 0x60 and
from 0x60 an operand read, with the latency of its location (R64, R293); when an operand has come for it, the
end of the Execute (R183), below 0x60 too, where no run awaits one and the model's choice is log 27's. -/
def Obligations.ReservedCodesFollowReservedMode : Prop :=
  ∀ s : State, faultPending s = false → decodeOrder s.opcodes s.cop s.caddr = none →
    (s.reservedMode = .refuse → dispatchOrder s = .refused (.reserved s.cop)) ∧
    (s.reservedMode = .noop → s.cop.toNat < 0x60 →
      ∃ t, dispatchOrder s = .next t ∧ t = withEndOf s t ∧ endsExecute s t) ∧
    (s.reservedMode = .noop → 0x60 ≤ s.cop.toNat → ∀ loc, decodeAddress s.caddr = some loc →
      ∃ t, dispatchOrder s = .next t ∧ t.d = s.read loc ∧ t.phase = .awaitMem .execWithOperand ∧
        samplesLatency loc s t ∧ t = { withIssueOf s t with d := t.d }) ∧
    (∃ t, executeWithOperand s = .next t ∧ t = withEndOf s t ∧ endsExecute s t)

/-! ### Control instructions (spec/44_control.md) -/

/-- STOP, with any order of its family and in every state: the Control fault, and the halt (R240). -/
def Obligations.StopHaltsWithControlFault : Prop :=
  ∀ (low : BitVec 3) (addr : Address) (s : State),
    ∃ t, exec (.stop low addr) s = .next t ∧ t.phase = .idle ∧ t.stopIdle = true ∧
      t = { withEndOf s t with stopControl := true, togCST := true } ∧
      endsExecute s t ∧ sameWords s t

/-- CU and CUR copy their target into CCONTROL without decoding it; CUR records the return address in the
low four digits of R (R242, R243). -/
def Obligations.UnconditionalBranchesSetControl : Prop :=
  ∀ (addr : Address) (s : State),
    (∃ t, exec (.cu addr) s = .next t ∧ t.ccontrol = addr ∧ sameInstruction s.c t.c ∧
      t = { withEndOf s t with c := t.c } ∧ endsExecute s t ∧ sameWords s t) ∧
    (∃ t, exec (.cur addr) s = .next t ∧ t.ccontrol = addr ∧ sameInstruction s.c t.c ∧
      t.r.extractLsb' 0 16 = s.ccontrol ∧ t.r.extractLsb' 16 24 = s.r.extractLsb' 16 24 ∧
      t = { withEndOf s t with c := t.c, r := t.r } ∧ endsExecute s t ∧ sameWords s t)

/-- CC and CCR branch and clear Overflow when it is set and do nothing otherwise; CCR records the return
address in R when the branch is taken, and only then. Both are let through the Execute entry whatever
fault is pending (R180, R245, R246). -/
def Obligations.ConditionalBranchesConsumeOverflow : Prop :=
  ∀ (addr : Address) (s : State),
    (∃ t, exec (.cc addr) s = .next t ∧ t.stopOverflow = false ∧
      (s.stopOverflow = true → t.ccontrol = addr ∧ sameInstruction s.c t.c) ∧
      (s.stopOverflow = false → t.c = s.c) ∧
      t = { withEndOf s t with c := t.c, stopOverflow := false } ∧
      endsExecute s t ∧ sameWords s t) ∧
    (∃ t, exec (.ccr addr) s = .next t ∧ t.stopOverflow = false ∧
      (s.stopOverflow = true → t.ccontrol = addr ∧ sameInstruction s.c t.c ∧
        t.r.extractLsb' 0 16 = s.ccontrol ∧ t.r.extractLsb' 16 24 = s.r.extractLsb' 16 24) ∧
      (s.stopOverflow = false → t.c = s.c ∧ t.r = s.r) ∧
      t = { withEndOf s t with c := t.c, r := t.r, stopOverflow := false } ∧
      endsExecute s t ∧ sameWords s t) ∧
    (copOf s.c = s.opcodes.cc ∨ copOf s.c = s.opcodes.ccr → faultPending (decompose s) = false)

/-- CNZ branches when a magnitude digit of A is not zero, by an injected Change Conditionally that
rewrites the cached order alone and leaves no Overflow; otherwise it does nothing (R190, R248). -/
def Obligations.ChangeOnNonZeroTestsMagnitude : Prop :=
  ∀ (addr : Address) (s : State),
    ∃ t, exec (.cnz addr) s = .next t ∧
      (s.a.toNat % 2 ^ 40 ≠ 0 →
        t.ccontrol = addr ∧ sameInstruction s.c t.c ∧ t.cop = s.opcodes.cc ∧ t.stopOverflow = false) ∧
      (s.a.toNat % 2 ^ 40 = 0 → t.c = s.c ∧ t.cop = s.cop ∧ t.stopOverflow = s.stopOverflow) ∧
      t = { withEndOf s t with c := t.c, cop := t.cop, stopOverflow := t.stopOverflow } ∧
      endsExecute s t ∧ sameWords s t

/-- DB adds 9999 to B, digit by digit, and branches exactly when a carry leaves the fourth digit: a decimal
B is decreased, branching while it was not zero and wrapping to 9999 without a branch. A non-decimal B
raises the Forbidden Combination, its forbidden digits becoming 0 with no carry (R190, R250). -/
def Obligations.DecreaseBCountsDownAndBranches : Prop :=
  ∀ (addr : Address) (s : State),
    ∃ t, exec (.db addr) s = .next t ∧
      (∃ carry, digitwiseSum 4 s.b.toNat 0x9999 t.b.toNat carry ∧
        (carry = true → t.ccontrol = addr ∧ sameInstruction s.c t.c ∧ t.cop = s.opcodes.cc ∧
          t.stopOverflow = false) ∧
        (carry = false → t.c = s.c ∧ t.cop = s.cop ∧ t.stopOverflow = s.stopOverflow)) ∧
      (validAddress s.b = true → validAddress t.b = true ∧
        t.stopForbidden = s.stopForbidden ∧ t.togCST = s.togCST) ∧
      (validAddress s.b = true → addressValue s.b ≠ 0 →
        addressValue t.b + 1 = addressValue s.b ∧ t.ccontrol = addr ∧ sameInstruction s.c t.c ∧
        t.cop = s.opcodes.cc ∧ t.stopOverflow = false) ∧
      (validAddress s.b = true → addressValue s.b = 0 →
        addressValue t.b = 9999 ∧ t.c = s.c ∧ t.cop = s.cop ∧ t.stopOverflow = s.stopOverflow) ∧
      (validAddress s.b = false → t.stopForbidden = true ∧ t.togCST = true) ∧
      t = { withEndOf s t with
            b := t.b, c := t.c, cop := t.cop, stopOverflow := t.stopOverflow,
            stopForbidden := t.stopForbidden, togCST := t.togCST } ∧
      endsExecute s t ∧ sameWords s t

/-- IB adds 1 to B, digit by digit, without a branch: a decimal B is increased modulo 10000. A non-decimal
B raises the Forbidden Combination, its forbidden digits becoming 0 with no carry (R252). -/
def Obligations.IncreaseBCountsUp : Prop :=
  ∀ (addr : Address) (s : State),
    ∃ t, exec (.ib addr) s = .next t ∧
      (∃ carry, digitwiseSum 4 s.b.toNat 0x0001 t.b.toNat carry) ∧
      (validAddress s.b = true → validAddress t.b = true ∧
        addressValue t.b = (addressValue s.b + 1) % 10000 ∧
        t.stopForbidden = s.stopForbidden ∧ t.togCST = s.togCST) ∧
      (validAddress s.b = false → t.stopForbidden = true ∧ t.togCST = true) ∧
      t = { withEndOf s t with
            b := t.b, stopForbidden := t.stopForbidden, togCST := t.togCST } ∧
      endsExecute s t ∧ sameWords s t

/-! ### Shifts, normalize and stores (spec/45_shift_store.md) -/

/-- SR and SL move the twenty digits of A's magnitude and R by the decimal count, digits leaving an end
being lost and zeros entering; A's sign digit stays. A count with a nibble above 9 is refused (R94, R270,
R271). -/
def Obligations.ShiftsMoveTheTwentyDigits : Prop :=
  ∀ (addr : Address) (s : State),
    (allDecimal (digitsOf 2 addr.toNat) = true →
      (∃ t, exec (.sr addr) s = .next t ∧ signDigitOf t.a = signDigitOf s.a ∧
        2 ^ 40 * (magnitude t.a).toNat + t.r.toNat =
          (2 ^ 40 * (magnitude s.a).toNat + s.r.toNat) / 16 ^ decimalValue (digitsOf 2 addr.toNat) ∧
        t = { withEndOf s t with a := t.a, r := t.r } ∧ endsExecute s t ∧ sameWords s t) ∧
      (∃ t, exec (.sl addr) s = .next t ∧ signDigitOf t.a = signDigitOf s.a ∧
        2 ^ 40 * (magnitude t.a).toNat + t.r.toNat =
          (2 ^ 40 * (magnitude s.a).toNat + s.r.toNat) * 16 ^ decimalValue (digitsOf 2 addr.toNat)
            % 2 ^ 80 ∧
        t = { withEndOf s t with a := t.a, r := t.r } ∧ endsExecute s t ∧ sameWords s t)) ∧
    (allDecimal (digitsOf 2 addr.toNat) = false →
      exec (.sr addr) s = .refused .nonDecimalCount ∧ exec (.sl addr) s = .refused .nonDecimalCount)

/-- CIRA rotates A's ten magnitude digits left by the decimal count modulo 10; the sign digit and R stay.
A count with a nibble above 9 is refused (R94, R272). -/
def Obligations.CirculateRotatesTheMagnitude : Prop :=
  ∀ (addr : Address) (s : State),
    (allDecimal (digitsOf 2 addr.toNat) = true →
      ∃ t, exec (.cira addr) s = .next t ∧ signDigitOf t.a = signDigitOf s.a ∧
        (magnitude t.a).toNat =
          ((magnitude s.a).toNat * 16 ^ (decimalValue (digitsOf 2 addr.toNat) % 10) +
            (magnitude s.a).toNat / 16 ^ (10 - decimalValue (digitsOf 2 addr.toNat) % 10)) % 2 ^ 40 ∧
        t = { withEndOf s t with a := t.a } ∧ endsExecute s t ∧ sameWords s t) ∧
    (allDecimal (digitsOf 2 addr.toNat) = false →
      exec (.cira addr) s = .refused .nonDecimalCount)

/-- Every access whose address has a nibble above 9 is refused (R61): an operand read or a store, by every
instruction that makes one; the operand read of a reserved code from 0x60 in `noop` mode (R293); and the
Fetch at such a control address (R173), by the step itself. -/
def Obligations.NonDecimalAddressesAreRefused : Prop :=
  (∀ (addr : Address) (s : State), s.phase = .running → validAddress addr = false →
    (∀ i ∈ [Instr.ad addr, .su addr, .cad addr, .csu addr, .ada addr, .sua addr, .cada addr,
        .csua addr, .ex addr, .st addr, .stc addr],
      exec i s = .refused .nonDecimalAddress) ∧
    (s.stubMode = .noop →
      ∀ i ∈ [Instr.m addr, .div addr, .fad addr, .fsu addr, .fm addr, .fdiv addr],
        exec i s = .refused .nonDecimalAddress)) ∧
  (∀ s : State, faultPending s = false → decodeOrder s.opcodes s.cop s.caddr = none →
    s.reservedMode = .noop → 0x60 ≤ s.cop.toNat → validAddress s.caddr = false →
    dispatchOrder s = .refused .nonDecimalAddress) ∧
  (∀ s : State, freeRunning s → s.phase = .running → s.togCST = false → s.togTiming = true →
    validAddress s.ccontrol = false → step s = .refused .nonDecimalAddress)

/-- NOR branches on a zero magnitude of A; otherwise it shifts A:R left, by the fewest digits and losing
none, until A's top digit is not zero, and the number of digits, at most 9, goes to SPECIAL (R190,
R273). -/
def Obligations.NormalizeShiftsOrBranches : Prop :=
  ∀ (addr : Address) (s : State),
    ∃ t, exec (.nor addr) s = .next t ∧
      (magnitude s.a = 0#40 →
        t.ccontrol = addr ∧ sameInstruction s.c t.c ∧ t.cop = s.opcodes.cc ∧ t.stopOverflow = false ∧
        t.a = s.a ∧ t.r = s.r ∧ t.special = s.special) ∧
      (magnitude s.a ≠ 0#40 →
        t.c = s.c ∧ t.cop = s.cop ∧ t.stopOverflow = s.stopOverflow ∧
        signDigitOf t.a = signDigitOf s.a ∧ 16 ^ 9 ≤ (magnitude t.a).toNat ∧
        ∃ n, n ≤ 9 ∧ t.special.toNat = n ∧
          2 ^ 40 * (magnitude t.a).toNat + t.r.toNat =
            (2 ^ 40 * (magnitude s.a).toNat + s.r.toNat) * 16 ^ n) ∧
      t = { withEndOf s t with
            a := t.a, c := t.c, r := t.r, special := t.special, cop := t.cop,
            stopOverflow := t.stopOverflow } ∧
      endsExecute s t ∧ sameWords s t

/-- ST and STC store A at their address when they are issued: that word reads as A, every other word as
before, the latency is that of the location at the clock's reading, and only what issuing an access writes
changes besides (R65, R67, R284, R285). -/
def Obligations.StoresWriteExactlyTheirWord : Prop :=
  ∀ (addr : Address) (s : State) (loc : Location),
    (∀ clear, s.phase ≠ .awaitMem (.storeComplete clear)) → decodeAddress addr = some loc →
    ∀ c ∈ [(Instr.st addr, false), (.stc addr, true)],
      ∃ t, exec c.1 s = .next t ∧ t.read loc = s.a ∧
        (∀ other, other ≠ loc → t.read other = s.read other) ∧
        t.phase = .awaitMem (.storeComplete c.2) ∧ samplesLatency loc s t ∧
        t = { withIssueOf s t with mem := t.mem }

/-- The completion of a store, by the instruction and by the drum's successor alike: A is cleared, sign
digit included, if the store asked for it, and the Execute ends (R202, R284, R285). -/
def Obligations.StoresCompleteByEndingTheExecute : Prop :=
  ∀ (addr : Address) (clear : Bool) (s : State), s.phase = .awaitMem (.storeComplete clear) →
    ∃ t, exec (.st addr) s = .next t ∧ exec (.stc addr) s = .next t ∧
      runSuccessor (.storeComplete clear) s = .next t ∧
      t.a = (if clear then 0#44 else s.a) ∧
      t = { withEndOf s t with a := t.a } ∧ endsExecute s t ∧ sameWords s t

/-! ### The sequencer (spec/42_sequencer.md) -/

/-- A step runs the decoded instruction: in an Execute, with no fault pending that it does not consume,
the step is `exec` of the instruction in C, on the state whose display toggles are drawn and whose cached
order is C's; of a word that decodes to nothing it is the reserved code's, of the operand class from 0x60
(R171, R179-R182, R293). Whatever the word and the faults, it is the Execute entry's dispatch. -/
def Obligations.StepRunsTheInstructionInC : Prop :=
  ∀ s : State, freeRunning s → s.phase = .running → s.togCST = false → s.togTiming = false →
    step s = dispatchOrder (decompose (drawDisplay s)) ∧
    (faultPending (decompose s) = false →
      (∀ i, decode s.opcodes s.c = some i → step s = exec i (decompose (drawDisplay s))) ∧
      (decode s.opcodes s.c = none → 0x60 ≤ (copOf s.c).toNat →
        step s = execReservedOperand (decompose (drawDisplay s))) ∧
      (decode s.opcodes s.c = none → (copOf s.c).toNat < 0x60 →
        step s = execReservedNonOperand (decompose (drawDisplay s))))

/-- When an access completes, the drum's step is that of its successor, whichever it is (R202), and when an
operand has come, `exec` of the operand-class instruction in C (R183), with the clock moved on by the access's
delay (`accessArrives`; the model's choice, log 8) and, if the host's `step` left a halt to this completion,
that halt taken after it (`takeStepHalt`; log 17). -/
def Obligations.CompletionRunsTheOperandInstruction : Prop :=
  (∀ (s : State) (k : Successor), freeRunning s → s.phase = .awaitMem k →
    step s = onNext takeStepHalt (runSuccessor k (accessArrives (drawDisplay s)))) ∧
  (∀ (s : State) (i : Instr), freeRunning s → s.phase = .awaitMem .execWithOperand →
    s.cop = copOf s.c → decode s.opcodes s.c = some i → i.operandClass = true →
    step s = onNext takeStepHalt (exec i (accessArrives (drawDisplay s))))

/-- An operand-class addition takes two steps, the issue, which samples the latency, and the completion,
after which A holds the sum with the word at the instruction's address (R64, R181, R183, R205, R210). -/
def Obligations.AddRunsInTwoSteps : Prop :=
  ∀ (s : State) (addr : Address) (loc : Location), freeRunning s → s.phase = .running →
    s.togCST = false → s.togTiming = false → s.stopOverflow = false → s.stopForbidden = false →
    s.stepHalt = false → decode s.opcodes s.c = some (.ad addr) → decodeAddress addr = some loc →
    ∃ t u, step s = .next t ∧ step t = .next u ∧
      t.a = s.a ∧ t.d = s.read loc ∧ t.phase = .awaitMem .execWithOperand ∧ samplesLatency loc s t ∧
      u.a = (serialAdd s.a (s.read loc)).sum ∧ u.d = s.read loc ∧ u.c = s.c ∧ u.b = s.b ∧
      u.r = s.r ∧ u.special = s.special ∧ sameWords s u ∧ endsExecute s u

/-- A Fetch takes two steps: the word at the control address is read into D, with the latency of its location
at the clock's reading (R64), and then its sign digit, and its order and address, with B added if bit 40 asks
for it, are in C with the control address advanced by one, 9999 wrapping to 0000. A digit above 9 met in
B-modification halts; otherwise the machine runs on (R173-R176, R178, R205). -/
def Obligations.FetchRunsInTwoSteps : Prop :=
  ∀ (s : State) (loc : Location), freeRunning s → s.phase = .running → s.togCST = false →
    s.togTiming = true → s.stepHalt = false → decodeAddress s.ccontrol = some loc →
    ∃ t u, step s = .next t ∧ step t = .next u ∧
      t.d = s.read loc ∧ t.phase = .awaitMem .fetchComplete ∧ t.c = s.c ∧ samplesLatency loc s t ∧
      u.d = s.read loc ∧ signDigitOf u.c = signDigitOf (s.read loc) ∧ u.cop = copOf u.c ∧
      (signBit (s.read loc) = false → sameInstruction (s.read loc) u.c) ∧
      (signBit (s.read loc) = true →
        ∃ carry, digitwiseSum 6 (s.read loc).toNat s.b.toNat u.c.toNat carry) ∧
      validAddress u.ccontrol = true ∧
      addressValue u.ccontrol = (addressValue s.ccontrol + 1) % 10000 ∧
      u.togBKPT = (s.togBKPT || decide (signDigitOf (s.read loc) &&& s.sw.bkptMask &&& 0b1110#4 ≠ 0#4)) ∧
      u.togTiming = (if s.sw.lockNormal = .normal then false else true) ∧
      (if modificationForbidden (s.read loc) s.b = true then
        u.phase = .idle ∧ u.stopIdle = true ∧ u.stopForbidden = true ∧ u.togCST = true
      else
        u.phase = .running ∧ u.stopIdle = s.stopIdle ∧ u.stopForbidden = s.stopForbidden ∧
          u.togCST = false) ∧
      u.a = s.a ∧ u.b = s.b ∧ u.r = s.r ∧ u.special = s.special ∧
      u.stopOverflow = s.stopOverflow ∧ u.stopControl = s.stopControl ∧ sameWords s u

/-- B-modification of decimal digits adds B to the six order and address digits as one decimal number,
the carry out of the sixth dropped: a carry out of the address changes the order (R176, R177). -/
def Obligations.BModificationAddsSixDigits : Prop :=
  ∀ s : State, signBit s.d = true → validAddress s.b = true →
    allDecimal (digitsOf 6 s.d.toNat) = true →
    allDecimal (digitsOf 6 (transferDtoC s).c.toNat) = true ∧
    decimalValue (digitsOf 6 (transferDtoC s).c.toNat) =
      (decimalValue (digitsOf 6 s.d.toNat) + addressValue s.b) % 1000000 ∧
    signDigitOf (transferDtoC s).c = signDigitOf s.d ∧
    (transferDtoC s).cop = copOf (transferDtoC s).c

/-- A Forbidden Combination met by a Fetch, in B-modification (a digit of B, or of the word's order or
address) or in the control increment, halts at the end of `fetchComplete` with the word in C: its sign
digit, its order and address, with B added if bit 40 asks for it, and the control address advanced, every
forbidden digit becoming 0 with no carry. Nothing else changes but the breakpoint and Timing toggles
(R174-R176, R178, R332). -/
def Obligations.ForbiddenInFetchHalts : Prop :=
  ∀ s : State, modificationForbidden s.d s.b = true ∨ validAddress s.ccontrol = false →
    ∃ t, fetchComplete s = t ∧
      signDigitOf t.c = signDigitOf s.d ∧ t.cop = copOf t.c ∧
      (signBit s.d = false → sameInstruction s.d t.c) ∧
      (signBit s.d = true → ∃ carry, digitwiseSum 6 s.d.toNat s.b.toNat t.c.toNat carry) ∧
      (∃ carry, digitwiseSum 4 s.ccontrol.toNat 0x0001 t.ccontrol.toNat carry) ∧
      t.togBKPT = (s.togBKPT || decide (signDigitOf s.d &&& s.sw.bkptMask &&& 0b1110#4 ≠ 0#4)) ∧
      t.togTiming = (if s.sw.lockNormal = .normal then false else s.togTiming) ∧
      t = { s with
            c := t.c, cop := t.cop, togBKPT := t.togBKPT, togTiming := t.togTiming,
            stopForbidden := true, togCST := true, stopIdle := true, phase := .idle }

/-- The Execute entry checks: a pending Overflow or Forbidden Combination halts without performing the
operation, unless the order is of the STOP family or of the CC class, which are performed (R180). -/
def Obligations.PendingFaultHaltsUnperformed : Prop :=
  ∀ s : State, freeRunning s → s.phase = .running → s.togCST = false → s.togTiming = false →
    (s.stopOverflow = true ∨ s.stopForbidden = true) →
    (copOf s.c &&& 0xF8#8 ≠ 0x08#8 → copOf s.c ≠ s.opcodes.cc → copOf s.c ≠ s.opcodes.ccr →
      ∃ t, step s = .next t ∧ t.togCST = true ∧ t.phase = .idle ∧ t.stopIdle = true ∧
        t = { withEndOf s t with
              togCST := true, cop := copOf s.c, dispLoop := t.dispLoop, dispWrite := t.dispWrite,
              draws := t.draws } ∧
        endsExecute s t ∧ sameWords s t) ∧
    (copOf s.c &&& 0xF8#8 = 0x08#8 ∨ copOf s.c = s.opcodes.cc ∨ copOf s.c = s.opcodes.ccr →
      ∃ i, decode s.opcodes s.c = some i ∧ step s = exec i (decompose (drawDisplay s)))

/-- The computer-stop toggle halts at the start of a processor step, before a Fetch or an Execute is begun
(R171, R172, R200). -/
def Obligations.HaltRequestIsTakenFirst : Prop :=
  ∀ s : State, freeRunning s → s.phase = .running → s.togCST = true →
    ∃ t, step s = .next t ∧ t = { s with
      stopIdle := true, phase := .idle, dispLoop := t.dispLoop, dispWrite := t.dispWrite,
      draws := t.draws }

/-- Under Normal every Fetch ends with Execute next and every Execute with Fetch next, branching or not;
under Lock the Timing toggle holds (R178, R195, R203). -/
def Obligations.TimingAlternatesUnderNormal : Prop :=
  ∀ s t : State, freeRunning s → step s = .next t →
    (s.sw.lockNormal = .lock → t.togTiming = s.togTiming) ∧
    (s.sw.lockNormal = .normal → s.phase = .awaitMem .fetchComplete → t.togTiming = false) ∧
    (s.sw.lockNormal = .normal → (s.phase = .awaitMem .execWithOperand ∨
      ∃ clear, s.phase = .awaitMem (.storeComplete clear)) → t.togTiming = true) ∧
    (s.sw.lockNormal = .normal → s.phase = .running → s.togCST = false → s.togTiming = false →
      (t.phase = .awaitMem .execWithOperand ∨ (∃ clear, t.phase = .awaitMem (.storeComplete clear)) ∨
        t.togTiming = true)) ∧
    (s.phase = .running → s.togCST = false → s.togTiming = true →
      t.phase = .awaitMem .fetchComplete ∧ t.togTiming = true)

/-! ### Faults and host operations (spec/60_exceptions.md, spec/47_scheduler.md, spec/10_state.md) -/

/-- Raising a fault sets the toggles that record its kind and nothing else: no transfer of control (R330,
R331). The halt sets the idle toggle and the phase and nothing else (R200). -/
def Obligations.FaultsSetOnlyTheirToggles : Prop :=
  ∀ s : State,
    raiseFault .forbidden s = { s with stopForbidden := true, togCST := true } ∧
    raiseFault .overflow s = { s with stopOverflow := true } ∧
    raiseFault .control s = { s with stopControl := true, togCST := true } ∧
    halt s = { s with stopIdle := true, phase := .idle }

/-- The state after reset has what the console Clear gives the registers and toggles and the launch the
rest: halted, not refused, the scheduler at rest (R313, R361). That reset is the launch state after a
Clear is the model's choice (log 3), and so is the rest position of the skip switch, a launch input, off
(log 4). -/
def Obligations.ResetIsTheClearedLaunch : Prop :=
  State.reset.a = 0#44 ∧ State.reset.b = 0#16 ∧ State.reset.c = 0#44 ∧ State.reset.d = 0#44 ∧
  State.reset.r = 0#40 ∧ State.reset.special = 0#16 ∧ State.reset.togTiming = true ∧
  State.reset.togCST = false ∧ State.reset.togBKPT = false ∧ State.reset.stopOverflow = false ∧
  State.reset.stopForbidden = false ∧ State.reset.stopControl = false ∧ State.reset.stopIdle = true ∧
  State.reset.togCOMPL = false ∧ State.reset.togSIGN = false ∧ State.reset.ct = false ∧
  State.reset.phase = .idle ∧ State.reset.refused = false ∧ State.reset.sw.skip = false ∧
  State.reset.sched.busy = false ∧ State.reset.sched.token = none ∧ State.reset.sched.totalCycles = 0 ∧
  clearAll State.reset = State.reset

/-- `start` from Idle clears the idle, fault and computer-stop toggles, enters Running and asks the timer
for a slice; no register, no memory word, no other toggle and no switch changes (R301). -/
def Obligations.StartResetsFaultsAndRuns : Prop :=
  ∀ s : State, s.phase = .idle → s.sw.skip = false →
    ∃ t, hostOperation .start s = .next t ∧
      t = { s with
            stopIdle := false, stopOverflow := false, stopForbidden := false, stopControl := false,
            togCST := false, phase := .running, sched := t.sched, hostTime := t.hostTime,
            draws := t.draws } ∧
      s.hostTime ≤ t.hostTime ∧ t.sched.busy = true ∧ t.sched.token = some ⟨t.hostTime⟩ ∧
      t.sched.totalCycles = 0 ∧ t.sched.runTime = 0 ∧ t.sched.runStamp = t.hostTime ∧
      t.sched.lastSlice = t.hostTime ∧ t.sched.nextDelay = 0 ∧
      t.sched.avgSlack = s.sched.avgSlack ∧ t.sched.avgRun = s.sched.avgRun

/-- `stop` sets the halt request, cancels the timer, ceases to be busy, brings the running time up to date
and ends a running processor at once; during an access it is latched, and the completion that follows halts;
nothing else of the scheduler changes (R302). That the timer, `busy` and the running time are written in
Idle too, where the table of R309 says "sets `togCST` only", is the model's choice (log 32), and so are the
two readings of the clock, one for `runTime` and a later one for `runStamp` (log 23). -/
def Obligations.StopIsTakenAtTheBoundary : Prop :=
  ∀ s : State,
    ∃ t, hostOperation .stop s = .next t ∧ t.togCST = true ∧ t.sched.busy = false ∧
      t.sched.token = none ∧
      (∃ first, s.hostTime ≤ first ∧ first ≤ t.hostTime ∧
        t.sched.runTime = s.sched.runTime + (first - s.sched.runStamp)) ∧
      t.sched.runStamp = t.hostTime ∧
      t = { s with
            togCST := true, stopIdle := t.stopIdle, phase := t.phase,
            hostTime := t.hostTime, draws := t.draws
            sched := { s.sched with
              busy := false, token := none, runTime := t.sched.runTime,
              runStamp := t.sched.runStamp } } ∧
      (s.phase = .running → t.phase = .idle ∧ t.stopIdle = true) ∧
      (s.phase ≠ .running → t.phase = s.phase ∧ t.stopIdle = s.stopIdle) ∧
      ∀ k u, s.phase = .awaitMem k → completion k t = .next u → u.phase = .idle ∧ u.stopIdle = true

/-- `clear` zeroes every register and toggle but `stopIdle` and `togTiming`, which it sets; `clearControl`
does so to the toggles alone; memory, switches and the averages stay (R313, R314). -/
def Obligations.ClearAndClearControlReset : Prop :=
  ∀ s : State, s.phase = .idle →
    hostOperation .clearControl s = .next { s with
      togCOMPL := false, togSIGN := false, ct := false, togADDER := false, togCLEAR := false,
      togDPCTR := false, stopOverflow := false, stopForbidden := false, stopControl := false,
      togCST := false, togBKPT := false, togTiming := true, stopIdle := true } ∧
    hostOperation .clear s = .next { s with
      a := 0#44, b := 0#16, c := 0#44, d := 0#44, r := 0#40, special := 0#16, cop := 0#8,
      togCOMPL := false, togSIGN := false, ct := false, togADDER := false, togCLEAR := false,
      togDPCTR := false, stopOverflow := false, stopForbidden := false, stopControl := false,
      togCST := false, togBKPT := false, togTiming := true, stopIdle := true,
      sched := { s.sched with busy := false, token := none } }

/-- A step takes the turn to come: a host turn performs its console operation, a timer turn the pending
call of `schedule`, an agent turn the step of the processor or the drum, which is the step too when no turn
is listed (R170, R300, R309; the list of turns is the model's choice, log 13). That a timer turn moves the
clock to the pending call's time at least, and changes nothing with no call pending, is the model's choice
(log 29). A halted processor does not step, and only the host's `start` or `step` leaves Idle (R345); that
the step of a halted machine answers the same state is the model's choice (log 14). Outside Idle the host's
`start`, `step`, `clear` and `clearControl` are not enabled (R309), and their turn then changes nothing
(the model's choice, log 13). In Idle a `start` or `step` with the skip switch on is refused (R38, log 20).
A state marked refused has no step of any agent (R37, R201), which the model answers by `alreadyRefused`
(log 15). -/
def Obligations.TurnsPerformWhatIsEnabled : Prop :=
  (∀ (s : State) (rest : List Turn), s.refused = false →
    (∀ op, s.turns = .host op :: rest → step s = hostOperation op { s with turns := rest }) ∧
    (s.turns = [] → step s = agentStep s) ∧
    (s.turns = .agent :: rest → step s = agentStep { s with turns := rest }) ∧
    (s.turns = .timer :: rest →
      (s.sched.token = none → step s = .next { s with turns := rest }) ∧
      (∀ token, s.sched.token = some token →
        step s = schedule { s with turns := rest, hostTime := max s.hostTime token.due }))) ∧
  (∀ s : State, s.phase = .idle → agentStep s = .next s) ∧
  (∀ s t : State, s.phase = .idle → step s = .next t → t.phase ≠ .idle →
    ∃ rest, s.turns = .host .start :: rest ∨ s.turns = .host .step :: rest) ∧
  (∀ s : State, s.phase ≠ .idle →
    hostOperation .start s = .next s ∧ hostOperation .step s = .next s ∧
    hostOperation .clear s = .next s ∧ hostOperation .clearControl s = .next s) ∧
  (∀ s : State, s.phase = .idle → s.sw.skip = true →
    hostOperation .start s = .refused .skipSwitchOn ∧ hostOperation .step s = .refused .skipSwitchOn) ∧
  (∀ s : State, s.refused = true → step s = .refused .alreadyRefused)

/-- The host's `step` makes `start`'s toggle and phase writes and runs one slice, without scheduling; then it
halts a processor that is still running and ceases to be busy, and nothing else changes. A slice that ends
within an access is halted at the end of the completion; how that halt is latched, in `stepHalt`, is the
model's choice (log 17), and so is that a refusal of the slice is the outcome of the one turn (log 31); no
slice faults (R148). The rest is R301's and R315's. From a state in the invariant the processor is thus left
halted, or in an access whose completion halts it. -/
def Obligations.HostStepHaltsAfterItsSlice : Prop :=
  (∀ s : State, restart s = { s with
      stopIdle := false, stopOverflow := false, stopForbidden := false, stopControl := false,
      togCST := false, phase := .running }) ∧
  (∀ s : State, s.phase = .idle → s.sw.skip = false →
    (∀ r, runSlice (restart s) = .refused r → hostOperation .step s = .refused r) ∧
    (∀ f, hostOperation .step s ≠ .fault f) ∧
    ∀ u, runSlice (restart s) = .next u → ∃ t, hostOperation .step s = .next t ∧
      t = { u with
            stopIdle := t.stopIdle, phase := t.phase, stepHalt := t.stepHalt
            sched := { u.sched with busy := false } } ∧
      (u.phase = .running → t.phase = .idle ∧ t.stopIdle = true ∧ t.stepHalt = u.stepHalt) ∧
      (∀ k, u.phase = .awaitMem k →
        t.phase = u.phase ∧ t.stopIdle = u.stopIdle ∧ t.stepHalt = true ∧
        ∀ v, completion k t = .next v → v.phase = .idle ∧ v.stopIdle = true) ∧
      (u.phase ≠ .running → (∀ k, u.phase ≠ .awaitMem k) →
        t.phase = u.phase ∧ t.stopIdle = u.stopIdle ∧ t.stepHalt = u.stepHalt)) ∧
  (∀ s t : State, s.Inv → s.phase = .idle → hostOperation .step s = .next t →
    t.sched.busy = false ∧
    ((t.phase = .idle ∧ t.stopIdle = true) ∨
      ∃ k, t.phase = .awaitMem k ∧
        ∀ u, completion k t = .next u → u.phase = .idle ∧ u.stopIdle = true))

/-- A slice is a run of the enabled agents' own steps and changes nothing of their result but the count of
cycles, to which it adds the cost of every step of the run. It goes on until neither the processor nor the
drum is enabled or the cycle budget is used, and begins no step after that (R305, R306). It is refused only
with a step of that run, and never faults, since no step that it runs does (R148). That it has at most one
step for each cycle of the budget, and counts at least one cycle for each, rests on the model's choice that
every activity costs a cycle (log 10), the cost being open; that a slice is one turn, on log 31. -/
def Obligations.SliceIsARunOfAgentSteps : Prop :=
  ∀ s : State, freeRunning s →
    (∀ u, runSlice s = .next u →
      ∃ n t, n ≤ 4000 ∧ core.run n s = .next t ∧
        u = { t with sched := { t.sched with totalCycles := u.sched.totalCycles } } ∧
        u.sched.totalCycles = t.sched.totalCycles + runCycles n s ∧
        t.sched.totalCycles + n ≤ u.sched.totalCycles ∧
        (∀ m < n, beginsWithinBudget m s) ∧
        (agentEnabled t = false ∨ Config.cycleBudget ≤ u.sched.totalCycles - t.sched.totalCycles)) ∧
    (∀ r, runSlice s = .refused r →
      ∃ n t, n < 4000 ∧ core.run n s = .next t ∧ (∀ m ≤ n, beginsWithinBudget m s) ∧
        agentEnabled t = true ∧ step t = .refused r) ∧
    (∀ f, runSlice s ≠ .fault f)

/-- `schedule`: the pending token is used up and the slack averaged; when the scheduler is not busy or the
processor is halted it then only ceases to be busy; otherwise a slice is run, after which the run time is
averaged and accumulated, and, unless the processor halted in the slice, the next call is asked for, with
the delay that paces the simulated cycles against the running time and is never negative (R304). That a
refusal of the slice is the outcome of the one turn is the model's choice (log 31); no slice faults (R148). -/
def Obligations.ScheduleRunsASliceAndAsksForTheNext : Prop :=
  ∀ s : State, ∃ e : State,
    s.hostTime ≤ e.hostTime ∧
    e = { s with
          hostTime := e.hostTime, draws := e.draws
          sched := { s.sched with token := none, avgSlack := e.sched.avgSlack } } ∧
    e.sched.avgSlack = s.sched.avgSlack * Config.slackDecay +
      (e.hostTime - s.sched.lastSlice - s.sched.nextDelay) * (1 - Config.slackDecay) ∧
    (s.sched.busy = false ∨ s.stopIdle = true →
      schedule s = .next { e with sched := { e.sched with busy := false } }) ∧
    (s.sched.busy = true → s.stopIdle = false →
      (∀ r, runSlice e = .refused r → schedule s = .refused r) ∧
      (∀ f, schedule s ≠ .fault f) ∧
      ∀ u, runSlice e = .next u → ∃ t, schedule s = .next t ∧
        u.hostTime ≤ t.hostTime ∧
        t = { u with hostTime := t.hostTime, draws := t.draws, sched := t.sched } ∧
        t.sched.totalCycles = u.sched.totalCycles ∧ t.sched.avgSlack = e.sched.avgSlack ∧
        t.sched.avgRun = s.sched.avgRun * Config.runDecay +
          (t.hostTime - e.hostTime) * (1 - Config.runDecay) ∧
        t.sched.runTime = s.sched.runTime + (t.hostTime - s.sched.runStamp) ∧
        t.sched.runStamp = t.hostTime ∧
        (u.stopIdle = true →
          t.sched.busy = false ∧ t.sched.token = none ∧ t.sched.nextDelay = s.sched.nextDelay ∧
          t.sched.lastSlice = s.sched.lastSlice) ∧
        (u.stopIdle = false →
          t.sched.busy = true ∧ t.sched.lastSlice = t.hostTime ∧
          t.sched.nextDelay =
            max 0 ((u.sched.totalCycles : Rat) / Config.cyclesPerMs - t.sched.runTime) ∧
          t.sched.token = some ⟨t.hostTime + t.sched.nextDelay⟩))

/-! ### The whole machine -/

/-- The invariant holds after reset. -/
def Obligations.ResetMeetsTheInvariant : Prop := State.reset.Inv

/-- Every step of every agent keeps the invariant: memory stays canonical (log 2), `stopIdle` says that
the processor is halted, the cached order departs from C only by an injected Change Conditionally, no I/O
is outstanding, an operand is awaited only by an operand-class order, a halt is left to a completion only
while an access is outstanding (log 17), and the opcode map stays well formed (log 12). -/
def Obligations.EveryStepKeepsTheInvariant : Prop :=
  ∀ s t : State, s.Inv → step s = .next t → t.Inv

/-- No step of any agent changes a console switch (R38), or `STUB_MODE`, `RESERVED_MODE` or `OPCODE_MAP`,
which are parameters (R5) that the model holds in its state (logs 5, 12). -/
def Obligations.NoStepChangesASwitch : Prop :=
  ∀ s t : State, step s = .next t →
    t.sw = s.sw ∧ t.stubMode = s.stubMode ∧ t.reservedMode = s.reservedMode ∧ t.opcodes = s.opcodes

/-- Memory, B and SPECIAL have only the writers the spec names: a step of the processor or the drum that
changes a word of memory is the Execute of ST or STC, one that changes B that of IB or DB, and one that
changes SPECIAL that of NOR (R21, R27, R60). -/
def Obligations.OnlyTheNamedInstructionsWrite : Prop :=
  ∀ s t : State, freeRunning s → step s = .next t →
    (¬ sameWords s t →
      s.phase = .running ∧ s.togTiming = false ∧
        (copOf s.c = s.opcodes.st ∨ copOf s.c = s.opcodes.stc)) ∧
    (t.b ≠ s.b →
      s.phase = .running ∧ s.togTiming = false ∧
        (copOf s.c = s.opcodes.ib ∨ copOf s.c = s.opcodes.db)) ∧
    (t.special ≠ s.special →
      s.phase = .running ∧ s.togTiming = false ∧ copOf s.c = s.opcodes.nor)

/-- The clock, the latencies, the scheduler and the unspecified toggles change no result: two
free-running machines that agree on everything else step to results that agree again (R70, R306). -/
def Obligations.TimeNeverChangesAResult : Prop :=
  ∀ s t : State, freeRunning s → freeRunning t → results s = results t →
    sameResults (step s) (step t)
end

