-- ==== Sys2Proof/Laws/Fields.lean ====
section
/-! SUPPORT. What each field of a built word is. -/

namespace Sys2Proof

@[simp] theorem signDigitOf_buildWord (sign : BitVec 4) (control : Address) (order : Order)
    (addr : Address) : signDigitOf (buildWord sign control order addr) = sign := by
  apply BitVec.eq_of_toNat_eq
  simp only [buildWord, signDigitOf, BitVec.extractLsb'_toNat, BitVec.toNat_ofNat,
    Nat.shiftRight_eq_div_pow]
  omega

@[simp] theorem controlOf_buildWord (sign : BitVec 4) (control : Address) (order : Order)
    (addr : Address) : controlOf (buildWord sign control order addr) = control := by
  apply BitVec.eq_of_toNat_eq
  simp only [buildWord, controlOf, BitVec.extractLsb'_toNat, BitVec.toNat_ofNat,
    Nat.shiftRight_eq_div_pow]
  omega

@[simp] theorem copOf_buildWord (sign : BitVec 4) (control : Address) (order : Order)
    (addr : Address) : copOf (buildWord sign control order addr) = order := by
  apply BitVec.eq_of_toNat_eq
  simp only [buildWord, copOf, BitVec.extractLsb'_toNat, BitVec.toNat_ofNat,
    Nat.shiftRight_eq_div_pow]
  omega

@[simp] theorem addressOf_buildWord (sign : BitVec 4) (control : Address) (order : Order)
    (addr : Address) : addressOf (buildWord sign control order addr) = addr := by
  apply BitVec.eq_of_toNat_eq
  simp only [buildWord, addressOf, BitVec.extractLsb'_toNat, BitVec.toNat_ofNat,
    Nat.shiftRight_eq_div_pow]
  omega

/-- A word is its four fields (R90). -/
theorem buildWord_fields (w : Word) :
    buildWord (signDigitOf w) (controlOf w) (copOf w) (addressOf w) = w := by
  apply BitVec.eq_of_toNat_eq
  simp only [buildWord, signDigitOf, controlOf, copOf, addressOf, BitVec.extractLsb'_toNat,
    BitVec.toNat_ofNat, Nat.shiftRight_eq_div_pow]
  omega

end Sys2Proof

namespace Sys2Proof.Machine

@[simp] theorem signDigitOf_withControl (c : Word) (target : Address) :
    signDigitOf (withControl c target) = signDigitOf c := by simp [withControl]

@[simp] theorem controlOf_withControl (c : Word) (target : Address) :
    controlOf (withControl c target) = target := by simp [withControl]

@[simp] theorem copOf_withControl (c : Word) (target : Address) :
    copOf (withControl c target) = copOf c := by simp [withControl]

@[simp] theorem addressOf_withControl (c : Word) (target : Address) :
    addressOf (withControl c target) = addressOf c := by simp [withControl]

@[simp] theorem signDigitOf_joinSign (sign : BitVec 4) (mag : Extension) :
    signDigitOf (joinSign sign mag) = sign := by
  apply BitVec.eq_of_toNat_eq
  simp only [joinSign, signDigitOf, BitVec.extractLsb'_toNat, BitVec.toNat_ofNat,
    Nat.shiftRight_eq_div_pow]
  omega

@[simp] theorem magnitude_joinSign (sign : BitVec 4) (mag : Extension) :
    magnitude (joinSign sign mag) = mag := by
  apply BitVec.eq_of_toNat_eq
  simp only [joinSign, magnitude, BitVec.extractLsb'_toNat, BitVec.toNat_ofNat,
    Nat.shiftRight_eq_div_pow]
  omega

/-- A word is its sign digit and its magnitude (R8). -/
theorem joinSign_parts (w : Word) : joinSign (signDigitOf w) (magnitude w) = w := by
  apply BitVec.eq_of_toNat_eq
  simp only [joinSign, signDigitOf, magnitude, BitVec.extractLsb'_toNat, BitVec.toNat_ofNat,
    Nat.shiftRight_eq_div_pow]
  omega

@[simp] theorem signDigitOf_withMagnitude (w : Word) (mag : Extension) :
    signDigitOf (withMagnitude w mag) = signDigitOf w := by simp [withMagnitude]

@[simp] theorem magnitude_withMagnitude (w : Word) (mag : Extension) :
    magnitude (withMagnitude w mag) = mag := by simp [withMagnitude]

/-- The low four digits of R after a return address is recorded (R243). -/
theorem withReturnAddress_low (r : Extension) (back : Address) :
    (withReturnAddress r back).extractLsb' 0 16 = back := by
  apply BitVec.eq_of_toNat_eq
  simp only [withReturnAddress, BitVec.extractLsb'_toNat, BitVec.toNat_ofNat,
    Nat.shiftRight_eq_div_pow]
  omega

/-- The high six digits of R are kept when a return address is recorded (R243). -/
theorem withReturnAddress_high (r : Extension) (back : Address) :
    (withReturnAddress r back).extractLsb' 16 24 = r.extractLsb' 16 24 := by
  apply BitVec.eq_of_toNat_eq
  simp only [withReturnAddress, BitVec.extractLsb'_toNat, BitVec.toNat_ofNat,
    Nat.shiftRight_eq_div_pow]
  omega

@[simp] theorem pairHigh_pairOf (a : Word) (r : Extension) : pairHigh (pairOf a r) = magnitude a := by
  apply BitVec.eq_of_toNat_eq
  have h := (magnitude a).isLt
  simp only [pairHigh, pairOf, BitVec.extractLsb'_toNat, BitVec.toNat_ofNat,
    Nat.shiftRight_eq_div_pow]
  omega

@[simp] theorem pairLow_pairOf (a : Word) (r : Extension) : pairLow (pairOf a r) = r := by
  apply BitVec.eq_of_toNat_eq
  have h := (magnitude a).isLt
  simp only [pairLow, pairOf, BitVec.extractLsb'_toNat, BitVec.toNat_ofNat,
    Nat.shiftRight_eq_div_pow]
  omega

end Sys2Proof.Machine
end

