-- ==== Sys2Proof/Laws/Digits.lean ====
section
/-! SUPPORT. Digit lists: packing and unpacking, decimal values, and what a pass of the adder computes of
decimal digits. -/

namespace Sys2Proof

@[simp] theorem digitsOf_length (n v : Nat) : (digitsOf n v).length = n := by
  induction n generalizing v <;> simp [digitsOf, *]

/-- The `n` low digits do not see what is above them. -/
theorem digitsOf_mod (n v m : Nat) (h : 16 ^ n ∣ m) : digitsOf n (v % m) = digitsOf n v := by
  induction n generalizing v m with
  | zero => rfl
  | succ n ih =>
    obtain ⟨k, rfl⟩ := h
    simp only [digitsOf]
    rw [pow_succ, mul_comm (16 ^ n), mul_assoc, Nat.mod_mul_right_mod, Nat.mod_mul_right_div_self, ih]
    exact dvd_mul_right _ _

theorem allDecimal_iff {ds : List Nat} : allDecimal ds = true ↔ ∀ d ∈ ds, d ≤ 9 := by
  simp [allDecimal]

/-- A list of nibbles is read back from its packed value. -/
theorem digitsOf_packDigits {ds : List Nat} (h : ∀ d ∈ ds, d < 16) :
    digitsOf ds.length (packDigits ds) = ds := by
  induction ds with
  | nil => rfl
  | cons d ds ih =>
    have hd := h d (by simp)
    simp only [packDigits, List.length_cons, digitsOf]
    rw [show (d + 16 * packDigits ds) % 16 = d by omega,
      show (d + 16 * packDigits ds) / 16 = packDigits ds by omega,
      ih (fun x hx => h x (by simp [hx]))]

theorem packDigits_lt {ds : List Nat} (h : ∀ d ∈ ds, d < 16) : packDigits ds < 16 ^ ds.length := by
  induction ds with
  | nil => simp [packDigits]
  | cons d ds ih =>
    have hd := h d (by simp)
    have hds := ih (fun x hx => h x (by simp [hx]))
    simp only [packDigits, List.length_cons, pow_succ]
    omega

theorem decimalValue_append (a b : List Nat) :
    decimalValue (a ++ b) = decimalValue a + 10 ^ a.length * decimalValue b := by
  induction a with
  | nil => simp [decimalValue]
  | cons x a ih =>
    simp [decimalValue, ih, pow_succ]
    ring

theorem decimalValue_lt {ds : List Nat} (h : allDecimal ds = true) : decimalValue ds < 10 ^ ds.length := by
  induction ds with
  | nil => simp [decimalValue]
  | cons d ds ih =>
    simp only [allDecimal_iff, List.mem_cons, forall_eq_or_imp] at h ih
    have hds := ih h.2
    simp only [decimalValue, List.length_cons, pow_succ]
    omega

/-- The two sides of a list of digit pairs. -/
theorem map_zip_sides : ∀ (a b : List Nat), a.length = b.length →
    (a.zip b).map Prod.fst = a ∧ (a.zip b).map Prod.snd = b
  | [], [], _ => by simp
  | x :: a, y :: b, h => by
    simp only [List.length_cons, Nat.add_right_cancel_iff] at h
    simp [map_zip_sides a b h]

end Sys2Proof

namespace Sys2Proof.Machine

/-- Digits 1 to 10 and the sign digit are the eleven digits of a word (R7, R8). -/
theorem digitsOf_eleven (w : Word) :
    digitsOf 11 w.toNat = digitsOf 10 w.toNat ++ [(signDigitOf w).toNat] := by
  have h : w.toNat / 16 ^ 10 % 16 = (signDigitOf w).toNat := by
    simp [signDigitOf, Nat.shiftRight_eq_div_pow]
  rw [← h]
  simp only [digitsOf, List.cons_append, List.nil_append, Nat.div_div_eq_div_mul, Nat.reduceMul,
    Nat.reducePow]

/-- The digits of a word with a given magnitude. -/
theorem digitsOf_joinSign (sign : BitVec 4) (mag : Extension) :
    digitsOf 10 (joinSign sign mag).toNat = digitsOf 10 mag.toNat := by
  have h : (joinSign sign mag).toNat % 16 ^ 10 = mag.toNat := by
    have hm := mag.isLt
    have hs := sign.isLt
    simp only [joinSign, BitVec.toNat_ofNat]
    omega
  rw [← digitsOf_mod 10 (joinSign sign mag).toNat (16 ^ 10) dvd_rfl, h]

@[simp] theorem signBit_signedWord (negative : Bool) (mag : Nat) :
    signBit (signedWord negative mag) = negative := by
  have h : ∀ w : Word, signBit w = (signDigitOf w).getLsbD 0 := by
    intro w
    simp [signBit, signDigitOf]
  rw [h, signedWord, signDigitOf_joinSign]
  cases negative <;> rfl

/-- The ten digits of a signed word are those packed into it. -/
theorem digitsOf_signedWord (negative : Bool) {ds : List Nat} (hl : ds.length = 10)
    (h : allDecimal ds = true) : digitsOf 10 (signedWord negative (packDigits ds)).toNat = ds := by
  have hn : ∀ d ∈ ds, d < 16 := fun d hd => by
    have := allDecimal_iff.mp h d hd
    omega
  have hlt := packDigits_lt hn
  rw [hl] at hlt
  rw [signedWord, digitsOf_joinSign, BitVec.toNat_ofNat, Nat.mod_eq_of_lt (by omega), ← hl,
    digitsOf_packDigits hn]

/-- A digit step on decimal digits adds them (R140). -/
theorem digitStep_value {x y : Nat} (c : Bool) (hx : x ≤ 9) (hy : y ≤ 9) :
    (digitStep x y c).fc = false ∧ (digitStep x y c).digit ≤ 9 ∧
      (digitStep x y c).digit + 10 * (digitStep x y c).carry.toNat = x + y + c.toNat := by
  have hc : c.toNat ≤ 1 := by cases c <;> simp
  unfold digitStep
  rw [if_neg (by omega)]
  split <;> simp <;> omega

/-- A position of the main pass on decimal digits (R142). -/
theorem mainStep_value (compl : Bool) {x y : Nat} (c : Bool) (hx : x ≤ 9) (hy : y ≤ 9) :
    (mainStep compl x y c).fc = false ∧ (mainStep compl x y c).digit ≤ 9 ∧
      (mainStep compl x y c).digit + 10 * (mainStep compl x y c).carry.toNat =
        (if compl then 9 - x else x) + y + c.toNat := by
  unfold mainStep
  rw [if_neg (by omega)]
  exact digitStep_value c (by split <;> omega) hy

/-- A pass of the main adder on decimal digits: the augend added, or its nine's complement (R142). -/
theorem mainPass_value (compl : Bool) (ps : List (Nat × Nat)) (c : Bool)
    (h : ∀ p ∈ ps, p.1 ≤ 9 ∧ p.2 ≤ 9) :
    (mainPass compl ps c).fc = false ∧ (mainPass compl ps c).digits.length = ps.length ∧
      allDecimal (mainPass compl ps c).digits = true ∧
      decimalValue (mainPass compl ps c).digits
          + 10 ^ ps.length * (mainPass compl ps c).carry.toNat
          + (if compl then decimalValue (ps.map Prod.fst) else 0) =
        (if compl then 10 ^ ps.length - 1 else decimalValue (ps.map Prod.fst))
          + decimalValue (ps.map Prod.snd) + c.toNat := by
  induction ps generalizing c with
  | nil => cases compl <;> simp [mainPass, allDecimal, decimalValue]
  | cons p ps ih =>
    obtain ⟨x, y⟩ := p
    have hxy := h (x, y) (by simp)
    simp only at hxy
    obtain ⟨h1, h2, h3, h4⟩ := ih (mainStep compl x y c).carry (fun p hp => h p (by simp [hp]))
    obtain ⟨hf, hd, hv⟩ := mainStep_value compl c hxy.1 hxy.2
    have hpos : 1 ≤ 10 ^ ps.length := Nat.one_le_pow _ _ (by simp)
    refine ⟨by simp [mainPass, h1, hf], by simp [mainPass, h2], ?_, ?_⟩
    · rw [allDecimal_iff] at h3 ⊢
      simp only [mainPass, List.mem_cons, forall_eq_or_imp]
      exact ⟨hd, h3⟩
    · simp only [mainPass, decimalValue, List.map_cons, List.length_cons, pow_succ] at h4 ⊢
      generalize mainPass compl ps (mainStep compl x y c).carry = P at *
      cases hc : P.carry <;> cases hm : (mainStep compl x y c).carry <;> cases compl <;>
        simp [hc, hm] at * <;> omega

/-- The recomplement pass is the ten's complement of decimal digits, or their nine's complement without
the entering carry (R144). -/
theorem recomplementPass_value (ds : List Nat) (c : Bool) (h : allDecimal ds = true) :
    (recomplementPass ds c).digits.length = ds.length ∧
      allDecimal (recomplementPass ds c).digits = true ∧
      decimalValue (recomplementPass ds c).digits
          + 10 ^ ds.length * (recomplementPass ds c).carry.toNat + decimalValue ds =
        10 ^ ds.length - 1 + c.toNat := by
  induction ds generalizing c with
  | nil => simp [recomplementPass, allDecimal, decimalValue]
  | cons d ds ih =>
    simp only [allDecimal_iff, List.mem_cons, forall_eq_or_imp] at h
    obtain ⟨h1, h2, h3⟩ := ih (digitStep (9 - d) 0 c).carry (allDecimal_iff.mpr h.2)
    obtain ⟨-, hd, hv⟩ := digitStep_value (x := 9 - d) (y := 0) c (by omega) (by omega)
    have hpos : 1 ≤ 10 ^ ds.length := Nat.one_le_pow _ _ (by simp)
    refine ⟨by simp [recomplementPass, h1], ?_, ?_⟩
    · rw [allDecimal_iff] at h2 ⊢
      simp only [recomplementPass, List.mem_cons, forall_eq_or_imp]
      exact ⟨hd, h2⟩
    · simp only [recomplementPass, decimalValue, List.length_cons, pow_succ]
      generalize recomplementPass ds (digitStep (9 - d) 0 c).carry = P at *
      cases hc : P.carry <;> cases hm : (digitStep (9 - d) 0 c).carry <;> simp [hc, hm] at * <;> omega

end Sys2Proof.Machine
end

