-- ==== Sys2Proof/Laws/Map.lean ====
section
/-! SUPPORT. What a well-formed opcode map gives its rows: the decoding of a row's code, and its class
(spec/30_encoding.md R95-R98). -/

namespace Sys2Proof

/-- Among rows of distinct codes, the one found under a row's code is that row. -/
theorem find_row {rows : List OpcodeRow} {row : OpcodeRow} (h : (rows.map OpcodeRow.code).Nodup)
    (hr : row ∈ rows) : rows.find? (fun r => r.code == row.code) = some row := by
  induction rows with
  | nil => cases hr
  | cons first rest ih =>
    rw [List.map_cons, List.nodup_cons] at h
    rcases List.mem_cons.mp hr with rfl | hr
    · simp
    · have hne : first.code ≠ row.code := fun e => h.1 (e ▸ List.mem_map_of_mem hr)
      simpa [hne] using ih h.2 hr

/-- The parts of a map's well-formedness: codes of their own, and each of its class. -/
theorem OpcodeMap.wf_iff {m : OpcodeMap} :
    m.wf = true ↔ (m.rows.map OpcodeRow.code).Nodup ∧
      ∀ row ∈ m.rows, isStopOrder row.code = false ∧
        isOperandOrder row.code = (row.build 0#16).operandClass := by
  simp [OpcodeMap.wf]

/-- A code of a row decodes to the row's instruction (R98). -/
theorem decodeOrder_row {m : OpcodeMap} {row : OpcodeRow} (h : m.wf = true) (hr : row ∈ m.rows)
    (addr : Address) : decodeOrder m row.code addr = some (row.build addr) := by
  obtain ⟨hd, hc⟩ := OpcodeMap.wf_iff.mp h
  simp [decodeOrder, (hc row hr).1, find_row hd hr]

/-- A code of a row is of the row's class (R95, R96). -/
theorem operandOrder_row {m : OpcodeMap} {row : OpcodeRow} (h : m.wf = true) (hr : row ∈ m.rows) :
    isOperandOrder row.code = (row.build 0#16).operandClass :=
  ((OpcodeMap.wf_iff.mp h).2 row hr).2

/-- The row of an instruction that is not of the STOP family. -/
theorem row_of_instr (m : OpcodeMap) (i : Instr) :
    (∃ low addr, i = .stop low addr) ∨
      ∃ row ∈ m.rows, row.code = encodeOrder m i ∧ row.build (encodeAddress i) = i ∧
        (row.build 0#16).operandClass = i.operandClass := by
  cases i with
  | cira addr => exact .inr ⟨⟨"CIRA", m.cira, .cira⟩, by simp [OpcodeMap.rows], rfl, rfl, rfl⟩
  | stc addr => exact .inr ⟨⟨"STC", m.stc, .stc⟩, by simp [OpcodeMap.rows], rfl, rfl, rfl⟩
  | cnz addr => exact .inr ⟨⟨"CNZ", m.cnz, .cnz⟩, by simp [OpcodeMap.rows], rfl, rfl, rfl⟩
  | stop low addr => exact .inl ⟨low, addr, rfl⟩
  | st addr => exact .inr ⟨⟨"ST", m.st, .st⟩, by simp [OpcodeMap.rows], rfl, rfl, rfl⟩
  | sr addr => exact .inr ⟨⟨"SR", m.sr, .sr⟩, by simp [OpcodeMap.rows], rfl, rfl, rfl⟩
  | sl addr => exact .inr ⟨⟨"SL", m.sl, .sl⟩, by simp [OpcodeMap.rows], rfl, rfl, rfl⟩
  | nor addr => exact .inr ⟨⟨"NOR", m.nor, .nor⟩, by simp [OpcodeMap.rows], rfl, rfl, rfl⟩
  | adsc addr => exact .inr ⟨⟨"ADSC", m.adsc, .adsc⟩, by simp [OpcodeMap.rows], rfl, rfl, rfl⟩
  | susc addr => exact .inr ⟨⟨"SUSC", m.susc, .susc⟩, by simp [OpcodeMap.rows], rfl, rfl, rfl⟩
  | cu addr => exact .inr ⟨⟨"CU", m.cu, .cu⟩, by simp [OpcodeMap.rows], rfl, rfl, rfl⟩
  | cur addr => exact .inr ⟨⟨"CUR", m.cur, .cur⟩, by simp [OpcodeMap.rows], rfl, rfl, rfl⟩
  | db addr => exact .inr ⟨⟨"DB", m.db, .db⟩, by simp [OpcodeMap.rows], rfl, rfl, rfl⟩
  | cc addr => exact .inr ⟨⟨"CC", m.cc, .cc⟩, by simp [OpcodeMap.rows], rfl, rfl, rfl⟩
  | ccr addr => exact .inr ⟨⟨"CCR", m.ccr, .ccr⟩, by simp [OpcodeMap.rows], rfl, rfl, rfl⟩
  | ib addr => exact .inr ⟨⟨"IB", m.ib, .ib⟩, by simp [OpcodeMap.rows], rfl, rfl, rfl⟩
  | m addr => exact .inr ⟨⟨"M", m.m, .m⟩, by simp [OpcodeMap.rows], rfl, rfl, rfl⟩
  | div addr => exact .inr ⟨⟨"DIV", m.div, .div⟩, by simp [OpcodeMap.rows], rfl, rfl, rfl⟩
  | ex addr => exact .inr ⟨⟨"EX", m.ex, .ex⟩, by simp [OpcodeMap.rows], rfl, rfl, rfl⟩
  | ad addr => exact .inr ⟨⟨"AD", m.ad, .ad⟩, by simp [OpcodeMap.rows], rfl, rfl, rfl⟩
  | su addr => exact .inr ⟨⟨"SU", m.su, .su⟩, by simp [OpcodeMap.rows], rfl, rfl, rfl⟩
  | cad addr => exact .inr ⟨⟨"CAD", m.cad, .cad⟩, by simp [OpcodeMap.rows], rfl, rfl, rfl⟩
  | csu addr => exact .inr ⟨⟨"CSU", m.csu, .csu⟩, by simp [OpcodeMap.rows], rfl, rfl, rfl⟩
  | fad addr => exact .inr ⟨⟨"FAD", m.fad, .fad⟩, by simp [OpcodeMap.rows], rfl, rfl, rfl⟩
  | fsu addr => exact .inr ⟨⟨"FSU", m.fsu, .fsu⟩, by simp [OpcodeMap.rows], rfl, rfl, rfl⟩
  | fm addr => exact .inr ⟨⟨"FM", m.fm, .fm⟩, by simp [OpcodeMap.rows], rfl, rfl, rfl⟩
  | fdiv addr => exact .inr ⟨⟨"FDIV", m.fdiv, .fdiv⟩, by simp [OpcodeMap.rows], rfl, rfl, rfl⟩
  | ada addr => exact .inr ⟨⟨"ADA", m.ada, .ada⟩, by simp [OpcodeMap.rows], rfl, rfl, rfl⟩
  | sua addr => exact .inr ⟨⟨"SUA", m.sua, .sua⟩, by simp [OpcodeMap.rows], rfl, rfl, rfl⟩
  | cada addr => exact .inr ⟨⟨"CADA", m.cada, .cada⟩, by simp [OpcodeMap.rows], rfl, rfl, rfl⟩
  | csua addr => exact .inr ⟨⟨"CSUA", m.csua, .csua⟩, by simp [OpcodeMap.rows], rfl, rfl, rfl⟩

/-- The order of an instruction is of its class (R95, R96). -/
theorem operandOrder_encodeOrder {m : OpcodeMap} (h : m.wf = true) (i : Instr) :
    isOperandOrder (encodeOrder m i) = i.operandClass := by
  obtain ⟨low, addr, rfl⟩ | ⟨row, hr, hc, -, ho⟩ := row_of_instr m i
  · exact (by decide : ∀ low : BitVec 3, isOperandOrder (0x01#5 ++ low) = false) low
  · rw [← hc, ← ho, operandOrder_row h hr]

/-- An order that decodes is that of the instruction (R98). -/
theorem encodeOrder_of_decodeOrder {m : OpcodeMap} {cop : Order} {addr : Address} {i : Instr}
    (h : decodeOrder m cop addr = some i) : encodeOrder m i = cop ∧ encodeAddress i = addr := by
  unfold decodeOrder at h
  split at h
  · rename_i hs
    injection h with h
    subst h
    exact ⟨(by decide : ∀ cop : Order, isStopOrder cop = true →
      0x01#5 ++ cop.extractLsb' 0 3 = cop) cop hs, rfl⟩
  · obtain ⟨row, hf, rfl⟩ := Option.map_eq_some_iff.mp h
    have hc := List.find?_some hf
    have hm := List.mem_of_find?_eq_some hf
    rw [beq_iff_eq] at hc
    subst hc
    have rows : ∀ row ∈ m.rows,
        encodeOrder m (row.build addr) = row.code ∧ encodeAddress (row.build addr) = addr := by
      simp [OpcodeMap.rows, encodeOrder, encodeAddress]
    exact rows row hm

/-- The default map is well formed (R96). -/
theorem OpcodeMap.default_wf : OpcodeMap.default.wf = true := by decide

end Sys2Proof
end

