-- ==== Sys2Proof/Laws/Memory.lean ====
section
/-! SUPPORT. The laws of memory: reading after a write, the frame, and the canonical form. -/

namespace Sys2Proof.Machine

/-- What is listed after a write: the word at its key, the rest as before. -/
theorem Memory.find?_write (m : Memory) (key : Nat) (v : Word) (other : Nat) :
    (m.write key v).find? other = if other = key then some v else m.find? other := by
  induction m with
  | nil => by_cases h : key = other <;> simp [Memory.write, Memory.find?, h, eq_comm]
  | cons entry rest ih =>
    obtain ⟨k, w⟩ := entry
    simp only [Memory.write]
    split
    · rename_i hk
      simp only [Memory.find?, ih]
      split <;> rename_i h1
      · subst h1
        simp [Nat.ne_of_lt hk]
      · rfl
    · split
      · rename_i _ hk
        subst hk
        simp only [Memory.find?]
        by_cases h : k = other
        · simp [h]
        · simp [h, Ne.symm h]
      · rename_i h1 h2
        by_cases h : key = other
        · simp [Memory.find?, h]
        · simp [Memory.find?, h, Ne.symm h]

/-- Reading the word just written. -/
@[simp] theorem Memory.read_write_same (m : Memory) (key : Nat) (v : Word) :
    (m.write key v).read key = v := by
  simp [Memory.read, Memory.find?_write]

/-- Reading another word after a write. -/
theorem Memory.read_write_other (m : Memory) {key other : Nat} (v : Word) (h : other ≠ key) :
    (m.write key v).read other = m.read other := by
  simp [Memory.read, Memory.find?_write, h]

/-- Every location's own address exists (R60). -/
theorem Location.key_exists (loc : Location) : keyExists loc.key = true := by
  cases loc with
  | main n => simp [keyExists, Location.key, n.isLt]
  | loop band word =>
    have hb := band.isLt
    have hw := word.isLt
    simp only [keyExists, Bool.or_eq_true, Bool.and_eq_true, decide_eq_true_eq]
    simp only [Location.key]
    omega

/-- Two locations with the same address are the same location. -/
theorem Location.key_injective {loc loc' : Location} (h : loc.key = loc'.key) : loc = loc' := by
  cases loc with
  | main n =>
    cases loc' with
    | main n' => simp only [Location.key] at h; exact congrArg _ (Fin.ext h)
    | loop band word =>
      have := n.isLt
      simp only [Location.key] at h
      omega
  | loop band word =>
    cases loc' with
    | main n' =>
      have := n'.isLt
      simp only [Location.key] at h
      omega
    | loop band' word' =>
      have hb := band.isLt
      have hb' := band'.isLt
      have hw := word.isLt
      have hw' := word'.isLt
      simp only [Location.key] at h
      have h1 : band = band' := Fin.ext (by omega)
      have h2 : word = word' := Fin.ext (by omega)
      rw [h1, h2]

/-- A write above a bound keeps the canonical form above it. -/
theorem Memory.wfFrom_write {m : Memory} {low key : Nat} (v : Word) (hlow : low ≤ key)
    (hkey : keyExists key = true) (h : Memory.wfFrom low m = true) :
    Memory.wfFrom low (m.write key v) = true := by
  induction m generalizing low with
  | nil => simp [Memory.write, Memory.wfFrom, hlow, hkey]
  | cons entry rest ih =>
    obtain ⟨k, w⟩ := entry
    simp only [Memory.wfFrom, Bool.and_eq_true, decide_eq_true_eq] at h
    obtain ⟨⟨hlk, hk⟩, hrest⟩ := h
    simp only [Memory.write]
    split
    · rename_i hlt
      simp only [Memory.wfFrom, Bool.and_eq_true, decide_eq_true_eq]
      exact ⟨⟨hlk, hk⟩, ih (by omega) hrest⟩
    · split
      · rename_i _ heq
        subst heq
        simp only [Memory.wfFrom, Bool.and_eq_true, decide_eq_true_eq]
        exact ⟨⟨hlow, hkey⟩, hrest⟩
      · rename_i h1 h2
        simp only [Memory.wfFrom, Bool.and_eq_true, decide_eq_true_eq]
        exact ⟨⟨hlow, hkey⟩, ⟨by omega, hk⟩, hrest⟩

/-- Every store keeps the canonical form (log 2): `State.write` is the only operation on memory. -/
theorem Memory.wf_write {m : Memory} (loc : Location) (v : Word) (h : m.wf = true) :
    (m.write loc.key v).wf = true :=
  Memory.wfFrom_write v (Nat.zero_le _) loc.key_exists h

/-- The memory of reset has the canonical form. -/
theorem Memory.wf_reset : State.reset.mem.wf = true := rfl

@[simp] theorem State.read_write_same (s : State) (loc : Location) (v : Word) :
    (s.write loc v).read loc = v := by
  simp [State.read, State.write]

theorem State.read_write_other (s : State) {loc other : Location} (v : Word) (h : other ≠ loc) :
    (s.write loc v).read other = s.read other :=
  Memory.read_write_other s.mem v (fun hk => h (Location.key_injective hk))

/-- What is read depends on memory alone. -/
theorem State.read_congr {s t : State} (h : t.mem = s.mem) (loc : Location) : t.read loc = s.read loc := by
  simp [State.read, h]

end Sys2Proof.Machine
end

