-- ==== Sys2Proof/Laws/State.lean ====
section
/-! SUPPORT. What each plain update of the state does to each field, true by definition, so that no
later proof unfolds a record update. -/

namespace Sys2Proof.Machine

/-! ### halt -/

@[simp] theorem halt_a (s : State) : (halt s).a = s.a := rfl
@[simp] theorem halt_b (s : State) : (halt s).b = s.b := rfl
@[simp] theorem halt_c (s : State) : (halt s).c = s.c := rfl
@[simp] theorem halt_d (s : State) : (halt s).d = s.d := rfl
@[simp] theorem halt_r (s : State) : (halt s).r = s.r := rfl
@[simp] theorem halt_special (s : State) : (halt s).special = s.special := rfl
@[simp] theorem halt_cop (s : State) : (halt s).cop = s.cop := rfl
@[simp] theorem halt_togCOMPL (s : State) : (halt s).togCOMPL = s.togCOMPL := rfl
@[simp] theorem halt_togSIGN (s : State) : (halt s).togSIGN = s.togSIGN := rfl
@[simp] theorem halt_ct (s : State) : (halt s).ct = s.ct := rfl
@[simp] theorem halt_togADDER (s : State) : (halt s).togADDER = s.togADDER := rfl
@[simp] theorem halt_togCLEAR (s : State) : (halt s).togCLEAR = s.togCLEAR := rfl
@[simp] theorem halt_togDPCTR (s : State) : (halt s).togDPCTR = s.togDPCTR := rfl
@[simp] theorem halt_stopOverflow (s : State) : (halt s).stopOverflow = s.stopOverflow := rfl
@[simp] theorem halt_stopForbidden (s : State) : (halt s).stopForbidden = s.stopForbidden := rfl
@[simp] theorem halt_stopControl (s : State) : (halt s).stopControl = s.stopControl := rfl
@[simp] theorem halt_stopIdle (s : State) : (halt s).stopIdle = true := rfl
@[simp] theorem halt_togTiming (s : State) : (halt s).togTiming = s.togTiming := rfl
@[simp] theorem halt_togCST (s : State) : (halt s).togCST = s.togCST := rfl
@[simp] theorem halt_togBKPT (s : State) : (halt s).togBKPT = s.togBKPT := rfl
@[simp] theorem halt_dispLoop (s : State) : (halt s).dispLoop = s.dispLoop := rfl
@[simp] theorem halt_dispWrite (s : State) : (halt s).dispWrite = s.dispWrite := rfl
@[simp] theorem halt_phase (s : State) : (halt s).phase = .idle := rfl
@[simp] theorem halt_refused (s : State) : (halt s).refused = s.refused := rfl
@[simp] theorem halt_sw (s : State) : (halt s).sw = s.sw := rfl
@[simp] theorem halt_stubMode (s : State) : (halt s).stubMode = s.stubMode := rfl
@[simp] theorem halt_reservedMode (s : State) : (halt s).reservedMode = s.reservedMode := rfl
@[simp] theorem halt_opcodes (s : State) : (halt s).opcodes = s.opcodes := rfl
@[simp] theorem halt_mem (s : State) : (halt s).mem = s.mem := rfl
@[simp] theorem halt_sched (s : State) : (halt s).sched = s.sched := rfl
@[simp] theorem halt_hostTime (s : State) : (halt s).hostTime = s.hostTime := rfl
@[simp] theorem halt_latency (s : State) : (halt s).latency = s.latency := rfl
@[simp] theorem halt_draws (s : State) : (halt s).draws = s.draws := rfl
@[simp] theorem halt_stepHalt (s : State) : (halt s).stepHalt = s.stepHalt := rfl
@[simp] theorem halt_turns (s : State) : (halt s).turns = s.turns := rfl

/-! ### restart -/

@[simp] theorem restart_a (s : State) : (restart s).a = s.a := rfl
@[simp] theorem restart_b (s : State) : (restart s).b = s.b := rfl
@[simp] theorem restart_c (s : State) : (restart s).c = s.c := rfl
@[simp] theorem restart_d (s : State) : (restart s).d = s.d := rfl
@[simp] theorem restart_r (s : State) : (restart s).r = s.r := rfl
@[simp] theorem restart_special (s : State) : (restart s).special = s.special := rfl
@[simp] theorem restart_cop (s : State) : (restart s).cop = s.cop := rfl
@[simp] theorem restart_togCOMPL (s : State) : (restart s).togCOMPL = s.togCOMPL := rfl
@[simp] theorem restart_togSIGN (s : State) : (restart s).togSIGN = s.togSIGN := rfl
@[simp] theorem restart_ct (s : State) : (restart s).ct = s.ct := rfl
@[simp] theorem restart_togADDER (s : State) : (restart s).togADDER = s.togADDER := rfl
@[simp] theorem restart_togCLEAR (s : State) : (restart s).togCLEAR = s.togCLEAR := rfl
@[simp] theorem restart_togDPCTR (s : State) : (restart s).togDPCTR = s.togDPCTR := rfl
@[simp] theorem restart_stopOverflow (s : State) : (restart s).stopOverflow = false := rfl
@[simp] theorem restart_stopForbidden (s : State) : (restart s).stopForbidden = false := rfl
@[simp] theorem restart_stopControl (s : State) : (restart s).stopControl = false := rfl
@[simp] theorem restart_stopIdle (s : State) : (restart s).stopIdle = false := rfl
@[simp] theorem restart_togTiming (s : State) : (restart s).togTiming = s.togTiming := rfl
@[simp] theorem restart_togCST (s : State) : (restart s).togCST = false := rfl
@[simp] theorem restart_togBKPT (s : State) : (restart s).togBKPT = s.togBKPT := rfl
@[simp] theorem restart_dispLoop (s : State) : (restart s).dispLoop = s.dispLoop := rfl
@[simp] theorem restart_dispWrite (s : State) : (restart s).dispWrite = s.dispWrite := rfl
@[simp] theorem restart_phase (s : State) : (restart s).phase = .running := rfl
@[simp] theorem restart_refused (s : State) : (restart s).refused = s.refused := rfl
@[simp] theorem restart_sw (s : State) : (restart s).sw = s.sw := rfl
@[simp] theorem restart_stubMode (s : State) : (restart s).stubMode = s.stubMode := rfl
@[simp] theorem restart_reservedMode (s : State) : (restart s).reservedMode = s.reservedMode := rfl
@[simp] theorem restart_opcodes (s : State) : (restart s).opcodes = s.opcodes := rfl
@[simp] theorem restart_mem (s : State) : (restart s).mem = s.mem := rfl
@[simp] theorem restart_sched (s : State) : (restart s).sched = s.sched := rfl
@[simp] theorem restart_hostTime (s : State) : (restart s).hostTime = s.hostTime := rfl
@[simp] theorem restart_latency (s : State) : (restart s).latency = s.latency := rfl
@[simp] theorem restart_draws (s : State) : (restart s).draws = s.draws := rfl
@[simp] theorem restart_stepHalt (s : State) : (restart s).stepHalt = s.stepHalt := rfl
@[simp] theorem restart_turns (s : State) : (restart s).turns = s.turns := rfl

/-! ### decompose -/

@[simp] theorem decompose_a (s : State) : (decompose s).a = s.a := rfl
@[simp] theorem decompose_b (s : State) : (decompose s).b = s.b := rfl
@[simp] theorem decompose_c (s : State) : (decompose s).c = s.c := rfl
@[simp] theorem decompose_d (s : State) : (decompose s).d = s.d := rfl
@[simp] theorem decompose_r (s : State) : (decompose s).r = s.r := rfl
@[simp] theorem decompose_special (s : State) : (decompose s).special = s.special := rfl
@[simp] theorem decompose_cop (s : State) : (decompose s).cop = copOf s.c := rfl
@[simp] theorem decompose_togCOMPL (s : State) : (decompose s).togCOMPL = s.togCOMPL := rfl
@[simp] theorem decompose_togSIGN (s : State) : (decompose s).togSIGN = s.togSIGN := rfl
@[simp] theorem decompose_ct (s : State) : (decompose s).ct = s.ct := rfl
@[simp] theorem decompose_togADDER (s : State) : (decompose s).togADDER = s.togADDER := rfl
@[simp] theorem decompose_togCLEAR (s : State) : (decompose s).togCLEAR = s.togCLEAR := rfl
@[simp] theorem decompose_togDPCTR (s : State) : (decompose s).togDPCTR = s.togDPCTR := rfl
@[simp] theorem decompose_stopOverflow (s : State) : (decompose s).stopOverflow = s.stopOverflow := rfl
@[simp] theorem decompose_stopForbidden (s : State) : (decompose s).stopForbidden = s.stopForbidden := rfl
@[simp] theorem decompose_stopControl (s : State) : (decompose s).stopControl = s.stopControl := rfl
@[simp] theorem decompose_stopIdle (s : State) : (decompose s).stopIdle = s.stopIdle := rfl
@[simp] theorem decompose_togTiming (s : State) : (decompose s).togTiming = s.togTiming := rfl
@[simp] theorem decompose_togCST (s : State) : (decompose s).togCST = s.togCST := rfl
@[simp] theorem decompose_togBKPT (s : State) : (decompose s).togBKPT = s.togBKPT := rfl
@[simp] theorem decompose_dispLoop (s : State) : (decompose s).dispLoop = s.dispLoop := rfl
@[simp] theorem decompose_dispWrite (s : State) : (decompose s).dispWrite = s.dispWrite := rfl
@[simp] theorem decompose_phase (s : State) : (decompose s).phase = s.phase := rfl
@[simp] theorem decompose_refused (s : State) : (decompose s).refused = s.refused := rfl
@[simp] theorem decompose_sw (s : State) : (decompose s).sw = s.sw := rfl
@[simp] theorem decompose_stubMode (s : State) : (decompose s).stubMode = s.stubMode := rfl
@[simp] theorem decompose_reservedMode (s : State) : (decompose s).reservedMode = s.reservedMode := rfl
@[simp] theorem decompose_opcodes (s : State) : (decompose s).opcodes = s.opcodes := rfl
@[simp] theorem decompose_mem (s : State) : (decompose s).mem = s.mem := rfl
@[simp] theorem decompose_sched (s : State) : (decompose s).sched = s.sched := rfl
@[simp] theorem decompose_hostTime (s : State) : (decompose s).hostTime = s.hostTime := rfl
@[simp] theorem decompose_latency (s : State) : (decompose s).latency = s.latency := rfl
@[simp] theorem decompose_draws (s : State) : (decompose s).draws = s.draws := rfl
@[simp] theorem decompose_stepHalt (s : State) : (decompose s).stepHalt = s.stepHalt := rfl
@[simp] theorem decompose_turns (s : State) : (decompose s).turns = s.turns := rfl

/-! ### branchTo -/

@[simp] theorem branchTo_a (target : Address) (s : State) : (branchTo target s).a = s.a := rfl
@[simp] theorem branchTo_b (target : Address) (s : State) : (branchTo target s).b = s.b := rfl
@[simp] theorem branchTo_c (target : Address) (s : State) : (branchTo target s).c = withControl s.c target := rfl
@[simp] theorem branchTo_d (target : Address) (s : State) : (branchTo target s).d = s.d := rfl
@[simp] theorem branchTo_r (target : Address) (s : State) : (branchTo target s).r = s.r := rfl
@[simp] theorem branchTo_special (target : Address) (s : State) : (branchTo target s).special = s.special := rfl
@[simp] theorem branchTo_cop (target : Address) (s : State) : (branchTo target s).cop = s.cop := rfl
@[simp] theorem branchTo_togCOMPL (target : Address) (s : State) : (branchTo target s).togCOMPL = s.togCOMPL := rfl
@[simp] theorem branchTo_togSIGN (target : Address) (s : State) : (branchTo target s).togSIGN = s.togSIGN := rfl
@[simp] theorem branchTo_ct (target : Address) (s : State) : (branchTo target s).ct = s.ct := rfl
@[simp] theorem branchTo_togADDER (target : Address) (s : State) : (branchTo target s).togADDER = s.togADDER := rfl
@[simp] theorem branchTo_togCLEAR (target : Address) (s : State) : (branchTo target s).togCLEAR = s.togCLEAR := rfl
@[simp] theorem branchTo_togDPCTR (target : Address) (s : State) : (branchTo target s).togDPCTR = s.togDPCTR := rfl
@[simp] theorem branchTo_stopOverflow (target : Address) (s : State) : (branchTo target s).stopOverflow = s.stopOverflow := rfl
@[simp] theorem branchTo_stopForbidden (target : Address) (s : State) : (branchTo target s).stopForbidden = s.stopForbidden := rfl
@[simp] theorem branchTo_stopControl (target : Address) (s : State) : (branchTo target s).stopControl = s.stopControl := rfl
@[simp] theorem branchTo_stopIdle (target : Address) (s : State) : (branchTo target s).stopIdle = s.stopIdle := rfl
@[simp] theorem branchTo_togTiming (target : Address) (s : State) : (branchTo target s).togTiming = s.togTiming := rfl
@[simp] theorem branchTo_togCST (target : Address) (s : State) : (branchTo target s).togCST = s.togCST := rfl
@[simp] theorem branchTo_togBKPT (target : Address) (s : State) : (branchTo target s).togBKPT = s.togBKPT := rfl
@[simp] theorem branchTo_dispLoop (target : Address) (s : State) : (branchTo target s).dispLoop = s.dispLoop := rfl
@[simp] theorem branchTo_dispWrite (target : Address) (s : State) : (branchTo target s).dispWrite = s.dispWrite := rfl
@[simp] theorem branchTo_phase (target : Address) (s : State) : (branchTo target s).phase = s.phase := rfl
@[simp] theorem branchTo_refused (target : Address) (s : State) : (branchTo target s).refused = s.refused := rfl
@[simp] theorem branchTo_sw (target : Address) (s : State) : (branchTo target s).sw = s.sw := rfl
@[simp] theorem branchTo_stubMode (target : Address) (s : State) : (branchTo target s).stubMode = s.stubMode := rfl
@[simp] theorem branchTo_reservedMode (target : Address) (s : State) : (branchTo target s).reservedMode = s.reservedMode := rfl
@[simp] theorem branchTo_opcodes (target : Address) (s : State) : (branchTo target s).opcodes = s.opcodes := rfl
@[simp] theorem branchTo_mem (target : Address) (s : State) : (branchTo target s).mem = s.mem := rfl
@[simp] theorem branchTo_sched (target : Address) (s : State) : (branchTo target s).sched = s.sched := rfl
@[simp] theorem branchTo_hostTime (target : Address) (s : State) : (branchTo target s).hostTime = s.hostTime := rfl
@[simp] theorem branchTo_latency (target : Address) (s : State) : (branchTo target s).latency = s.latency := rfl
@[simp] theorem branchTo_draws (target : Address) (s : State) : (branchTo target s).draws = s.draws := rfl
@[simp] theorem branchTo_stepHalt (target : Address) (s : State) : (branchTo target s).stepHalt = s.stepHalt := rfl
@[simp] theorem branchTo_turns (target : Address) (s : State) : (branchTo target s).turns = s.turns := rfl

/-! ### recordReturn -/

@[simp] theorem recordReturn_a (s : State) : (recordReturn s).a = s.a := rfl
@[simp] theorem recordReturn_b (s : State) : (recordReturn s).b = s.b := rfl
@[simp] theorem recordReturn_c (s : State) : (recordReturn s).c = s.c := rfl
@[simp] theorem recordReturn_d (s : State) : (recordReturn s).d = s.d := rfl
@[simp] theorem recordReturn_r (s : State) : (recordReturn s).r = withReturnAddress s.r s.ccontrol := rfl
@[simp] theorem recordReturn_special (s : State) : (recordReturn s).special = s.special := rfl
@[simp] theorem recordReturn_cop (s : State) : (recordReturn s).cop = s.cop := rfl
@[simp] theorem recordReturn_togCOMPL (s : State) : (recordReturn s).togCOMPL = s.togCOMPL := rfl
@[simp] theorem recordReturn_togSIGN (s : State) : (recordReturn s).togSIGN = s.togSIGN := rfl
@[simp] theorem recordReturn_ct (s : State) : (recordReturn s).ct = s.ct := rfl
@[simp] theorem recordReturn_togADDER (s : State) : (recordReturn s).togADDER = s.togADDER := rfl
@[simp] theorem recordReturn_togCLEAR (s : State) : (recordReturn s).togCLEAR = s.togCLEAR := rfl
@[simp] theorem recordReturn_togDPCTR (s : State) : (recordReturn s).togDPCTR = s.togDPCTR := rfl
@[simp] theorem recordReturn_stopOverflow (s : State) : (recordReturn s).stopOverflow = s.stopOverflow := rfl
@[simp] theorem recordReturn_stopForbidden (s : State) : (recordReturn s).stopForbidden = s.stopForbidden := rfl
@[simp] theorem recordReturn_stopControl (s : State) : (recordReturn s).stopControl = s.stopControl := rfl
@[simp] theorem recordReturn_stopIdle (s : State) : (recordReturn s).stopIdle = s.stopIdle := rfl
@[simp] theorem recordReturn_togTiming (s : State) : (recordReturn s).togTiming = s.togTiming := rfl
@[simp] theorem recordReturn_togCST (s : State) : (recordReturn s).togCST = s.togCST := rfl
@[simp] theorem recordReturn_togBKPT (s : State) : (recordReturn s).togBKPT = s.togBKPT := rfl
@[simp] theorem recordReturn_dispLoop (s : State) : (recordReturn s).dispLoop = s.dispLoop := rfl
@[simp] theorem recordReturn_dispWrite (s : State) : (recordReturn s).dispWrite = s.dispWrite := rfl
@[simp] theorem recordReturn_phase (s : State) : (recordReturn s).phase = s.phase := rfl
@[simp] theorem recordReturn_refused (s : State) : (recordReturn s).refused = s.refused := rfl
@[simp] theorem recordReturn_sw (s : State) : (recordReturn s).sw = s.sw := rfl
@[simp] theorem recordReturn_stubMode (s : State) : (recordReturn s).stubMode = s.stubMode := rfl
@[simp] theorem recordReturn_reservedMode (s : State) : (recordReturn s).reservedMode = s.reservedMode := rfl
@[simp] theorem recordReturn_opcodes (s : State) : (recordReturn s).opcodes = s.opcodes := rfl
@[simp] theorem recordReturn_mem (s : State) : (recordReturn s).mem = s.mem := rfl
@[simp] theorem recordReturn_sched (s : State) : (recordReturn s).sched = s.sched := rfl
@[simp] theorem recordReturn_hostTime (s : State) : (recordReturn s).hostTime = s.hostTime := rfl
@[simp] theorem recordReturn_latency (s : State) : (recordReturn s).latency = s.latency := rfl
@[simp] theorem recordReturn_draws (s : State) : (recordReturn s).draws = s.draws := rfl
@[simp] theorem recordReturn_stepHalt (s : State) : (recordReturn s).stepHalt = s.stepHalt := rfl
@[simp] theorem recordReturn_turns (s : State) : (recordReturn s).turns = s.turns := rfl

/-! ### State.write -/

@[simp] theorem state_write_a (loc : Location) (v : Word) (s : State) : (s.write loc v).a = s.a := rfl
@[simp] theorem state_write_b (loc : Location) (v : Word) (s : State) : (s.write loc v).b = s.b := rfl
@[simp] theorem state_write_c (loc : Location) (v : Word) (s : State) : (s.write loc v).c = s.c := rfl
@[simp] theorem state_write_d (loc : Location) (v : Word) (s : State) : (s.write loc v).d = s.d := rfl
@[simp] theorem state_write_r (loc : Location) (v : Word) (s : State) : (s.write loc v).r = s.r := rfl
@[simp] theorem state_write_special (loc : Location) (v : Word) (s : State) : (s.write loc v).special = s.special := rfl
@[simp] theorem state_write_cop (loc : Location) (v : Word) (s : State) : (s.write loc v).cop = s.cop := rfl
@[simp] theorem state_write_togCOMPL (loc : Location) (v : Word) (s : State) : (s.write loc v).togCOMPL = s.togCOMPL := rfl
@[simp] theorem state_write_togSIGN (loc : Location) (v : Word) (s : State) : (s.write loc v).togSIGN = s.togSIGN := rfl
@[simp] theorem state_write_ct (loc : Location) (v : Word) (s : State) : (s.write loc v).ct = s.ct := rfl
@[simp] theorem state_write_togADDER (loc : Location) (v : Word) (s : State) : (s.write loc v).togADDER = s.togADDER := rfl
@[simp] theorem state_write_togCLEAR (loc : Location) (v : Word) (s : State) : (s.write loc v).togCLEAR = s.togCLEAR := rfl
@[simp] theorem state_write_togDPCTR (loc : Location) (v : Word) (s : State) : (s.write loc v).togDPCTR = s.togDPCTR := rfl
@[simp] theorem state_write_stopOverflow (loc : Location) (v : Word) (s : State) : (s.write loc v).stopOverflow = s.stopOverflow := rfl
@[simp] theorem state_write_stopForbidden (loc : Location) (v : Word) (s : State) : (s.write loc v).stopForbidden = s.stopForbidden := rfl
@[simp] theorem state_write_stopControl (loc : Location) (v : Word) (s : State) : (s.write loc v).stopControl = s.stopControl := rfl
@[simp] theorem state_write_stopIdle (loc : Location) (v : Word) (s : State) : (s.write loc v).stopIdle = s.stopIdle := rfl
@[simp] theorem state_write_togTiming (loc : Location) (v : Word) (s : State) : (s.write loc v).togTiming = s.togTiming := rfl
@[simp] theorem state_write_togCST (loc : Location) (v : Word) (s : State) : (s.write loc v).togCST = s.togCST := rfl
@[simp] theorem state_write_togBKPT (loc : Location) (v : Word) (s : State) : (s.write loc v).togBKPT = s.togBKPT := rfl
@[simp] theorem state_write_dispLoop (loc : Location) (v : Word) (s : State) : (s.write loc v).dispLoop = s.dispLoop := rfl
@[simp] theorem state_write_dispWrite (loc : Location) (v : Word) (s : State) : (s.write loc v).dispWrite = s.dispWrite := rfl
@[simp] theorem state_write_phase (loc : Location) (v : Word) (s : State) : (s.write loc v).phase = s.phase := rfl
@[simp] theorem state_write_refused (loc : Location) (v : Word) (s : State) : (s.write loc v).refused = s.refused := rfl
@[simp] theorem state_write_sw (loc : Location) (v : Word) (s : State) : (s.write loc v).sw = s.sw := rfl
@[simp] theorem state_write_stubMode (loc : Location) (v : Word) (s : State) : (s.write loc v).stubMode = s.stubMode := rfl
@[simp] theorem state_write_reservedMode (loc : Location) (v : Word) (s : State) : (s.write loc v).reservedMode = s.reservedMode := rfl
@[simp] theorem state_write_opcodes (loc : Location) (v : Word) (s : State) : (s.write loc v).opcodes = s.opcodes := rfl
@[simp] theorem state_write_mem (loc : Location) (v : Word) (s : State) : (s.write loc v).mem = s.mem.write loc.key v := rfl
@[simp] theorem state_write_sched (loc : Location) (v : Word) (s : State) : (s.write loc v).sched = s.sched := rfl
@[simp] theorem state_write_hostTime (loc : Location) (v : Word) (s : State) : (s.write loc v).hostTime = s.hostTime := rfl
@[simp] theorem state_write_latency (loc : Location) (v : Word) (s : State) : (s.write loc v).latency = s.latency := rfl
@[simp] theorem state_write_draws (loc : Location) (v : Word) (s : State) : (s.write loc v).draws = s.draws := rfl
@[simp] theorem state_write_stepHalt (loc : Location) (v : Word) (s : State) : (s.write loc v).stepHalt = s.stepHalt := rfl
@[simp] theorem state_write_turns (loc : Location) (v : Word) (s : State) : (s.write loc v).turns = s.turns := rfl

/-! ### readClock -/

@[simp] theorem readClock_a (s : State) : (readClock s).a = s.a := rfl
@[simp] theorem readClock_b (s : State) : (readClock s).b = s.b := rfl
@[simp] theorem readClock_c (s : State) : (readClock s).c = s.c := rfl
@[simp] theorem readClock_d (s : State) : (readClock s).d = s.d := rfl
@[simp] theorem readClock_r (s : State) : (readClock s).r = s.r := rfl
@[simp] theorem readClock_special (s : State) : (readClock s).special = s.special := rfl
@[simp] theorem readClock_cop (s : State) : (readClock s).cop = s.cop := rfl
@[simp] theorem readClock_togCOMPL (s : State) : (readClock s).togCOMPL = s.togCOMPL := rfl
@[simp] theorem readClock_togSIGN (s : State) : (readClock s).togSIGN = s.togSIGN := rfl
@[simp] theorem readClock_ct (s : State) : (readClock s).ct = s.ct := rfl
@[simp] theorem readClock_togADDER (s : State) : (readClock s).togADDER = s.togADDER := rfl
@[simp] theorem readClock_togCLEAR (s : State) : (readClock s).togCLEAR = s.togCLEAR := rfl
@[simp] theorem readClock_togDPCTR (s : State) : (readClock s).togDPCTR = s.togDPCTR := rfl
@[simp] theorem readClock_stopOverflow (s : State) : (readClock s).stopOverflow = s.stopOverflow := rfl
@[simp] theorem readClock_stopForbidden (s : State) : (readClock s).stopForbidden = s.stopForbidden := rfl
@[simp] theorem readClock_stopControl (s : State) : (readClock s).stopControl = s.stopControl := rfl
@[simp] theorem readClock_stopIdle (s : State) : (readClock s).stopIdle = s.stopIdle := rfl
@[simp] theorem readClock_togTiming (s : State) : (readClock s).togTiming = s.togTiming := rfl
@[simp] theorem readClock_togCST (s : State) : (readClock s).togCST = s.togCST := rfl
@[simp] theorem readClock_togBKPT (s : State) : (readClock s).togBKPT = s.togBKPT := rfl
@[simp] theorem readClock_dispLoop (s : State) : (readClock s).dispLoop = s.dispLoop := rfl
@[simp] theorem readClock_dispWrite (s : State) : (readClock s).dispWrite = s.dispWrite := rfl
@[simp] theorem readClock_phase (s : State) : (readClock s).phase = s.phase := rfl
@[simp] theorem readClock_refused (s : State) : (readClock s).refused = s.refused := rfl
@[simp] theorem readClock_sw (s : State) : (readClock s).sw = s.sw := rfl
@[simp] theorem readClock_stubMode (s : State) : (readClock s).stubMode = s.stubMode := rfl
@[simp] theorem readClock_reservedMode (s : State) : (readClock s).reservedMode = s.reservedMode := rfl
@[simp] theorem readClock_opcodes (s : State) : (readClock s).opcodes = s.opcodes := rfl
@[simp] theorem readClock_mem (s : State) : (readClock s).mem = s.mem := rfl
@[simp] theorem readClock_sched (s : State) : (readClock s).sched = s.sched := rfl
@[simp] theorem readClock_hostTime (s : State) : (readClock s).hostTime = s.hostTime + (Config.clockAdvance s.draws : Rat) := rfl
@[simp] theorem readClock_latency (s : State) : (readClock s).latency = s.latency := rfl
@[simp] theorem readClock_draws (s : State) : (readClock s).draws = s.draws + 1 := rfl
@[simp] theorem readClock_stepHalt (s : State) : (readClock s).stepHalt = s.stepHalt := rfl
@[simp] theorem readClock_turns (s : State) : (readClock s).turns = s.turns := rfl

/-! ### issueAccess -/

@[simp] theorem issueAccess_a (loc : Location) (k : Successor) (s : State) : (issueAccess loc k s).a = s.a := rfl
@[simp] theorem issueAccess_b (loc : Location) (k : Successor) (s : State) : (issueAccess loc k s).b = s.b := rfl
@[simp] theorem issueAccess_c (loc : Location) (k : Successor) (s : State) : (issueAccess loc k s).c = s.c := rfl
@[simp] theorem issueAccess_d (loc : Location) (k : Successor) (s : State) : (issueAccess loc k s).d = s.d := rfl
@[simp] theorem issueAccess_r (loc : Location) (k : Successor) (s : State) : (issueAccess loc k s).r = s.r := rfl
@[simp] theorem issueAccess_special (loc : Location) (k : Successor) (s : State) : (issueAccess loc k s).special = s.special := rfl
@[simp] theorem issueAccess_cop (loc : Location) (k : Successor) (s : State) : (issueAccess loc k s).cop = s.cop := rfl
@[simp] theorem issueAccess_togCOMPL (loc : Location) (k : Successor) (s : State) : (issueAccess loc k s).togCOMPL = s.togCOMPL := rfl
@[simp] theorem issueAccess_togSIGN (loc : Location) (k : Successor) (s : State) : (issueAccess loc k s).togSIGN = s.togSIGN := rfl
@[simp] theorem issueAccess_ct (loc : Location) (k : Successor) (s : State) : (issueAccess loc k s).ct = s.ct := rfl
@[simp] theorem issueAccess_togADDER (loc : Location) (k : Successor) (s : State) : (issueAccess loc k s).togADDER = s.togADDER := rfl
@[simp] theorem issueAccess_togCLEAR (loc : Location) (k : Successor) (s : State) : (issueAccess loc k s).togCLEAR = s.togCLEAR := rfl
@[simp] theorem issueAccess_togDPCTR (loc : Location) (k : Successor) (s : State) : (issueAccess loc k s).togDPCTR = s.togDPCTR := rfl
@[simp] theorem issueAccess_stopOverflow (loc : Location) (k : Successor) (s : State) : (issueAccess loc k s).stopOverflow = s.stopOverflow := rfl
@[simp] theorem issueAccess_stopForbidden (loc : Location) (k : Successor) (s : State) : (issueAccess loc k s).stopForbidden = s.stopForbidden := rfl
@[simp] theorem issueAccess_stopControl (loc : Location) (k : Successor) (s : State) : (issueAccess loc k s).stopControl = s.stopControl := rfl
@[simp] theorem issueAccess_stopIdle (loc : Location) (k : Successor) (s : State) : (issueAccess loc k s).stopIdle = s.stopIdle := rfl
@[simp] theorem issueAccess_togTiming (loc : Location) (k : Successor) (s : State) : (issueAccess loc k s).togTiming = s.togTiming := rfl
@[simp] theorem issueAccess_togCST (loc : Location) (k : Successor) (s : State) : (issueAccess loc k s).togCST = s.togCST := rfl
@[simp] theorem issueAccess_togBKPT (loc : Location) (k : Successor) (s : State) : (issueAccess loc k s).togBKPT = s.togBKPT := rfl
@[simp] theorem issueAccess_dispLoop (loc : Location) (k : Successor) (s : State) : (issueAccess loc k s).dispLoop = s.dispLoop := rfl
@[simp] theorem issueAccess_dispWrite (loc : Location) (k : Successor) (s : State) : (issueAccess loc k s).dispWrite = s.dispWrite := rfl
@[simp] theorem issueAccess_phase (loc : Location) (k : Successor) (s : State) : (issueAccess loc k s).phase = .awaitMem k := rfl
@[simp] theorem issueAccess_refused (loc : Location) (k : Successor) (s : State) : (issueAccess loc k s).refused = s.refused := rfl
@[simp] theorem issueAccess_sw (loc : Location) (k : Successor) (s : State) : (issueAccess loc k s).sw = s.sw := rfl
@[simp] theorem issueAccess_stubMode (loc : Location) (k : Successor) (s : State) : (issueAccess loc k s).stubMode = s.stubMode := rfl
@[simp] theorem issueAccess_reservedMode (loc : Location) (k : Successor) (s : State) : (issueAccess loc k s).reservedMode = s.reservedMode := rfl
@[simp] theorem issueAccess_opcodes (loc : Location) (k : Successor) (s : State) : (issueAccess loc k s).opcodes = s.opcodes := rfl
@[simp] theorem issueAccess_mem (loc : Location) (k : Successor) (s : State) : (issueAccess loc k s).mem = s.mem := rfl
@[simp] theorem issueAccess_sched (loc : Location) (k : Successor) (s : State) : (issueAccess loc k s).sched = s.sched := rfl
@[simp] theorem issueAccess_hostTime (loc : Location) (k : Successor) (s : State) : (issueAccess loc k s).hostTime = s.hostTime + (Config.clockAdvance s.draws : Rat) := rfl
@[simp] theorem issueAccess_latency (loc : Location) (k : Successor) (s : State) : (issueAccess loc k s).latency = 
      drumLatency loc (s.hostTime + (Config.clockAdvance s.draws : Rat)) Config.wordsPerMs := rfl
@[simp] theorem issueAccess_draws (loc : Location) (k : Successor) (s : State) : (issueAccess loc k s).draws = s.draws + 1 := rfl
@[simp] theorem issueAccess_stepHalt (loc : Location) (k : Successor) (s : State) : (issueAccess loc k s).stepHalt = s.stepHalt := rfl
@[simp] theorem issueAccess_turns (loc : Location) (k : Successor) (s : State) : (issueAccess loc k s).turns = s.turns := rfl

/-! ### accessArrives -/

@[simp] theorem accessArrives_a (s : State) : (accessArrives s).a = s.a := rfl
@[simp] theorem accessArrives_b (s : State) : (accessArrives s).b = s.b := rfl
@[simp] theorem accessArrives_c (s : State) : (accessArrives s).c = s.c := rfl
@[simp] theorem accessArrives_d (s : State) : (accessArrives s).d = s.d := rfl
@[simp] theorem accessArrives_r (s : State) : (accessArrives s).r = s.r := rfl
@[simp] theorem accessArrives_special (s : State) : (accessArrives s).special = s.special := rfl
@[simp] theorem accessArrives_cop (s : State) : (accessArrives s).cop = s.cop := rfl
@[simp] theorem accessArrives_togCOMPL (s : State) : (accessArrives s).togCOMPL = s.togCOMPL := rfl
@[simp] theorem accessArrives_togSIGN (s : State) : (accessArrives s).togSIGN = s.togSIGN := rfl
@[simp] theorem accessArrives_ct (s : State) : (accessArrives s).ct = s.ct := rfl
@[simp] theorem accessArrives_togADDER (s : State) : (accessArrives s).togADDER = s.togADDER := rfl
@[simp] theorem accessArrives_togCLEAR (s : State) : (accessArrives s).togCLEAR = s.togCLEAR := rfl
@[simp] theorem accessArrives_togDPCTR (s : State) : (accessArrives s).togDPCTR = s.togDPCTR := rfl
@[simp] theorem accessArrives_stopOverflow (s : State) : (accessArrives s).stopOverflow = s.stopOverflow := rfl
@[simp] theorem accessArrives_stopForbidden (s : State) : (accessArrives s).stopForbidden = s.stopForbidden := rfl
@[simp] theorem accessArrives_stopControl (s : State) : (accessArrives s).stopControl = s.stopControl := rfl
@[simp] theorem accessArrives_stopIdle (s : State) : (accessArrives s).stopIdle = s.stopIdle := rfl
@[simp] theorem accessArrives_togTiming (s : State) : (accessArrives s).togTiming = s.togTiming := rfl
@[simp] theorem accessArrives_togCST (s : State) : (accessArrives s).togCST = s.togCST := rfl
@[simp] theorem accessArrives_togBKPT (s : State) : (accessArrives s).togBKPT = s.togBKPT := rfl
@[simp] theorem accessArrives_dispLoop (s : State) : (accessArrives s).dispLoop = s.dispLoop := rfl
@[simp] theorem accessArrives_dispWrite (s : State) : (accessArrives s).dispWrite = s.dispWrite := rfl
@[simp] theorem accessArrives_phase (s : State) : (accessArrives s).phase = s.phase := rfl
@[simp] theorem accessArrives_refused (s : State) : (accessArrives s).refused = s.refused := rfl
@[simp] theorem accessArrives_sw (s : State) : (accessArrives s).sw = s.sw := rfl
@[simp] theorem accessArrives_stubMode (s : State) : (accessArrives s).stubMode = s.stubMode := rfl
@[simp] theorem accessArrives_reservedMode (s : State) : (accessArrives s).reservedMode = s.reservedMode := rfl
@[simp] theorem accessArrives_opcodes (s : State) : (accessArrives s).opcodes = s.opcodes := rfl
@[simp] theorem accessArrives_mem (s : State) : (accessArrives s).mem = s.mem := rfl
@[simp] theorem accessArrives_sched (s : State) : (accessArrives s).sched = s.sched := rfl
@[simp] theorem accessArrives_hostTime (s : State) : (accessArrives s).hostTime = s.hostTime + (s.latency : Rat) / Config.wordsPerMs := rfl
@[simp] theorem accessArrives_latency (s : State) : (accessArrives s).latency = s.latency := rfl
@[simp] theorem accessArrives_draws (s : State) : (accessArrives s).draws = s.draws := rfl
@[simp] theorem accessArrives_stepHalt (s : State) : (accessArrives s).stepHalt = s.stepHalt := rfl
@[simp] theorem accessArrives_turns (s : State) : (accessArrives s).turns = s.turns := rfl

/-! ### drawDisplay -/

@[simp] theorem drawDisplay_a (s : State) : (drawDisplay s).a = s.a := rfl
@[simp] theorem drawDisplay_b (s : State) : (drawDisplay s).b = s.b := rfl
@[simp] theorem drawDisplay_c (s : State) : (drawDisplay s).c = s.c := rfl
@[simp] theorem drawDisplay_d (s : State) : (drawDisplay s).d = s.d := rfl
@[simp] theorem drawDisplay_r (s : State) : (drawDisplay s).r = s.r := rfl
@[simp] theorem drawDisplay_special (s : State) : (drawDisplay s).special = s.special := rfl
@[simp] theorem drawDisplay_cop (s : State) : (drawDisplay s).cop = s.cop := rfl
@[simp] theorem drawDisplay_togCOMPL (s : State) : (drawDisplay s).togCOMPL = s.togCOMPL := rfl
@[simp] theorem drawDisplay_togSIGN (s : State) : (drawDisplay s).togSIGN = s.togSIGN := rfl
@[simp] theorem drawDisplay_ct (s : State) : (drawDisplay s).ct = s.ct := rfl
@[simp] theorem drawDisplay_togADDER (s : State) : (drawDisplay s).togADDER = s.togADDER := rfl
@[simp] theorem drawDisplay_togCLEAR (s : State) : (drawDisplay s).togCLEAR = s.togCLEAR := rfl
@[simp] theorem drawDisplay_togDPCTR (s : State) : (drawDisplay s).togDPCTR = s.togDPCTR := rfl
@[simp] theorem drawDisplay_stopOverflow (s : State) : (drawDisplay s).stopOverflow = s.stopOverflow := rfl
@[simp] theorem drawDisplay_stopForbidden (s : State) : (drawDisplay s).stopForbidden = s.stopForbidden := rfl
@[simp] theorem drawDisplay_stopControl (s : State) : (drawDisplay s).stopControl = s.stopControl := rfl
@[simp] theorem drawDisplay_stopIdle (s : State) : (drawDisplay s).stopIdle = s.stopIdle := rfl
@[simp] theorem drawDisplay_togTiming (s : State) : (drawDisplay s).togTiming = s.togTiming := rfl
@[simp] theorem drawDisplay_togCST (s : State) : (drawDisplay s).togCST = s.togCST := rfl
@[simp] theorem drawDisplay_togBKPT (s : State) : (drawDisplay s).togBKPT = s.togBKPT := rfl
@[simp] theorem drawDisplay_dispLoop (s : State) : (drawDisplay s).dispLoop = Config.freeBit s.draws := rfl
@[simp] theorem drawDisplay_dispWrite (s : State) : (drawDisplay s).dispWrite = Config.freeBit (s.draws + 1) := rfl
@[simp] theorem drawDisplay_phase (s : State) : (drawDisplay s).phase = s.phase := rfl
@[simp] theorem drawDisplay_refused (s : State) : (drawDisplay s).refused = s.refused := rfl
@[simp] theorem drawDisplay_sw (s : State) : (drawDisplay s).sw = s.sw := rfl
@[simp] theorem drawDisplay_stubMode (s : State) : (drawDisplay s).stubMode = s.stubMode := rfl
@[simp] theorem drawDisplay_reservedMode (s : State) : (drawDisplay s).reservedMode = s.reservedMode := rfl
@[simp] theorem drawDisplay_opcodes (s : State) : (drawDisplay s).opcodes = s.opcodes := rfl
@[simp] theorem drawDisplay_mem (s : State) : (drawDisplay s).mem = s.mem := rfl
@[simp] theorem drawDisplay_sched (s : State) : (drawDisplay s).sched = s.sched := rfl
@[simp] theorem drawDisplay_hostTime (s : State) : (drawDisplay s).hostTime = s.hostTime := rfl
@[simp] theorem drawDisplay_latency (s : State) : (drawDisplay s).latency = s.latency := rfl
@[simp] theorem drawDisplay_draws (s : State) : (drawDisplay s).draws = s.draws + 2 := rfl
@[simp] theorem drawDisplay_stepHalt (s : State) : (drawDisplay s).stepHalt = s.stepHalt := rfl
@[simp] theorem drawDisplay_turns (s : State) : (drawDisplay s).turns = s.turns := rfl

/-! ### drawAdderToggles -/

@[simp] theorem drawAdderToggles_a (s : State) : (drawAdderToggles s).a = s.a := rfl
@[simp] theorem drawAdderToggles_b (s : State) : (drawAdderToggles s).b = s.b := rfl
@[simp] theorem drawAdderToggles_c (s : State) : (drawAdderToggles s).c = s.c := rfl
@[simp] theorem drawAdderToggles_d (s : State) : (drawAdderToggles s).d = s.d := rfl
@[simp] theorem drawAdderToggles_r (s : State) : (drawAdderToggles s).r = s.r := rfl
@[simp] theorem drawAdderToggles_special (s : State) : (drawAdderToggles s).special = s.special := rfl
@[simp] theorem drawAdderToggles_cop (s : State) : (drawAdderToggles s).cop = s.cop := rfl
@[simp] theorem drawAdderToggles_togCOMPL (s : State) : (drawAdderToggles s).togCOMPL = s.togCOMPL := rfl
@[simp] theorem drawAdderToggles_togSIGN (s : State) : (drawAdderToggles s).togSIGN = s.togSIGN := rfl
@[simp] theorem drawAdderToggles_ct (s : State) : (drawAdderToggles s).ct = s.ct := rfl
@[simp] theorem drawAdderToggles_togADDER (s : State) : (drawAdderToggles s).togADDER = Config.freeBit s.draws := rfl
@[simp] theorem drawAdderToggles_togCLEAR (s : State) : (drawAdderToggles s).togCLEAR = Config.freeBit (s.draws + 1) := rfl
@[simp] theorem drawAdderToggles_togDPCTR (s : State) : (drawAdderToggles s).togDPCTR = Config.freeBit (s.draws + 2) := rfl
@[simp] theorem drawAdderToggles_stopOverflow (s : State) : (drawAdderToggles s).stopOverflow = s.stopOverflow := rfl
@[simp] theorem drawAdderToggles_stopForbidden (s : State) : (drawAdderToggles s).stopForbidden = s.stopForbidden := rfl
@[simp] theorem drawAdderToggles_stopControl (s : State) : (drawAdderToggles s).stopControl = s.stopControl := rfl
@[simp] theorem drawAdderToggles_stopIdle (s : State) : (drawAdderToggles s).stopIdle = s.stopIdle := rfl
@[simp] theorem drawAdderToggles_togTiming (s : State) : (drawAdderToggles s).togTiming = s.togTiming := rfl
@[simp] theorem drawAdderToggles_togCST (s : State) : (drawAdderToggles s).togCST = s.togCST := rfl
@[simp] theorem drawAdderToggles_togBKPT (s : State) : (drawAdderToggles s).togBKPT = s.togBKPT := rfl
@[simp] theorem drawAdderToggles_dispLoop (s : State) : (drawAdderToggles s).dispLoop = s.dispLoop := rfl
@[simp] theorem drawAdderToggles_dispWrite (s : State) : (drawAdderToggles s).dispWrite = s.dispWrite := rfl
@[simp] theorem drawAdderToggles_phase (s : State) : (drawAdderToggles s).phase = s.phase := rfl
@[simp] theorem drawAdderToggles_refused (s : State) : (drawAdderToggles s).refused = s.refused := rfl
@[simp] theorem drawAdderToggles_sw (s : State) : (drawAdderToggles s).sw = s.sw := rfl
@[simp] theorem drawAdderToggles_stubMode (s : State) : (drawAdderToggles s).stubMode = s.stubMode := rfl
@[simp] theorem drawAdderToggles_reservedMode (s : State) : (drawAdderToggles s).reservedMode = s.reservedMode := rfl
@[simp] theorem drawAdderToggles_opcodes (s : State) : (drawAdderToggles s).opcodes = s.opcodes := rfl
@[simp] theorem drawAdderToggles_mem (s : State) : (drawAdderToggles s).mem = s.mem := rfl
@[simp] theorem drawAdderToggles_sched (s : State) : (drawAdderToggles s).sched = s.sched := rfl
@[simp] theorem drawAdderToggles_hostTime (s : State) : (drawAdderToggles s).hostTime = s.hostTime := rfl
@[simp] theorem drawAdderToggles_latency (s : State) : (drawAdderToggles s).latency = s.latency := rfl
@[simp] theorem drawAdderToggles_draws (s : State) : (drawAdderToggles s).draws = s.draws + 3 := rfl
@[simp] theorem drawAdderToggles_stepHalt (s : State) : (drawAdderToggles s).stepHalt = s.stepHalt := rfl
@[simp] theorem drawAdderToggles_turns (s : State) : (drawAdderToggles s).turns = s.turns := rfl

/-! ### setPair -/

@[simp] theorem setPair_a (p : Pair) (s : State) : (setPair p s).a = withMagnitude s.a (pairHigh p) := rfl
@[simp] theorem setPair_b (p : Pair) (s : State) : (setPair p s).b = s.b := rfl
@[simp] theorem setPair_c (p : Pair) (s : State) : (setPair p s).c = s.c := rfl
@[simp] theorem setPair_d (p : Pair) (s : State) : (setPair p s).d = s.d := rfl
@[simp] theorem setPair_r (p : Pair) (s : State) : (setPair p s).r = pairLow p := rfl
@[simp] theorem setPair_special (p : Pair) (s : State) : (setPair p s).special = s.special := rfl
@[simp] theorem setPair_cop (p : Pair) (s : State) : (setPair p s).cop = s.cop := rfl
@[simp] theorem setPair_togCOMPL (p : Pair) (s : State) : (setPair p s).togCOMPL = s.togCOMPL := rfl
@[simp] theorem setPair_togSIGN (p : Pair) (s : State) : (setPair p s).togSIGN = s.togSIGN := rfl
@[simp] theorem setPair_ct (p : Pair) (s : State) : (setPair p s).ct = s.ct := rfl
@[simp] theorem setPair_togADDER (p : Pair) (s : State) : (setPair p s).togADDER = s.togADDER := rfl
@[simp] theorem setPair_togCLEAR (p : Pair) (s : State) : (setPair p s).togCLEAR = s.togCLEAR := rfl
@[simp] theorem setPair_togDPCTR (p : Pair) (s : State) : (setPair p s).togDPCTR = s.togDPCTR := rfl
@[simp] theorem setPair_stopOverflow (p : Pair) (s : State) : (setPair p s).stopOverflow = s.stopOverflow := rfl
@[simp] theorem setPair_stopForbidden (p : Pair) (s : State) : (setPair p s).stopForbidden = s.stopForbidden := rfl
@[simp] theorem setPair_stopControl (p : Pair) (s : State) : (setPair p s).stopControl = s.stopControl := rfl
@[simp] theorem setPair_stopIdle (p : Pair) (s : State) : (setPair p s).stopIdle = s.stopIdle := rfl
@[simp] theorem setPair_togTiming (p : Pair) (s : State) : (setPair p s).togTiming = s.togTiming := rfl
@[simp] theorem setPair_togCST (p : Pair) (s : State) : (setPair p s).togCST = s.togCST := rfl
@[simp] theorem setPair_togBKPT (p : Pair) (s : State) : (setPair p s).togBKPT = s.togBKPT := rfl
@[simp] theorem setPair_dispLoop (p : Pair) (s : State) : (setPair p s).dispLoop = s.dispLoop := rfl
@[simp] theorem setPair_dispWrite (p : Pair) (s : State) : (setPair p s).dispWrite = s.dispWrite := rfl
@[simp] theorem setPair_phase (p : Pair) (s : State) : (setPair p s).phase = s.phase := rfl
@[simp] theorem setPair_refused (p : Pair) (s : State) : (setPair p s).refused = s.refused := rfl
@[simp] theorem setPair_sw (p : Pair) (s : State) : (setPair p s).sw = s.sw := rfl
@[simp] theorem setPair_stubMode (p : Pair) (s : State) : (setPair p s).stubMode = s.stubMode := rfl
@[simp] theorem setPair_reservedMode (p : Pair) (s : State) : (setPair p s).reservedMode = s.reservedMode := rfl
@[simp] theorem setPair_opcodes (p : Pair) (s : State) : (setPair p s).opcodes = s.opcodes := rfl
@[simp] theorem setPair_mem (p : Pair) (s : State) : (setPair p s).mem = s.mem := rfl
@[simp] theorem setPair_sched (p : Pair) (s : State) : (setPair p s).sched = s.sched := rfl
@[simp] theorem setPair_hostTime (p : Pair) (s : State) : (setPair p s).hostTime = s.hostTime := rfl
@[simp] theorem setPair_latency (p : Pair) (s : State) : (setPair p s).latency = s.latency := rfl
@[simp] theorem setPair_draws (p : Pair) (s : State) : (setPair p s).draws = s.draws := rfl
@[simp] theorem setPair_stepHalt (p : Pair) (s : State) : (setPair p s).stepHalt = s.stepHalt := rfl
@[simp] theorem setPair_turns (p : Pair) (s : State) : (setPair p s).turns = s.turns := rfl

end Sys2Proof.Machine
end

