-- ==== Sys2Proof/Laws/Ops.lean ====
section
/-! SUPPORT. What each shared operation can do, said once: the fields it keeps, the fields it writes,
and, where it may refuse or fault, its next states. -/

namespace Sys2Proof.Machine

/-! ### Outcomes -/

theorem andThen_next {o : Result} {f : State → Result} {t : State} :
    andThen o f = .next t ↔ ∃ s, o = .next s ∧ f s = .next t := by
  cases o <;> simp [andThen]

theorem onNext_next {f : State → State} {o : Result} {t : State} :
    onNext f o = .next t ↔ ∃ s, o = .next s ∧ t = f s := by
  cases o <;> simp [onNext, andThen, eq_comm]

@[simp] theorem onNext_of_next (f : State → State) (s : State) :
    onNext f (.next s) = .next (f s) := rfl

/-! ### Faults -/

/-- What raising a fault keeps (R330, R331). -/
@[simp] theorem raiseFault_keeps (kind : FaultKind) (s : State) :
    (raiseFault kind s).a = s.a ∧ (raiseFault kind s).b = s.b ∧ (raiseFault kind s).c = s.c ∧
    (raiseFault kind s).d = s.d ∧ (raiseFault kind s).r = s.r ∧
    (raiseFault kind s).special = s.special ∧ (raiseFault kind s).cop = s.cop ∧
    (raiseFault kind s).togCOMPL = s.togCOMPL ∧ (raiseFault kind s).togSIGN = s.togSIGN ∧
    (raiseFault kind s).ct = s.ct ∧ (raiseFault kind s).togADDER = s.togADDER ∧
    (raiseFault kind s).togCLEAR = s.togCLEAR ∧ (raiseFault kind s).togDPCTR = s.togDPCTR ∧
    (raiseFault kind s).stopIdle = s.stopIdle ∧ (raiseFault kind s).togTiming = s.togTiming ∧
    (raiseFault kind s).togBKPT = s.togBKPT ∧ (raiseFault kind s).dispLoop = s.dispLoop ∧
    (raiseFault kind s).dispWrite = s.dispWrite ∧ (raiseFault kind s).phase = s.phase ∧
    (raiseFault kind s).refused = s.refused ∧ (raiseFault kind s).sw = s.sw ∧
    (raiseFault kind s).stubMode = s.stubMode ∧ (raiseFault kind s).reservedMode = s.reservedMode ∧
    (raiseFault kind s).opcodes = s.opcodes ∧ (raiseFault kind s).mem = s.mem ∧
    (raiseFault kind s).sched = s.sched ∧ (raiseFault kind s).hostTime = s.hostTime ∧
    (raiseFault kind s).latency = s.latency ∧ (raiseFault kind s).draws = s.draws ∧
    (raiseFault kind s).stepHalt = s.stepHalt ∧ (raiseFault kind s).turns = s.turns := by
  cases kind <;> simp [raiseFault]

@[simp] theorem raiseFault_forbidden (s : State) :
    raiseFault .forbidden s = { s with stopForbidden := true, togCST := true } := rfl

@[simp] theorem raiseFault_overflow (s : State) :
    raiseFault .overflow s = { s with stopOverflow := true } := rfl

@[simp] theorem raiseFault_control (s : State) :
    raiseFault .control s = { s with stopControl := true, togCST := true } := rfl

/-- What a conditional fault keeps. -/
@[simp] theorem raiseIf_keeps (condition : Bool) (kind : FaultKind) (s : State) :
    (raiseIf condition kind s).a = s.a ∧ (raiseIf condition kind s).b = s.b ∧
    (raiseIf condition kind s).c = s.c ∧ (raiseIf condition kind s).d = s.d ∧
    (raiseIf condition kind s).r = s.r ∧ (raiseIf condition kind s).special = s.special ∧
    (raiseIf condition kind s).cop = s.cop ∧ (raiseIf condition kind s).togCOMPL = s.togCOMPL ∧
    (raiseIf condition kind s).togSIGN = s.togSIGN ∧ (raiseIf condition kind s).ct = s.ct ∧
    (raiseIf condition kind s).togADDER = s.togADDER ∧
    (raiseIf condition kind s).togCLEAR = s.togCLEAR ∧
    (raiseIf condition kind s).togDPCTR = s.togDPCTR ∧
    (raiseIf condition kind s).stopIdle = s.stopIdle ∧
    (raiseIf condition kind s).togTiming = s.togTiming ∧
    (raiseIf condition kind s).togBKPT = s.togBKPT ∧
    (raiseIf condition kind s).dispLoop = s.dispLoop ∧
    (raiseIf condition kind s).dispWrite = s.dispWrite ∧
    (raiseIf condition kind s).phase = s.phase ∧ (raiseIf condition kind s).refused = s.refused ∧
    (raiseIf condition kind s).sw = s.sw ∧ (raiseIf condition kind s).stubMode = s.stubMode ∧
    (raiseIf condition kind s).reservedMode = s.reservedMode ∧
    (raiseIf condition kind s).opcodes = s.opcodes ∧ (raiseIf condition kind s).mem = s.mem ∧
    (raiseIf condition kind s).sched = s.sched ∧ (raiseIf condition kind s).hostTime = s.hostTime ∧
    (raiseIf condition kind s).latency = s.latency ∧ (raiseIf condition kind s).draws = s.draws ∧
    (raiseIf condition kind s).stepHalt = s.stepHalt ∧
    (raiseIf condition kind s).turns = s.turns := by
  unfold raiseIf; split <;> simp

/-- A conditional Forbidden Combination sets its toggles when it holds (R332). -/
theorem raiseIf_forbidden (condition : Bool) (s : State) :
    raiseIf condition .forbidden s =
      { s with
        stopForbidden := condition || s.stopForbidden
        togCST := condition || s.togCST } := by
  cases condition <;> rfl

/-- A conditional Overflow sets its toggle when it holds (R333). -/
theorem raiseIf_overflow (condition : Bool) (s : State) :
    raiseIf condition .overflow s = { s with stopOverflow := condition || s.stopOverflow } := by
  cases condition <;> rfl

/-- The adder's events set their toggles (R221). -/
theorem applyAdderEvents_eq (fc ovf : Bool) (s : State) :
    applyAdderEvents fc ovf s =
      { s with
        stopForbidden := fc || s.stopForbidden
        togCST := fc || s.togCST
        stopOverflow := ovf || s.stopOverflow } := by
  cases fc <;> cases ovf <;> rfl

/-! ### The end of an Execute -/

/-- What writing the Timing toggle keeps. -/
@[simp] theorem setTiming_keeps (fetchNext : Bool) (s : State) :
    (setTiming fetchNext s).a = s.a ∧ (setTiming fetchNext s).b = s.b ∧
    (setTiming fetchNext s).c = s.c ∧ (setTiming fetchNext s).d = s.d ∧
    (setTiming fetchNext s).r = s.r ∧ (setTiming fetchNext s).special = s.special ∧
    (setTiming fetchNext s).cop = s.cop ∧ (setTiming fetchNext s).togCOMPL = s.togCOMPL ∧
    (setTiming fetchNext s).togSIGN = s.togSIGN ∧ (setTiming fetchNext s).ct = s.ct ∧
    (setTiming fetchNext s).togADDER = s.togADDER ∧ (setTiming fetchNext s).togCLEAR = s.togCLEAR ∧
    (setTiming fetchNext s).togDPCTR = s.togDPCTR ∧
    (setTiming fetchNext s).stopOverflow = s.stopOverflow ∧
    (setTiming fetchNext s).stopForbidden = s.stopForbidden ∧
    (setTiming fetchNext s).stopControl = s.stopControl ∧
    (setTiming fetchNext s).stopIdle = s.stopIdle ∧ (setTiming fetchNext s).togCST = s.togCST ∧
    (setTiming fetchNext s).togBKPT = s.togBKPT ∧ (setTiming fetchNext s).dispLoop = s.dispLoop ∧
    (setTiming fetchNext s).dispWrite = s.dispWrite ∧ (setTiming fetchNext s).phase = s.phase ∧
    (setTiming fetchNext s).refused = s.refused ∧ (setTiming fetchNext s).sw = s.sw ∧
    (setTiming fetchNext s).stubMode = s.stubMode ∧
    (setTiming fetchNext s).reservedMode = s.reservedMode ∧
    (setTiming fetchNext s).opcodes = s.opcodes ∧ (setTiming fetchNext s).mem = s.mem ∧
    (setTiming fetchNext s).sched = s.sched ∧ (setTiming fetchNext s).hostTime = s.hostTime ∧
    (setTiming fetchNext s).latency = s.latency ∧ (setTiming fetchNext s).draws = s.draws ∧
    (setTiming fetchNext s).stepHalt = s.stepHalt ∧ (setTiming fetchNext s).turns = s.turns := by
  unfold setTiming; split <;> simp

/-- The Timing toggle is written under Normal and holds under Lock (R178, R195). -/
@[simp] theorem setTiming_togTiming (fetchNext : Bool) (s : State) :
    (setTiming fetchNext s).togTiming =
      if s.sw.lockNormal = .normal then fetchNext else s.togTiming := by
  unfold setTiming
  split <;> simp_all

/-- What the halt tests of `executeComplete` keep. -/
@[simp] theorem haltOrGoOn_keeps (s : State) :
    (haltOrGoOn s).a = s.a ∧ (haltOrGoOn s).b = s.b ∧ (haltOrGoOn s).c = s.c ∧
    (haltOrGoOn s).d = s.d ∧ (haltOrGoOn s).r = s.r ∧ (haltOrGoOn s).special = s.special ∧
    (haltOrGoOn s).cop = s.cop ∧ (haltOrGoOn s).togCOMPL = s.togCOMPL ∧
    (haltOrGoOn s).togSIGN = s.togSIGN ∧ (haltOrGoOn s).ct = s.ct ∧
    (haltOrGoOn s).togADDER = s.togADDER ∧ (haltOrGoOn s).togCLEAR = s.togCLEAR ∧
    (haltOrGoOn s).togDPCTR = s.togDPCTR ∧ (haltOrGoOn s).stopOverflow = s.stopOverflow ∧
    (haltOrGoOn s).stopForbidden = s.stopForbidden ∧ (haltOrGoOn s).stopControl = s.stopControl ∧
    (haltOrGoOn s).togTiming = s.togTiming ∧ (haltOrGoOn s).togCST = s.togCST ∧
    (haltOrGoOn s).dispLoop = s.dispLoop ∧ (haltOrGoOn s).dispWrite = s.dispWrite ∧
    (haltOrGoOn s).refused = s.refused ∧ (haltOrGoOn s).sw = s.sw ∧
    (haltOrGoOn s).stubMode = s.stubMode ∧ (haltOrGoOn s).reservedMode = s.reservedMode ∧
    (haltOrGoOn s).opcodes = s.opcodes ∧ (haltOrGoOn s).mem = s.mem ∧
    (haltOrGoOn s).sched = s.sched ∧ (haltOrGoOn s).hostTime = s.hostTime ∧
    (haltOrGoOn s).latency = s.latency ∧ (haltOrGoOn s).draws = s.draws ∧
    (haltOrGoOn s).stepHalt = s.stepHalt ∧ (haltOrGoOn s).turns = s.turns := by
  unfold haltOrGoOn; split <;> [skip; split] <;> simp

/-- What the end of an Execute keeps (R195, R196). -/
@[simp] theorem executeComplete_keeps (s : State) :
    (executeComplete s).a = s.a ∧ (executeComplete s).b = s.b ∧ (executeComplete s).c = s.c ∧
    (executeComplete s).d = s.d ∧ (executeComplete s).r = s.r ∧
    (executeComplete s).special = s.special ∧ (executeComplete s).cop = s.cop ∧
    (executeComplete s).togCOMPL = s.togCOMPL ∧ (executeComplete s).togSIGN = s.togSIGN ∧
    (executeComplete s).ct = s.ct ∧ (executeComplete s).togADDER = s.togADDER ∧
    (executeComplete s).togCLEAR = s.togCLEAR ∧ (executeComplete s).togDPCTR = s.togDPCTR ∧
    (executeComplete s).stopOverflow = s.stopOverflow ∧
    (executeComplete s).stopForbidden = s.stopForbidden ∧
    (executeComplete s).stopControl = s.stopControl ∧ (executeComplete s).togCST = s.togCST ∧
    (executeComplete s).dispLoop = s.dispLoop ∧ (executeComplete s).dispWrite = s.dispWrite ∧
    (executeComplete s).refused = s.refused ∧ (executeComplete s).sw = s.sw ∧
    (executeComplete s).stubMode = s.stubMode ∧ (executeComplete s).reservedMode = s.reservedMode ∧
    (executeComplete s).opcodes = s.opcodes ∧ (executeComplete s).mem = s.mem ∧
    (executeComplete s).sched = s.sched ∧ (executeComplete s).hostTime = s.hostTime ∧
    (executeComplete s).latency = s.latency ∧ (executeComplete s).draws = s.draws ∧
    (executeComplete s).stepHalt = s.stepHalt ∧ (executeComplete s).turns = s.turns := by
  simp [executeComplete]

/-- The tests that halt at the end of an Execute (R196). -/
def haltsAtEnd (s : State) : Prop := s.togBKPT = true ∨ s.sw.stepMode = .step ∨ s.togCST = true

@[simp] theorem executeComplete_togTiming (s : State) :
    (executeComplete s).togTiming = if s.sw.lockNormal = .normal then true else s.togTiming := by
  simp [executeComplete]

@[simp] theorem executeComplete_togBKPT (s : State) : (executeComplete s).togBKPT = false := by
  unfold executeComplete haltOrGoOn
  split <;> [skip; split] <;> simp_all

theorem executeComplete_halts {s : State} (h : haltsAtEnd s) :
    (executeComplete s).phase = .idle ∧ (executeComplete s).stopIdle = true := by
  unfold haltsAtEnd at h
  unfold executeComplete haltOrGoOn
  split <;> [skip; split] <;> simp_all

theorem executeComplete_goesOn {s : State} (h : ¬ haltsAtEnd s) :
    (executeComplete s).phase = .running ∧ (executeComplete s).stopIdle = s.stopIdle := by
  unfold haltsAtEnd at h
  unfold executeComplete haltOrGoOn
  split <;> [skip; split] <;> simp_all

/-! ### Change Conditionally and its injection -/

/-- What Change Conditionally keeps (R245). -/
@[simp] theorem changeConditionally_keeps (addr : Address) (s : State) :
    (changeConditionally addr s).a = s.a ∧ (changeConditionally addr s).b = s.b ∧
    (changeConditionally addr s).d = s.d ∧ (changeConditionally addr s).r = s.r ∧
    (changeConditionally addr s).special = s.special ∧ (changeConditionally addr s).cop = s.cop ∧
    (changeConditionally addr s).togCOMPL = s.togCOMPL ∧
    (changeConditionally addr s).togSIGN = s.togSIGN ∧ (changeConditionally addr s).ct = s.ct ∧
    (changeConditionally addr s).togADDER = s.togADDER ∧
    (changeConditionally addr s).togCLEAR = s.togCLEAR ∧
    (changeConditionally addr s).togDPCTR = s.togDPCTR ∧
    (changeConditionally addr s).stopForbidden = s.stopForbidden ∧
    (changeConditionally addr s).stopControl = s.stopControl ∧
    (changeConditionally addr s).stopIdle = s.stopIdle ∧
    (changeConditionally addr s).togTiming = s.togTiming ∧
    (changeConditionally addr s).togCST = s.togCST ∧
    (changeConditionally addr s).togBKPT = s.togBKPT ∧
    (changeConditionally addr s).dispLoop = s.dispLoop ∧
    (changeConditionally addr s).dispWrite = s.dispWrite ∧
    (changeConditionally addr s).phase = s.phase ∧
    (changeConditionally addr s).refused = s.refused ∧ (changeConditionally addr s).sw = s.sw ∧
    (changeConditionally addr s).stubMode = s.stubMode ∧
    (changeConditionally addr s).reservedMode = s.reservedMode ∧
    (changeConditionally addr s).opcodes = s.opcodes ∧ (changeConditionally addr s).mem = s.mem ∧
    (changeConditionally addr s).sched = s.sched ∧
    (changeConditionally addr s).hostTime = s.hostTime ∧
    (changeConditionally addr s).latency = s.latency ∧
    (changeConditionally addr s).draws = s.draws ∧
    (changeConditionally addr s).stepHalt = s.stepHalt ∧
    (changeConditionally addr s).turns = s.turns := by
  unfold changeConditionally; split <;> simp

/-- The injected Change Conditionally branches and leaves no overflow (R190). -/
theorem injectCC_eq (addr : Address) (s : State) :
    injectCC addr s =
      { s with stopOverflow := false, cop := s.opcodes.cc, c := withControl s.c addr } := by
  simp [injectCC, changeConditionally, branchTo]

@[simp] theorem copOf_changeConditionally (addr : Address) (s : State) :
    copOf (changeConditionally addr s).c = copOf s.c := by
  unfold changeConditionally
  split <;> simp

/-- What the completion of a store keeps (R284, R285). -/
@[simp] theorem storeComplete_keeps (clear : Bool) (s : State) :
    (storeComplete clear s).b = s.b ∧ (storeComplete clear s).c = s.c ∧
    (storeComplete clear s).d = s.d ∧ (storeComplete clear s).r = s.r ∧
    (storeComplete clear s).special = s.special ∧ (storeComplete clear s).cop = s.cop ∧
    (storeComplete clear s).togCOMPL = s.togCOMPL ∧ (storeComplete clear s).togSIGN = s.togSIGN ∧
    (storeComplete clear s).ct = s.ct ∧ (storeComplete clear s).togADDER = s.togADDER ∧
    (storeComplete clear s).togCLEAR = s.togCLEAR ∧ (storeComplete clear s).togDPCTR = s.togDPCTR ∧
    (storeComplete clear s).stopOverflow = s.stopOverflow ∧
    (storeComplete clear s).stopForbidden = s.stopForbidden ∧
    (storeComplete clear s).stopControl = s.stopControl ∧
    (storeComplete clear s).togCST = s.togCST ∧ (storeComplete clear s).dispLoop = s.dispLoop ∧
    (storeComplete clear s).dispWrite = s.dispWrite ∧ (storeComplete clear s).refused = s.refused ∧
    (storeComplete clear s).sw = s.sw ∧ (storeComplete clear s).stubMode = s.stubMode ∧
    (storeComplete clear s).reservedMode = s.reservedMode ∧
    (storeComplete clear s).opcodes = s.opcodes ∧ (storeComplete clear s).mem = s.mem ∧
    (storeComplete clear s).sched = s.sched ∧ (storeComplete clear s).hostTime = s.hostTime ∧
    (storeComplete clear s).latency = s.latency ∧ (storeComplete clear s).draws = s.draws ∧
    (storeComplete clear s).stepHalt = s.stepHalt ∧ (storeComplete clear s).turns = s.turns := by
  unfold storeComplete; split <;> simp

@[simp] theorem storeComplete_a (clear : Bool) (s : State) :
    (storeComplete clear s).a = if clear then 0#44 else s.a := by
  unfold storeComplete
  split <;> simp

/-! ### Accesses -/

/-- A read goes on only at a decimal address, with the word sampled into D (R61, R64). -/
theorem memRead_next {x : Address} {k : Successor} {s t : State} :
    memRead x k s = .next t ↔
      ∃ loc, decodeAddress x = some loc ∧ t = issueAccess loc k { s with d := s.read loc } := by
  unfold memRead
  cases decodeAddress x <;> simp [eq_comm]

/-- A store goes on only at a decimal address, with the word of A in memory (R61, R65). -/
theorem memWrite_next {x : Address} {clearAfter : Bool} {s t : State} :
    memWrite x clearAfter s = .next t ↔
      ∃ loc, decodeAddress x = some loc ∧
        t = issueAccess loc (.storeComplete clearAfter) (s.write loc s.a) := by
  unfold memWrite
  cases decodeAddress x <;> simp [eq_comm]

/-- The two halves of an operand-class instruction (R181, R183). -/
theorem operandInstr_next {addr : Address} {perform : State → Result} {s t : State} :
    operandInstr addr perform s = .next t ↔
      (s.phase = .awaitMem .execWithOperand ∧ ∃ u, perform s = .next u ∧ t = executeComplete u) ∨
      (s.phase ≠ .awaitMem .execWithOperand ∧ ∃ loc, decodeAddress addr = some loc ∧
        t = issueAccess loc .execWithOperand { s with d := s.read loc }) := by
  unfold operandInstr
  split
  · rename_i h
    simp [h, onNext_next]
  · rename_i h
    rw [memRead_next]
    constructor
    · exact fun hr => Or.inr ⟨h, hr⟩
    · rintro (⟨h', -⟩ | ⟨-, hr⟩)
      · exact absurd h' h
      · exact hr

/-- The two halves of a storing instruction (R182, R202). -/
theorem storeInstr_next {addr : Address} {clearAfter : Bool} {s t : State}
    (h : storeInstr addr clearAfter s = .next t) :
    (∃ clear, s.phase = .awaitMem (.storeComplete clear) ∧ t = storeComplete clear s) ∨
      ∃ loc, decodeAddress addr = some loc ∧
        t = issueAccess loc (.storeComplete clearAfter) (s.write loc s.a) := by
  unfold storeInstr at h
  split at h
  · rename_i clear hp
    injection h with h
    exact Or.inl ⟨clear, hp, h.symm⟩
  · exact Or.inr (memWrite_next.mp h)

/-! ### The adder's writes -/

/-- A recorded sum, field by field (R147, R221). -/
theorem recordSum_eq (sum : AddResult) (s : State) :
    recordSum sum s =
      { s with
        a := sum.sum
        togCOMPL := sum.compl
        togSIGN := sum.sign
        ct := sum.ct
        togADDER := Config.freeBit s.draws
        togCLEAR := Config.freeBit (s.draws + 1)
        togDPCTR := Config.freeBit (s.draws + 2)
        draws := s.draws + 3
        stopForbidden := sum.fc || s.stopForbidden
        togCST := sum.fc || s.togCST
        stopOverflow := sum.ovf || s.stopOverflow } := by
  simp [recordSum, applyAdderEvents_eq]

/-- An extract into A, field by field (R150, R221). -/
theorem extractIntoA_eq (v p : Word) (s : State) :
    extractIntoA v p s =
      { s with
        a := (serialExtract v p).merged
        togADDER := Config.freeBit s.draws
        togCLEAR := Config.freeBit (s.draws + 1)
        togDPCTR := Config.freeBit (s.draws + 2)
        draws := s.draws + 3
        stopForbidden := (serialExtract v p).fc || s.stopForbidden
        togCST := (serialExtract v p).fc || s.togCST
        stopOverflow := (serialExtract v p).ovf || s.stopOverflow } := by
  simp [extractIntoA, applyAdderEvents_eq]

/-- An addition into A, when it goes on, records the sum (R147, R221). -/
theorem addIntoA_next {x y : Word} {s t : State} (h : addIntoA x y s = .next t) :
    t = recordSum (serialAdd x y) s := by
  unfold addIntoA at h
  split at h
  · injection h with h
    exact h.symm
  · cases h

/-- What an addition into B keeps (R250, R252). -/
@[simp] theorem addIntoB_keeps (x : Nat) (s : State) :
    (addIntoB x s).a = s.a ∧ (addIntoB x s).c = s.c ∧ (addIntoB x s).d = s.d ∧
    (addIntoB x s).r = s.r ∧ (addIntoB x s).special = s.special ∧ (addIntoB x s).cop = s.cop ∧
    (addIntoB x s).togCOMPL = s.togCOMPL ∧ (addIntoB x s).togSIGN = s.togSIGN ∧
    (addIntoB x s).ct = s.ct ∧ (addIntoB x s).togADDER = s.togADDER ∧
    (addIntoB x s).togCLEAR = s.togCLEAR ∧ (addIntoB x s).togDPCTR = s.togDPCTR ∧
    (addIntoB x s).stopIdle = s.stopIdle ∧ (addIntoB x s).togTiming = s.togTiming ∧
    (addIntoB x s).togBKPT = s.togBKPT ∧ (addIntoB x s).dispLoop = s.dispLoop ∧
    (addIntoB x s).dispWrite = s.dispWrite ∧ (addIntoB x s).phase = s.phase ∧
    (addIntoB x s).refused = s.refused ∧ (addIntoB x s).sw = s.sw ∧
    (addIntoB x s).stubMode = s.stubMode ∧ (addIntoB x s).reservedMode = s.reservedMode ∧
    (addIntoB x s).opcodes = s.opcodes ∧ (addIntoB x s).mem = s.mem ∧
    (addIntoB x s).sched = s.sched ∧ (addIntoB x s).hostTime = s.hostTime ∧
    (addIntoB x s).latency = s.latency ∧ (addIntoB x s).draws = s.draws ∧
    (addIntoB x s).stepHalt = s.stepHalt ∧ (addIntoB x s).turns = s.turns := by
  simp [addIntoB]

/-- An addition into B writes the sum, with its Forbidden Combination (R250, R252). -/
theorem addIntoB_eq (x : Nat) (s : State) :
    addIntoB x s =
      { s with
        b := BitVec.ofNat 16 (packDigits (bcdAddN s.b.toNat x 4 false).digits)
        stopForbidden := (bcdAddN s.b.toNat x 4 false).fc || s.stopForbidden
        togCST := (bcdAddN s.b.toNat x 4 false).fc || s.togCST } := by
  simp [addIntoB, raiseIf_forbidden]

/-! ### The Fetch -/

/-- What the breakpoint test keeps (R174). -/
@[simp] theorem testBreakpoint_keeps (s : State) :
    (testBreakpoint s).a = s.a ∧ (testBreakpoint s).b = s.b ∧ (testBreakpoint s).c = s.c ∧
    (testBreakpoint s).d = s.d ∧ (testBreakpoint s).r = s.r ∧
    (testBreakpoint s).special = s.special ∧ (testBreakpoint s).cop = s.cop ∧
    (testBreakpoint s).togCOMPL = s.togCOMPL ∧ (testBreakpoint s).togSIGN = s.togSIGN ∧
    (testBreakpoint s).ct = s.ct ∧ (testBreakpoint s).togADDER = s.togADDER ∧
    (testBreakpoint s).togCLEAR = s.togCLEAR ∧ (testBreakpoint s).togDPCTR = s.togDPCTR ∧
    (testBreakpoint s).stopOverflow = s.stopOverflow ∧
    (testBreakpoint s).stopForbidden = s.stopForbidden ∧
    (testBreakpoint s).stopControl = s.stopControl ∧ (testBreakpoint s).stopIdle = s.stopIdle ∧
    (testBreakpoint s).togTiming = s.togTiming ∧ (testBreakpoint s).togCST = s.togCST ∧
    (testBreakpoint s).dispLoop = s.dispLoop ∧ (testBreakpoint s).dispWrite = s.dispWrite ∧
    (testBreakpoint s).phase = s.phase ∧ (testBreakpoint s).refused = s.refused ∧
    (testBreakpoint s).sw = s.sw ∧ (testBreakpoint s).stubMode = s.stubMode ∧
    (testBreakpoint s).reservedMode = s.reservedMode ∧ (testBreakpoint s).opcodes = s.opcodes ∧
    (testBreakpoint s).mem = s.mem ∧ (testBreakpoint s).sched = s.sched ∧
    (testBreakpoint s).hostTime = s.hostTime ∧ (testBreakpoint s).latency = s.latency ∧
    (testBreakpoint s).draws = s.draws ∧ (testBreakpoint s).stepHalt = s.stepHalt ∧
    (testBreakpoint s).turns = s.turns := by
  unfold testBreakpoint; split <;> simp

@[simp] theorem testBreakpoint_togBKPT (s : State) :
    (testBreakpoint s).togBKPT = (breakpointMatches s || s.togBKPT) := by
  unfold testBreakpoint
  split <;> simp_all

/-- What the transfer of D to C keeps (R175). -/
@[simp] theorem transferDtoC_keeps (s : State) :
    (transferDtoC s).stopOverflow = s.stopOverflow ∧ (transferDtoC s).stopControl = s.stopControl ∧
    (transferDtoC s).a = s.a ∧ (transferDtoC s).b = s.b ∧ (transferDtoC s).d = s.d ∧
    (transferDtoC s).r = s.r ∧ (transferDtoC s).special = s.special ∧
    (transferDtoC s).togCOMPL = s.togCOMPL ∧ (transferDtoC s).togSIGN = s.togSIGN ∧
    (transferDtoC s).ct = s.ct ∧ (transferDtoC s).togADDER = s.togADDER ∧
    (transferDtoC s).togCLEAR = s.togCLEAR ∧ (transferDtoC s).togDPCTR = s.togDPCTR ∧
    (transferDtoC s).stopIdle = s.stopIdle ∧ (transferDtoC s).togTiming = s.togTiming ∧
    (transferDtoC s).togBKPT = s.togBKPT ∧ (transferDtoC s).dispLoop = s.dispLoop ∧
    (transferDtoC s).dispWrite = s.dispWrite ∧ (transferDtoC s).phase = s.phase ∧
    (transferDtoC s).refused = s.refused ∧ (transferDtoC s).sw = s.sw ∧
    (transferDtoC s).stubMode = s.stubMode ∧ (transferDtoC s).reservedMode = s.reservedMode ∧
    (transferDtoC s).opcodes = s.opcodes ∧ (transferDtoC s).mem = s.mem ∧
    (transferDtoC s).sched = s.sched ∧ (transferDtoC s).hostTime = s.hostTime ∧
    (transferDtoC s).latency = s.latency ∧ (transferDtoC s).draws = s.draws ∧
    (transferDtoC s).stepHalt = s.stepHalt ∧ (transferDtoC s).turns = s.turns := by
  simp [transferDtoC, raiseIf_forbidden]

/-- What the end of a Fetch keeps (R178). -/
@[simp] theorem endFetch_keeps (s : State) :
    (endFetch s).a = s.a ∧ (endFetch s).b = s.b ∧ (endFetch s).c = s.c ∧ (endFetch s).d = s.d ∧
    (endFetch s).r = s.r ∧ (endFetch s).special = s.special ∧ (endFetch s).cop = s.cop ∧
    (endFetch s).togCOMPL = s.togCOMPL ∧ (endFetch s).togSIGN = s.togSIGN ∧ (endFetch s).ct = s.ct ∧
    (endFetch s).togADDER = s.togADDER ∧ (endFetch s).togCLEAR = s.togCLEAR ∧
    (endFetch s).togDPCTR = s.togDPCTR ∧ (endFetch s).stopOverflow = s.stopOverflow ∧
    (endFetch s).stopForbidden = s.stopForbidden ∧ (endFetch s).stopControl = s.stopControl ∧
    (endFetch s).togCST = s.togCST ∧ (endFetch s).togBKPT = s.togBKPT ∧
    (endFetch s).dispLoop = s.dispLoop ∧ (endFetch s).dispWrite = s.dispWrite ∧
    (endFetch s).refused = s.refused ∧ (endFetch s).sw = s.sw ∧ (endFetch s).stubMode = s.stubMode ∧
    (endFetch s).reservedMode = s.reservedMode ∧ (endFetch s).opcodes = s.opcodes ∧
    (endFetch s).mem = s.mem ∧ (endFetch s).sched = s.sched ∧ (endFetch s).hostTime = s.hostTime ∧
    (endFetch s).latency = s.latency ∧ (endFetch s).draws = s.draws ∧
    (endFetch s).stepHalt = s.stepHalt ∧ (endFetch s).turns = s.turns := by
  unfold endFetch; simp only []; split <;> simp

/-- What the completion of a Fetch keeps (R174-R178). -/
@[simp] theorem fetchComplete_keeps (s : State) :
    (fetchComplete s).stopOverflow = s.stopOverflow ∧
    (fetchComplete s).stopControl = s.stopControl ∧ (fetchComplete s).a = s.a ∧
    (fetchComplete s).b = s.b ∧ (fetchComplete s).d = s.d ∧ (fetchComplete s).r = s.r ∧
    (fetchComplete s).special = s.special ∧ (fetchComplete s).togCOMPL = s.togCOMPL ∧
    (fetchComplete s).togSIGN = s.togSIGN ∧ (fetchComplete s).ct = s.ct ∧
    (fetchComplete s).togADDER = s.togADDER ∧ (fetchComplete s).togCLEAR = s.togCLEAR ∧
    (fetchComplete s).togDPCTR = s.togDPCTR ∧ (fetchComplete s).dispLoop = s.dispLoop ∧
    (fetchComplete s).dispWrite = s.dispWrite ∧ (fetchComplete s).refused = s.refused ∧
    (fetchComplete s).sw = s.sw ∧ (fetchComplete s).stubMode = s.stubMode ∧
    (fetchComplete s).reservedMode = s.reservedMode ∧ (fetchComplete s).opcodes = s.opcodes ∧
    (fetchComplete s).mem = s.mem ∧ (fetchComplete s).sched = s.sched ∧
    (fetchComplete s).hostTime = s.hostTime ∧ (fetchComplete s).latency = s.latency ∧
    (fetchComplete s).draws = s.draws ∧ (fetchComplete s).stepHalt = s.stepHalt ∧
    (fetchComplete s).turns = s.turns := by
  simp [fetchComplete]

/-- The order in C after a transfer is the one cached (R175). -/
@[simp] theorem transferDtoC_cop (s : State) : (transferDtoC s).cop = copOf (transferDtoC s).c := by
  simp [transferDtoC]

/-- A Fetch ends halted or running (R178). -/
theorem endFetch_phase (s : State) :
    (endFetch s).phase = if s.togCST then .idle else .running := by
  unfold endFetch
  simp only [setTiming_keeps]
  split <;> simp

theorem endFetch_stopIdle (s : State) :
    (endFetch s).stopIdle = (s.togCST || s.stopIdle) := by
  unfold endFetch
  simp only [setTiming_keeps]
  split <;> simp_all

@[simp] theorem endFetch_togTiming (s : State) :
    (endFetch s).togTiming = if s.sw.lockNormal = .normal then false else s.togTiming := by
  unfold endFetch
  simp only [setTiming_keeps]
  split <;> simp

/-! ### The completion and the steps -/

/-- What the halt left by the host's `step` keeps (R315). -/
@[simp] theorem takeStepHalt_keeps (s : State) :
    (takeStepHalt s).a = s.a ∧ (takeStepHalt s).b = s.b ∧ (takeStepHalt s).c = s.c ∧
    (takeStepHalt s).d = s.d ∧ (takeStepHalt s).r = s.r ∧ (takeStepHalt s).special = s.special ∧
    (takeStepHalt s).cop = s.cop ∧ (takeStepHalt s).togCOMPL = s.togCOMPL ∧
    (takeStepHalt s).togSIGN = s.togSIGN ∧ (takeStepHalt s).ct = s.ct ∧
    (takeStepHalt s).togADDER = s.togADDER ∧ (takeStepHalt s).togCLEAR = s.togCLEAR ∧
    (takeStepHalt s).togDPCTR = s.togDPCTR ∧ (takeStepHalt s).stopOverflow = s.stopOverflow ∧
    (takeStepHalt s).stopForbidden = s.stopForbidden ∧
    (takeStepHalt s).stopControl = s.stopControl ∧ (takeStepHalt s).togTiming = s.togTiming ∧
    (takeStepHalt s).togCST = s.togCST ∧ (takeStepHalt s).togBKPT = s.togBKPT ∧
    (takeStepHalt s).dispLoop = s.dispLoop ∧ (takeStepHalt s).dispWrite = s.dispWrite ∧
    (takeStepHalt s).refused = s.refused ∧ (takeStepHalt s).sw = s.sw ∧
    (takeStepHalt s).stubMode = s.stubMode ∧ (takeStepHalt s).reservedMode = s.reservedMode ∧
    (takeStepHalt s).opcodes = s.opcodes ∧ (takeStepHalt s).mem = s.mem ∧
    (takeStepHalt s).sched = s.sched ∧ (takeStepHalt s).hostTime = s.hostTime ∧
    (takeStepHalt s).latency = s.latency ∧ (takeStepHalt s).draws = s.draws ∧
    (takeStepHalt s).turns = s.turns := by
  unfold takeStepHalt; split <;> [split; skip] <;> simp

@[simp] theorem takeStepHalt_stepHalt (s : State) : (takeStepHalt s).stepHalt = false := by
  unfold takeStepHalt
  split <;> [split; skip] <;> simp_all

theorem takeStepHalt_of_false {s : State} (h : s.stepHalt = false) : takeStepHalt s = s := by
  simp [takeStepHalt, h]

/-- What the enabled agent can do, by the phase (R170, R171). -/
theorem agentStep_next {s t : State} (h : agentStep s = .next t) :
    (s.phase = .idle ∧ t = s) ∨
      (s.phase = .running ∧ processorStep (drawDisplay s) = .next t) ∨
      ∃ k, s.phase = .awaitMem k ∧ completion k (drawDisplay s) = .next t := by
  unfold agentStep at h
  split at h
  · rename_i hp
    injection h with h
    exact Or.inl ⟨hp, h.symm⟩
  · rename_i hp
    exact Or.inr (Or.inl ⟨hp, h⟩)
  · rename_i k hp
    exact Or.inr (Or.inr ⟨k, hp, h⟩)
  · cases h

/-- What a processor step can do (R171, R172). -/
theorem processorStep_next {s t : State} (h : processorStep s = .next t) :
    (s.togCST = true ∧ t = halt s) ∨
      (s.togCST = false ∧ s.togTiming = true ∧ fetch s = .next t) ∨
      (s.togCST = false ∧ s.togTiming = false ∧ execute s = .next t) := by
  unfold processorStep at h
  split at h
  · rename_i hc
    injection h with h
    exact Or.inl ⟨hc, h.symm⟩
  · rename_i hc
    split at h
    · rename_i ht
      exact Or.inr (Or.inl ⟨by simpa using hc, ht, h⟩)
    · rename_i ht
      exact Or.inr (Or.inr ⟨by simpa using hc, by simpa using ht, h⟩)

/-- What an Execute entry can do: halt on a pending fault, run an instruction, or run a reserved code
(R180-R182). -/
theorem dispatchOrder_next {s t : State} (h : dispatchOrder s = .next t) :
    (faultPending s = true ∧ t = executeComplete { s with togCST := true }) ∨
      (faultPending s = false ∧
        ((∃ i, decodeOrder s.opcodes s.cop s.caddr = some i ∧ exec i s = .next t) ∨
          (decodeOrder s.opcodes s.cop s.caddr = none ∧
            (execReservedOperand s = .next t ∨ execReservedNonOperand s = .next t)))) := by
  unfold dispatchOrder decodeClass at h
  split at h
  · rename_i hf
    injection h with h
    exact Or.inl ⟨hf, h.symm⟩
  · rename_i hf
    refine Or.inr ⟨by simpa using hf, ?_⟩
    cases hd : decodeOrder s.opcodes s.cop s.caddr with
    | some i =>
      simp only [hd] at h
      exact Or.inl ⟨i, rfl, h⟩
    | none =>
      simp only [hd] at h
      refine Or.inr ⟨rfl, ?_⟩
      cases hop : isOperandOrder s.cop
      · simp only [hop] at h
        exact Or.inr h
      · simp only [hop] at h
        exact Or.inl h

end Sys2Proof.Machine
end

