-- ==== Sys2Proof/Laws/Exec.lean ====
section
/-! SUPPORT. What `exec` can do, said once for every instruction, and what a step can do by the turn. -/

namespace Sys2Proof.Machine

/-- What performing an instruction keeps, before its Execute ends. -/
structure Performed (s u : State) : Prop where
  d : u.d = s.d
  order : copOf u.c = copOf s.c
  stopIdle : u.stopIdle = s.stopIdle
  togTiming : u.togTiming = s.togTiming
  togBKPT : u.togBKPT = s.togBKPT
  dispLoop : u.dispLoop = s.dispLoop
  dispWrite : u.dispWrite = s.dispWrite
  phase : u.phase = s.phase
  refused : u.refused = s.refused
  sw : u.sw = s.sw
  stubMode : u.stubMode = s.stubMode
  reservedMode : u.reservedMode = s.reservedMode
  opcodes : u.opcodes = s.opcodes
  mem : u.mem = s.mem
  sched : u.sched = s.sched
  hostTime : u.hostTime = s.hostTime
  latency : u.latency = s.latency
  stepHalt : u.stepHalt = s.stepHalt
  turns : u.turns = s.turns

theorem Performed.refl (s : State) : Performed s s := by constructor <;> rfl

/-- An instruction that goes on has issued an operand read, issued a store, or been performed and ended
its Execute; only CNZ, DB and NOR may change the cached order, to that of CC. -/
def ExecShape (i : Instr) (s t : State) : Prop :=
  (i.operandClass = true ∧ ∃ loc,
      t = issueAccess loc .execWithOperand { s with d := s.read loc }) ∨
    (∃ loc clear, t = issueAccess loc (.storeComplete clear) (s.write loc s.a)) ∨
    (∃ u, t = executeComplete u ∧ Performed s u ∧
      (u.cop = s.cop ∨
        (u.cop = s.opcodes.cc ∧
          (encodeOrder s.opcodes i = s.opcodes.cnz ∨ encodeOrder s.opcodes i = s.opcodes.nor ∨
            encodeOrder s.opcodes i = s.opcodes.db))))

theorem performed_recordSum (sum : AddResult) (s : State) : Performed s (recordSum sum s) := by
  rw [recordSum_eq]
  constructor <;> rfl

theorem performed_extractIntoA (v p : Word) (s : State) : Performed s (extractIntoA v p s) := by
  rw [extractIntoA_eq]
  constructor <;> rfl

theorem performed_addIntoB (x : Nat) (s : State) : Performed s (addIntoB x s) := by
  rw [addIntoB_eq]
  constructor <;> rfl

theorem performed_injectCC (addr : Address) (s : State) : Performed s (injectCC addr s) := by
  rw [injectCC_eq]
  constructor <;> simp

theorem Performed.trans {s u v : State} (h : Performed s u) (h' : Performed u v) : Performed s v where
  d := h'.d.trans h.d
  order := h'.order.trans h.order
  stopIdle := h'.stopIdle.trans h.stopIdle
  togTiming := h'.togTiming.trans h.togTiming
  togBKPT := h'.togBKPT.trans h.togBKPT
  dispLoop := h'.dispLoop.trans h.dispLoop
  dispWrite := h'.dispWrite.trans h.dispWrite
  phase := h'.phase.trans h.phase
  refused := h'.refused.trans h.refused
  sw := h'.sw.trans h.sw
  stubMode := h'.stubMode.trans h.stubMode
  reservedMode := h'.reservedMode.trans h.reservedMode
  opcodes := h'.opcodes.trans h.opcodes
  mem := h'.mem.trans h.mem
  sched := h'.sched.trans h.sched
  hostTime := h'.hostTime.trans h.hostTime
  latency := h'.latency.trans h.latency
  stepHalt := h'.stepHalt.trans h.stepHalt
  turns := h'.turns.trans h.turns

/-- An instruction performed without touching the cached order. -/
theorem execShape_performed {i : Instr} {s u : State} (h : Performed s u) (hc : u.cop = s.cop) :
    ExecShape i s (executeComplete u) := Or.inr (Or.inr ⟨u, rfl, h, Or.inl hc⟩)

/-- An operand-class instruction whose second half is an addition into A. -/
theorem execShape_operand_add {i : Instr} {addr : Address} {s t : State} {x y : State → Word}
    (hi : i.operandClass = true)
    (h : operandInstr addr (fun v => addIntoA (x v) (y v) v) s = .next t) : ExecShape i s t := by
  obtain ⟨-, u, hu, rfl⟩ | ⟨-, loc, -, rfl⟩ := operandInstr_next.mp h
  · rw [addIntoA_next hu]
    exact execShape_performed (performed_recordSum _ _) (by rw [recordSum_eq])
  · exact Or.inl ⟨hi, loc, rfl⟩

/-- A storing instruction. -/
theorem execShape_store {i : Instr} {addr : Address} {clear : Bool} {s t : State}
    (h : storeInstr addr clear s = .next t) : ExecShape i s t := by
  obtain ⟨c, -, rfl⟩ | ⟨loc, -, rfl⟩ := storeInstr_next h
  · unfold storeComplete
    apply execShape_performed
    · split
      · constructor <;> rfl
      · exact Performed.refl s
    · split <;> rfl
  · exact Or.inr (Or.inl ⟨loc, _, rfl⟩)

/-- A stub. -/
theorem execShape_stub {i : Instr} {addr : Address} {s t : State}
    (hi : i.operandClass = true) (h : stubInstr addr s = .next t) :
    ExecShape i s t := by
  unfold stubInstr at h
  split at h
  · injection h with h
    exact h ▸ execShape_performed (Performed.refl s) rfl
  · obtain ⟨loc, -, rfl⟩ := memRead_next.mp h
    exact Or.inl ⟨hi, loc, rfl⟩
  · cases h

/-- A counted instruction that keeps the cached order. -/
theorem execShape_counted {i : Instr} {addr : Address} {f : Nat → State → State} {s t : State}
    (hf : ∀ n, Performed s (f n s)) (hc : ∀ n, (f n s).cop = s.cop)
    (h : countedInstr addr f s = .next t) : ExecShape i s t := by
  unfold countedInstr at h
  split at h
  · cases h
  · injection h with h
    exact h ▸ execShape_performed (hf _) (hc _)

/-- What every instruction can do when it goes on. -/
theorem exec_next {i : Instr} {s t : State} (h : exec i s = .next t) : ExecShape i s t := by
  cases i with
  | cira addr =>
    unfold exec execCira at h
    exact execShape_counted (fun n => by constructor <;> rfl) (fun n => rfl) h
  | stc addr => exact execShape_store h
  | cnz addr =>
    injection h with h
    subst h
    split
    · exact execShape_performed (Performed.refl s) rfl
    · exact Or.inr (Or.inr ⟨_, rfl, performed_injectCC addr s, Or.inr ⟨by rw [injectCC_eq], .inl rfl⟩⟩)
  | stop low addr =>
    injection h with h
    exact h ▸ execShape_performed (by constructor <;> rfl) rfl
  | st addr => exact execShape_store h
  | sr addr =>
    unfold exec execSr at h
    exact execShape_counted (fun n => by constructor <;> rfl) (fun n => rfl) h
  | sl addr =>
    unfold exec execSl at h
    exact execShape_counted (fun n => by constructor <;> rfl) (fun n => rfl) h
  | nor addr =>
    injection h with h
    subst h
    split
    · exact Or.inr (Or.inr
        ⟨_, rfl, performed_injectCC addr s, Or.inr ⟨by rw [injectCC_eq], .inr (.inl rfl)⟩⟩)
    · exact execShape_performed (by constructor <;> rfl) rfl
  | adsc addr =>
    obtain ⟨u, hu, rfl⟩ := onNext_next.mp h
    rw [addIntoA_next hu]
    exact execShape_performed (performed_recordSum _ _) (by rw [recordSum_eq])
  | susc addr =>
    obtain ⟨u, hu, rfl⟩ := onNext_next.mp h
    rw [addIntoA_next hu]
    exact execShape_performed (performed_recordSum _ _) (by rw [recordSum_eq])
  | cu addr =>
    injection h with h
    exact h ▸ execShape_performed (by constructor <;> simp) rfl
  | cur addr =>
    injection h with h
    exact h ▸ execShape_performed (by constructor <;> simp) rfl
  | db addr =>
    injection h with h
    subst h
    split
    · exact Or.inr (Or.inr ⟨_, rfl, (performed_addIntoB _ s).trans (performed_injectCC addr _),
        Or.inr ⟨by rw [injectCC_eq]; simp, .inr (.inr rfl)⟩⟩)
    · exact execShape_performed (performed_addIntoB _ s) (by simp)
  | cc addr =>
    injection h with h
    exact h ▸ execShape_performed (by constructor <;> simp) (by simp)
  | ccr addr =>
    injection h with h
    subst h
    split
    · exact execShape_performed (by constructor <;> simp) rfl
    · exact execShape_performed (Performed.refl s) rfl
  | ib addr =>
    injection h with h
    exact h ▸ execShape_performed (performed_addIntoB _ s) (by simp)
  | m addr => exact execShape_stub rfl h
  | div addr => exact execShape_stub rfl h
  | ex addr =>
    unfold exec execEx at h
    obtain ⟨-, u, hu, rfl⟩ | ⟨-, loc, -, rfl⟩ := operandInstr_next.mp h
    · injection hu with hu
      exact hu ▸ execShape_performed (performed_extractIntoA _ _ s) (by rw [extractIntoA_eq])
    · exact Or.inl ⟨rfl, loc, rfl⟩
  | ad addr => exact execShape_operand_add rfl h
  | su addr => exact execShape_operand_add (y := fun v => negWord v.d) rfl h
  | cad addr => exact execShape_operand_add (x := fun _ => zeroWord) rfl h
  | csu addr => exact execShape_operand_add (x := fun _ => zeroWord) (y := fun v => negWord v.d) rfl h
  | fad addr => exact execShape_stub rfl h
  | fsu addr => exact execShape_stub rfl h
  | fm addr => exact execShape_stub rfl h
  | fdiv addr => exact execShape_stub rfl h
  | ada addr => exact execShape_operand_add (y := fun v => absWord v.d) rfl h
  | sua addr => exact execShape_operand_add (y := fun v => negAbsWord v.d) rfl h
  | cada addr => exact execShape_operand_add (x := fun _ => zeroWord) (y := fun v => absWord v.d) rfl h
  | csua addr => exact execShape_operand_add (x := fun _ => zeroWord) (y := fun v => negAbsWord v.d) rfl h

/-- A free-running machine's step is that of its enabled agent (R170). -/
theorem step_of_no_turns {s : State} (hr : s.refused = false) (ht : s.turns = []) :
    step s = agentStep s := by
  simp [step, blockStep, hr, ht]

/-- What a step can do, by whose turn it is (R170; log 13). -/
theorem step_next {s t : State} (h : step s = .next t) :
    s.refused = false ∧
      ((s.turns = [] ∧ agentStep s = .next t) ∨
        (∃ rest, s.turns = .agent :: rest ∧ agentStep { s with turns := rest } = .next t) ∨
        (∃ rest, s.turns = .timer :: rest ∧ timerFires { s with turns := rest } = .next t) ∨
        ∃ op rest, s.turns = .host op :: rest ∧ hostOperation op { s with turns := rest } = .next t) := by
  unfold step blockStep at h
  split at h
  · cases h
  · rename_i hr
    refine ⟨by simpa using hr, ?_⟩
    split at h
    · rename_i ht
      exact Or.inl ⟨ht, h⟩
    · rename_i rest ht
      exact Or.inr (Or.inl ⟨rest, ht, h⟩)
    · rename_i rest ht
      exact Or.inr (Or.inr (Or.inl ⟨rest, ht, h⟩))
    · rename_i op rest ht
      exact Or.inr (Or.inr (Or.inr ⟨op, rest, ht, h⟩))

end Sys2Proof.Machine
end

