-- ==== Sys2Proof/Laws/Frames.lean ====
section
/-! SUPPORT. The end of an Execute in the terms of Safety: its frame, its tests, and that it keeps every
word of memory; that issuing an access samples its latency; and that a placed instruction keeps the
invariant. -/

namespace Sys2Proof.Machine

/-- The end of an Execute is `endsExecute` of the state it began in, when what was performed keeps the
Timing toggle, the breakpoint, the switches and `stopIdle` (R195, R196). -/
theorem endsExecute_of {s u : State} (ht : u.togTiming = s.togTiming) (hb : u.togBKPT = s.togBKPT)
    (hsw : u.sw = s.sw) (hi : u.stopIdle = s.stopIdle) : endsExecute s (executeComplete u) := by
  have hc : (executeComplete u).togCST = u.togCST := by simp
  refine ⟨by simp [ht, hsw], by simp, ?_⟩
  by_cases h : haltsAtEnd u
  · have halted := executeComplete_halts h
    unfold haltsAtEnd at h
    rw [hb, hsw] at h
    rw [if_pos (by rw [hc]; exact h)]
    exact halted
  · have goesOn := executeComplete_goesOn h
    unfold haltsAtEnd at h
    rw [hb, hsw] at h
    rw [if_neg (by rw [hc]; exact h), ← hi]
    exact goesOn

/-- What was performed before the end of an Execute keeps all that `endsExecute` reads. -/
theorem Performed.endsExecute {s u : State} (h : Performed s u) : endsExecute s (executeComplete u) :=
  endsExecute_of h.togTiming h.togBKPT h.sw h.stopIdle

/-- The end of an Execute writes the four fields of `withEndOf` only (R195, R196). -/
theorem executeComplete_frame (u : State) : executeComplete u = withEndOf u (executeComplete u) := by
  unfold executeComplete haltOrGoOn setTiming withEndOf halt
  cases u.sw.lockNormal <;> simp only [] <;> (split <;> [skip; split]) <;> rfl

/-- The same memory holds the same words. -/
theorem sameWords_of {s t : State} (h : t.mem = s.mem) : sameWords s t :=
  fun loc => State.read_congr h loc

/-- The words of memory are kept by what was performed and by the end of the Execute. -/
theorem Performed.sameWords {s u : State} (h : Performed s u) : sameWords s (executeComplete u) :=
  sameWords_of (by simp [h.mem])

/-- The host clock does not go back (R300). -/
theorem hostTime_le_readClock (s : State) : s.hostTime ≤ (readClock s).hostTime := by
  simp [readClock]

/-- Issuing an access samples the latency of its location at the clock's reading (R64, R65, R67). -/
theorem samplesLatency_issueAccess (loc : Location) (k : Successor) (s : State) :
    samplesLatency loc s (issueAccess loc k s) :=
  ⟨rfl, hostTime_le_readClock s⟩

/-- A placed instruction leaves the machine in its invariant (R23; log 18). -/
theorem placeInstruction_inv (w : Word) {s : State} (hm : s.mem.wf = true) (ho : s.opcodes.wf = true) :
    (placeInstruction w s).Inv where
  memory := hm
  idle := by simp [placeInstruction, restart]
  order := .inl (by simp [placeInstruction])
  noIO := by simp [placeInstruction, restart]
  operand := by simp [placeInstruction, restart]
  latched := by simp [placeInstruction]
  map := ho

end Sys2Proof.Machine
end

