-- ==== Sys2Proof/Laws/PerInstr.lean ====
section
/-! SUPPORT. Statements about every instruction as syntax, one lemma per constructor. -/

namespace Sys2Proof.Laws.DecodeEncode

/-- By every well-formed map, the order and address digits of an instruction decode to it
(spec/30_encoding.md R96, R98). -/
def Statement (i : Instr) : Prop :=
  ∀ m : OpcodeMap, m.wf = true → decodeOrder m (encodeOrder m i) (encodeAddress i) = some i

theorem cira (addr : Address) : Statement (.cira addr) := fun m h =>
  decodeOrder_row (row := ⟨"CIRA", m.cira, .cira⟩) h (by simp [OpcodeMap.rows]) addr

theorem stc (addr : Address) : Statement (.stc addr) := fun m h =>
  decodeOrder_row (row := ⟨"STC", m.stc, .stc⟩) h (by simp [OpcodeMap.rows]) addr

theorem cnz (addr : Address) : Statement (.cnz addr) := fun m h =>
  decodeOrder_row (row := ⟨"CNZ", m.cnz, .cnz⟩) h (by simp [OpcodeMap.rows]) addr

theorem stop (low : BitVec 3) (addr : Address) : Statement (.stop low addr) := by
  intro m _
  have h : ∀ low : BitVec 3,
      isStopOrder (0x01#5 ++ low) = true ∧ (0x01#5 ++ low : Order).extractLsb' 0 3 = low := by decide
  simp [decodeOrder, encodeOrder, encodeAddress, h low]

theorem st (addr : Address) : Statement (.st addr) := fun m h =>
  decodeOrder_row (row := ⟨"ST", m.st, .st⟩) h (by simp [OpcodeMap.rows]) addr

theorem sr (addr : Address) : Statement (.sr addr) := fun m h =>
  decodeOrder_row (row := ⟨"SR", m.sr, .sr⟩) h (by simp [OpcodeMap.rows]) addr

theorem sl (addr : Address) : Statement (.sl addr) := fun m h =>
  decodeOrder_row (row := ⟨"SL", m.sl, .sl⟩) h (by simp [OpcodeMap.rows]) addr

theorem nor (addr : Address) : Statement (.nor addr) := fun m h =>
  decodeOrder_row (row := ⟨"NOR", m.nor, .nor⟩) h (by simp [OpcodeMap.rows]) addr

theorem adsc (addr : Address) : Statement (.adsc addr) := fun m h =>
  decodeOrder_row (row := ⟨"ADSC", m.adsc, .adsc⟩) h (by simp [OpcodeMap.rows]) addr

theorem susc (addr : Address) : Statement (.susc addr) := fun m h =>
  decodeOrder_row (row := ⟨"SUSC", m.susc, .susc⟩) h (by simp [OpcodeMap.rows]) addr

theorem cu (addr : Address) : Statement (.cu addr) := fun m h =>
  decodeOrder_row (row := ⟨"CU", m.cu, .cu⟩) h (by simp [OpcodeMap.rows]) addr

theorem cur (addr : Address) : Statement (.cur addr) := fun m h =>
  decodeOrder_row (row := ⟨"CUR", m.cur, .cur⟩) h (by simp [OpcodeMap.rows]) addr

theorem db (addr : Address) : Statement (.db addr) := fun m h =>
  decodeOrder_row (row := ⟨"DB", m.db, .db⟩) h (by simp [OpcodeMap.rows]) addr

theorem cc (addr : Address) : Statement (.cc addr) := fun m h =>
  decodeOrder_row (row := ⟨"CC", m.cc, .cc⟩) h (by simp [OpcodeMap.rows]) addr

theorem ccr (addr : Address) : Statement (.ccr addr) := fun m h =>
  decodeOrder_row (row := ⟨"CCR", m.ccr, .ccr⟩) h (by simp [OpcodeMap.rows]) addr

theorem ib (addr : Address) : Statement (.ib addr) := fun m h =>
  decodeOrder_row (row := ⟨"IB", m.ib, .ib⟩) h (by simp [OpcodeMap.rows]) addr

theorem m (addr : Address) : Statement (.m addr) := fun m h =>
  decodeOrder_row (row := ⟨"M", m.m, .m⟩) h (by simp [OpcodeMap.rows]) addr

theorem div (addr : Address) : Statement (.div addr) := fun m h =>
  decodeOrder_row (row := ⟨"DIV", m.div, .div⟩) h (by simp [OpcodeMap.rows]) addr

theorem ex (addr : Address) : Statement (.ex addr) := fun m h =>
  decodeOrder_row (row := ⟨"EX", m.ex, .ex⟩) h (by simp [OpcodeMap.rows]) addr

theorem ad (addr : Address) : Statement (.ad addr) := fun m h =>
  decodeOrder_row (row := ⟨"AD", m.ad, .ad⟩) h (by simp [OpcodeMap.rows]) addr

theorem su (addr : Address) : Statement (.su addr) := fun m h =>
  decodeOrder_row (row := ⟨"SU", m.su, .su⟩) h (by simp [OpcodeMap.rows]) addr

theorem cad (addr : Address) : Statement (.cad addr) := fun m h =>
  decodeOrder_row (row := ⟨"CAD", m.cad, .cad⟩) h (by simp [OpcodeMap.rows]) addr

theorem csu (addr : Address) : Statement (.csu addr) := fun m h =>
  decodeOrder_row (row := ⟨"CSU", m.csu, .csu⟩) h (by simp [OpcodeMap.rows]) addr

theorem fad (addr : Address) : Statement (.fad addr) := fun m h =>
  decodeOrder_row (row := ⟨"FAD", m.fad, .fad⟩) h (by simp [OpcodeMap.rows]) addr

theorem fsu (addr : Address) : Statement (.fsu addr) := fun m h =>
  decodeOrder_row (row := ⟨"FSU", m.fsu, .fsu⟩) h (by simp [OpcodeMap.rows]) addr

theorem fm (addr : Address) : Statement (.fm addr) := fun m h =>
  decodeOrder_row (row := ⟨"FM", m.fm, .fm⟩) h (by simp [OpcodeMap.rows]) addr

theorem fdiv (addr : Address) : Statement (.fdiv addr) := fun m h =>
  decodeOrder_row (row := ⟨"FDIV", m.fdiv, .fdiv⟩) h (by simp [OpcodeMap.rows]) addr

theorem ada (addr : Address) : Statement (.ada addr) := fun m h =>
  decodeOrder_row (row := ⟨"ADA", m.ada, .ada⟩) h (by simp [OpcodeMap.rows]) addr

theorem sua (addr : Address) : Statement (.sua addr) := fun m h =>
  decodeOrder_row (row := ⟨"SUA", m.sua, .sua⟩) h (by simp [OpcodeMap.rows]) addr

theorem cada (addr : Address) : Statement (.cada addr) := fun m h =>
  decodeOrder_row (row := ⟨"CADA", m.cada, .cada⟩) h (by simp [OpcodeMap.rows]) addr

theorem csua (addr : Address) : Statement (.csua addr) := fun m h =>
  decodeOrder_row (row := ⟨"CSUA", m.csua, .csua⟩) h (by simp [OpcodeMap.rows]) addr

end Sys2Proof.Laws.DecodeEncode
end

