-- ==== Sys2Proof/Laws/Steps.lean ====
section
/-! SUPPORT. What the successors, the reserved codes, the agents and a slice can do, each said once. -/

namespace Sys2Proof.Machine

/-- The end of an Execute is halted or running (R196). -/
theorem executeComplete_phase (u : State) :
    ((executeComplete u).phase = .idle ∧ (executeComplete u).stopIdle = true) ∨
      ((executeComplete u).phase = .running ∧ (executeComplete u).stopIdle = u.stopIdle) := by
  by_cases h : haltsAtEnd u
  · exact .inl (executeComplete_halts h)
  · exact .inr (executeComplete_goesOn h)

/-- A fetch goes on only at a decimal control address (R173). -/
theorem fetch_next {s t : State} (h : fetch s = .next t) :
    ∃ loc, decodeAddress s.ccontrol = some loc ∧
      t = issueAccess loc .fetchComplete { decompose s with d := s.read loc } := by
  obtain ⟨loc, hl, rfl⟩ := memRead_next.mp h
  exact ⟨loc, hl, rfl⟩

/-- What a reserved code can do when it goes on (R293). -/
theorem reserved_next {s t : State}
    (h : execReservedOperand s = .next t ∨ execReservedNonOperand s = .next t) :
    (∃ loc, t = issueAccess loc .execWithOperand { s with d := s.read loc }) ∨
      t = executeComplete s := by
  rcases h with h | h
  · unfold execReservedOperand at h
    split at h
    · obtain ⟨loc, -, h⟩ := memRead_next.mp h
      exact .inl ⟨loc, h⟩
    · cases h
  · unfold execReservedNonOperand at h
    split at h
    · injection h with h
      exact .inr h.symm
    · cases h

/-- What the successor of an operand read can do (R183). -/
theorem executeWithOperand_next {s t : State} (h : executeWithOperand s = .next t) :
    t = executeComplete s ∨
      ∃ i, decodeOrder s.opcodes s.cop s.caddr = some i ∧ i.operandClass = true ∧ exec i s = .next t := by
  unfold executeWithOperand decodeClass at h
  cases hd : decodeOrder s.opcodes s.cop s.caddr with
  | some i =>
    simp only [hd] at h
    split at h
    · exact .inr ⟨i, rfl, ‹_›, h⟩
    · injection h with h
      exact .inl h.symm
  | none =>
    simp only [hd] at h
    cases ho : isOperandOrder s.cop <;> simp only [ho] at h <;> (injection h with h; exact .inl h.symm)

/-- An operand-class instruction whose operand has come is performed and ends its Execute (R183). -/
theorem exec_operandCame {i : Instr} {s t : State} (hi : i.operandClass = true)
    (hp : s.phase = .awaitMem .execWithOperand) (h : exec i s = .next t) :
    ∃ u, t = executeComplete u ∧ Performed s u := by
  have ends : ∃ u, t = executeComplete u := by
    have operand : ∀ {addr perform}, operandInstr addr perform s = .next t →
        ∃ u, t = executeComplete u := by
      intro addr perform h
      obtain ⟨-, u, -, e⟩ | ⟨hn, -⟩ := operandInstr_next.mp h
      · exact ⟨u, e⟩
      · exact absurd hp hn
    have stub : ∀ {addr}, stubInstr addr s = .next t → ∃ u, t = executeComplete u := by
      intro addr h
      simp only [stubInstr, hp] at h
      injection h with h
      exact ⟨s, h.symm⟩
    cases i <;> try cases hi
    all_goals
      simp only [exec, execM, execDiv, execFad, execFsu, execFm, execFdiv, execAd, execSu, execCad,
        execCsu, execAda, execSua, execCada, execCsua, execEx] at h
      first
        | exact operand h
        | exact stub h
  obtain ⟨v, hv⟩ := ends
  have issued : ∀ {k : Successor}, t.phase ≠ .awaitMem k := by
    intro k hk
    obtain ⟨h, -⟩ | ⟨h, -⟩ := executeComplete_phase v <;> rw [← hv, hk] at h <;> cases h
  obtain ⟨-, loc, e⟩ | ⟨loc, clear, e⟩ | ⟨u, e, hu, -⟩ := exec_next h
  · exact absurd (congrArg State.phase e) issued
  · exact absurd (congrArg State.phase e) issued
  · exact ⟨u, e, hu⟩

/-- A successor ends running or halted, and leaves the halt latched for it (R178, R196, R202; log 17). -/
theorem runSuccessor_ends {k : Successor} {s t : State} (hp : s.phase = .awaitMem k)
    (h : runSuccessor k s = .next t) :
    (t.phase = .running ∨ t.phase = .idle ∧ t.stopIdle = true) ∧ t.stepHalt = s.stepHalt := by
  have ends : ∀ u, (executeComplete u).phase = .running ∨
      (executeComplete u).phase = .idle ∧ (executeComplete u).stopIdle = true := fun u =>
    (executeComplete_phase u).symm.imp_left And.left
  cases k with
  | fetchComplete =>
    injection h with h
    subst h
    refine ⟨?_, by simp⟩
    unfold fetchComplete endFetch
    dsimp only
    split
    · exact .inr ⟨rfl, rfl⟩
    · exact .inl rfl
  | execWithOperand =>
    obtain rfl | ⟨i, -, hi, hx⟩ := executeWithOperand_next h
    · exact ⟨ends s, by simp⟩
    · obtain ⟨u, rfl, hu⟩ := exec_operandCame hi hp hx
      exact ⟨ends u, by simp [hu.stepHalt]⟩
  | storeComplete clear =>
    injection h with h
    subst h
    exact ⟨ends _, by simp⟩

/-- What every step of the processor and of the drum keeps. -/
structure AgentKeeps (s t : State) : Prop where
  sw : t.sw = s.sw
  stubMode : t.stubMode = s.stubMode
  reservedMode : t.reservedMode = s.reservedMode
  opcodes : t.opcodes = s.opcodes
  refused : t.refused = s.refused
  turns : t.turns = s.turns
  sched : t.sched = s.sched

theorem AgentKeeps.refl (s : State) : AgentKeeps s s := by constructor <;> rfl

theorem AgentKeeps.trans {s t u : State} (h : AgentKeeps s t) (g : AgentKeeps t u) :
    AgentKeeps s u where
  sw := g.sw.trans h.sw
  stubMode := g.stubMode.trans h.stubMode
  reservedMode := g.reservedMode.trans h.reservedMode
  opcodes := g.opcodes.trans h.opcodes
  refused := g.refused.trans h.refused
  turns := g.turns.trans h.turns
  sched := g.sched.trans h.sched

theorem agentKeeps_executeComplete (s : State) : AgentKeeps s (executeComplete s) := by
  constructor <;> simp

theorem agentKeeps_exec {i : Instr} {s t : State} (h : exec i s = .next t) : AgentKeeps s t := by
  rcases exec_next h with ⟨-, loc, rfl⟩ | ⟨loc, c, rfl⟩ | ⟨u, rfl, hu, -⟩
  · constructor <;> rfl
  · constructor <;> rfl
  · exact AgentKeeps.trans ⟨hu.sw, hu.stubMode, hu.reservedMode, hu.opcodes, hu.refused, hu.turns, hu.sched⟩
      (agentKeeps_executeComplete u)

theorem agentKeeps_dispatchOrder {s t : State} (h : dispatchOrder s = .next t) : AgentKeeps s t := by
  rcases dispatchOrder_next h with ⟨-, rfl⟩ | ⟨-, ⟨i, -, h⟩ | ⟨-, h⟩⟩
  · exact AgentKeeps.trans (t := { s with togCST := true }) (by constructor <;> rfl)
      (agentKeeps_executeComplete _)
  · exact agentKeeps_exec h
  · rcases reserved_next h with ⟨loc, rfl⟩ | rfl
    · constructor <;> rfl
    · exact agentKeeps_executeComplete s

theorem agentKeeps_runSuccessor {k : Successor} {s t : State} (h : runSuccessor k s = .next t) :
    AgentKeeps s t := by
  unfold runSuccessor at h
  split at h
  · injection h with h
    subst h
    constructor <;> simp
  · rcases executeWithOperand_next h with rfl | ⟨i, -, -, h⟩
    · exact agentKeeps_executeComplete s
    · exact agentKeeps_exec h
  · injection h with h
    subst h
    constructor <;> simp

/-- No step of the processor or of the drum touches the switches, the modes, the scheduler or the turns. -/
theorem agentKeeps_agentStep {s t : State} (h : agentStep s = .next t) : AgentKeeps s t := by
  rcases agentStep_next h with ⟨-, rfl⟩ | ⟨-, h⟩ | ⟨k, -, h⟩
  · exact AgentKeeps.refl _
  · refine AgentKeeps.trans (t := drawDisplay s) (by constructor <;> rfl) ?_
    rcases processorStep_next h with ⟨-, rfl⟩ | ⟨-, -, h⟩ | ⟨-, -, h⟩
    · constructor <;> rfl
    · obtain ⟨loc, -, rfl⟩ := fetch_next h
      constructor <;> rfl
    · exact AgentKeeps.trans (t := decompose (drawDisplay s)) (by constructor <;> rfl)
        (agentKeeps_dispatchOrder h)
  · refine AgentKeeps.trans (t := drawDisplay s) (by constructor <;> rfl) ?_
    obtain ⟨u, hu, rfl⟩ := onNext_next.mp h
    refine AgentKeeps.trans (t := accessArrives (drawDisplay s)) (by constructor <;> rfl) ?_
    refine (agentKeeps_runSuccessor hu).trans ?_
    constructor <;> simp

/-- What every agent's step keeps, the loop of a slice keeps. -/
theorem sliceLoop_induct {P : State → Prop} (keep : ∀ s t, P s → agentStep s = .next t → P t)
    {fuel cycles cycles' : Nat} {s u : State} (h : sliceLoop fuel cycles s = .next (cycles', u))
    (h0 : P s) : P u := by
  induction fuel generalizing cycles s with
  | zero =>
    simp only [sliceLoop] at h
    injection h with h
    injection h with _ h
    exact h ▸ h0
  | succ fuel ih =>
    simp only [sliceLoop] at h
    split at h
    · split at h
      · exact ih h (keep _ _ h0 ‹_›)
      · cases h
      · cases h
    · injection h with h
      injection h with _ h
      exact h ▸ h0

/-- A run of one step more, from its first step. -/
theorem core_run_succ {n : Nat} {s t : State} (h : step s = .next t) :
    core.run (n + 1) s = core.run n t := by
  have hc : core.step s = .next t := h
  simp only [Host.Core.run, hc]

@[simp] theorem runCycles_zero (s : State) : runCycles 0 s = 0 := rfl

/-- The cycles of a run of one step more, from its first step (R305). -/
theorem runCycles_succ {n : Nat} {s t : State} (h : step s = .next t) :
    runCycles (n + 1) s = Config.cycleCost (activityOf s) + runCycles n t := by
  simp only [runCycles, h]

/-- A slice that goes on ends in a state that the agents' steps reach, with its cycles counted (R305). -/
theorem runSlice_induct {P : State → Prop} (keep : ∀ s t, P s → agentStep s = .next t → P t)
    {s u : State} (h : runSlice s = .next u) (h0 : P s) :
    ∃ t n, P t ∧ u = { t with sched := { t.sched with totalCycles := n } } := by
  unfold runSlice at h
  split at h
  · injection h with h
    exact ⟨_, _, sliceLoop_induct keep ‹_› h0, h.symm⟩
  · cases h
  · cases h

end Sys2Proof.Machine
end

