-- ==== Sys2Proof/Tests/Slice0.lean ====
section
/-! SUPPORT. Tests: ill-formed terms refused, words of the spec decoded, vectors of
spec/95_test_vectors.md run, and for each obligation with hypotheses a state that meets them. -/

namespace Sys2Proof.Tests

open Sys2Proof Sys2Proof.Machine

/-! ### Helpers -/

/-- A machine about to execute a word, with the control address its digits 10-7 give. -/
def executing (w : Word) : State := { placeInstruction w State.reset with c := w }

/-- A machine whose operand `v` has come for the word `w`, with `x` in A. -/
def operandCame (w v x : Word) : State :=
  { executing w with cop := copOf w, d := v, a := x, phase := .awaitMem .execWithOperand }

/-- What a view of the next state is, if there is one. -/
def after {α : Type} (view : State → α) : Result → Option α
  | .next t => some (view t)
  | .fault _ => none
  | .refused _ => none

/-- What an outcome is refused with, if it is. -/
def refusal : Result → Option Refusal
  | .next _ => none
  | .fault _ => none
  | .refused r => some r

/-! ### Ill-formed terms (R61, R94) -/

theorem test_illformed_operand_address : (Instr.ad 0x01A0#16).wellFormed = false := by decide

theorem test_illformed_store_address : (Instr.st 0x01A2#16).wellFormed = false := by decide

theorem test_illformed_count : (Instr.sr 0x00A3#16).wellFormed = false := by decide

/-- The digits above a count do not matter. -/
theorem test_wellformed_count : (Instr.cira 0xAA13#16).wellFormed = true := by decide

/-- Vector V8, `ST 01A2`. -/
theorem test_illformed_store_refused :
    refusal (exec (.st 0x01A2#16) (executing 0x000001201A2#44)) = some .nonDecimalAddress := by decide

/-- Vector V7, `SR 00A3`. -/
theorem test_illformed_count_refused :
    refusal (exec (.sr 0x00A3#16) (executing 0x000001300A3#44)) = some .nonDecimalCount := by decide

/-! ### Decoding: a word of each row, its order digits from the table of R96 -/

theorem test_decode_cira : decode .default 0x00000010100#44 = some (.cira 0x0100#16) := by decide

theorem test_decode_stc : decode .default 0x00000020100#44 = some (.stc 0x0100#16) := by decide

theorem test_decode_cnz : decode .default 0x00000040100#44 = some (.cnz 0x0100#16) := by decide

theorem test_decode_stop : decode .default 0x000000F0100#44 = some (.stop 0b111#3 0x0100#16) := by decide

theorem test_decode_st : decode .default 0x00000120100#44 = some (.st 0x0100#16) := by decide

theorem test_decode_sr : decode .default 0x00000130100#44 = some (.sr 0x0100#16) := by decide

theorem test_decode_sl : decode .default 0x00000140100#44 = some (.sl 0x0100#16) := by decide

theorem test_decode_nor : decode .default 0x00000150100#44 = some (.nor 0x0100#16) := by decide

theorem test_decode_adsc : decode .default 0x00000160100#44 = some (.adsc 0x0100#16) := by decide

theorem test_decode_susc : decode .default 0x00000170100#44 = some (.susc 0x0100#16) := by decide

theorem test_decode_cu : decode .default 0x00000200100#44 = some (.cu 0x0100#16) := by decide

theorem test_decode_cur : decode .default 0x00000210100#44 = some (.cur 0x0100#16) := by decide

theorem test_decode_db : decode .default 0x00000220100#44 = some (.db 0x0100#16) := by decide

theorem test_decode_cc : decode .default 0x00000280100#44 = some (.cc 0x0100#16) := by decide

theorem test_decode_ccr : decode .default 0x00000290100#44 = some (.ccr 0x0100#16) := by decide

theorem test_decode_ib : decode .default 0x00000320100#44 = some (.ib 0x0100#16) := by decide

theorem test_decode_m : decode .default 0x00000600100#44 = some (.m 0x0100#16) := by decide

theorem test_decode_div : decode .default 0x00000640100#44 = some (.div 0x0100#16) := by decide

theorem test_decode_ex : decode .default 0x00000710100#44 = some (.ex 0x0100#16) := by decide

theorem test_decode_ad : decode .default 0x00000740100#44 = some (.ad 0x0100#16) := by decide

theorem test_decode_su : decode .default 0x00000750100#44 = some (.su 0x0100#16) := by decide

theorem test_decode_cad : decode .default 0x00000760100#44 = some (.cad 0x0100#16) := by decide

theorem test_decode_csu : decode .default 0x00000770100#44 = some (.csu 0x0100#16) := by decide

theorem test_decode_fad : decode .default 0x00000800100#44 = some (.fad 0x0100#16) := by decide

theorem test_decode_fsu : decode .default 0x00000810100#44 = some (.fsu 0x0100#16) := by decide

theorem test_decode_fm : decode .default 0x00000820100#44 = some (.fm 0x0100#16) := by decide

theorem test_decode_fdiv : decode .default 0x00000830100#44 = some (.fdiv 0x0100#16) := by decide

theorem test_decode_ada : decode .default 0x00000840100#44 = some (.ada 0x0100#16) := by decide

theorem test_decode_sua : decode .default 0x00000850100#44 = some (.sua 0x0100#16) := by decide

theorem test_decode_cada : decode .default 0x00000860100#44 = some (.cada 0x0100#16) := by decide

theorem test_decode_csua : decode .default 0x00000870100#44 = some (.csua 0x0100#16) := by decide

/-- The code after the STOP family is no instruction (R95, R98). -/
theorem test_decode_reserved : decode .default 0x00000100100#44 = none ∧ decode .default 0x00000610100#44 = none := by decide

/-- T10: the word of `*CAD 9998` keeps its sign digit. -/
theorem test_decode_sign_digit :
    decodeWord .default 0x10000769998#44 = some ⟨1#4, 0#16, .cad 0x9998#16⟩ := by decide

theorem test_encode_add : encode .default (.ad 0x0100#16) = 0x00000740100#44 := by decide

/-! ### Arithmetic (vectors V5; T1) -/

theorem test_ad_recomplements :
    after (fun t => (t.a, t.stopOverflow, t.togCST, t.ct, t.togCOMPL, t.togSIGN)) (exec (.ad 0x0100#16) (operandCame 0x00000740100#44 0x10000000007#44 0x00000000005#44)) =
      some (0x10000000002#44, false, false, true, true, true) := by decide

theorem test_ad_overflows :
    after (fun t => (t.a, t.stopOverflow, t.togCST, t.ct, t.togCOMPL, t.togSIGN)) (exec (.ad 0x0100#16) (operandCame 0x00000740100#44 0x00000000001#44 0x09999999999#44)) =
      some (0x00000000000#44, true, false, false, false, false) := by decide

theorem test_su_of_equals_is_minus_zero :
    after (fun t => (t.a, t.stopOverflow, t.togCST, t.ct, t.togCOMPL, t.togSIGN)) (exec (.su 0x0100#16) (operandCame 0x00000750100#44 0x00000000005#44 0x00000000005#44)) =
      some (0x10000000000#44, false, false, true, true, true) := by decide

theorem test_cad_keeps_sign :
    after (fun t => (t.a, t.stopOverflow, t.togCST, t.ct, t.togCOMPL, t.togSIGN)) (exec (.cad 0x0100#16) (operandCame 0x00000760100#44 0x10000000042#44 0x00000000123#44)) =
      some (0x10000000042#44, false, false, true, true, true) := by decide

theorem test_cad_forbidden_halts :
    after (fun t => (t.a, t.stopOverflow, t.togCST, t.ct, t.togCOMPL, t.togSIGN)) (exec (.cad 0x0100#16) (operandCame 0x00000760100#44 0x0000000A000#44 0x00000000000#44)) =
      some (0x00000000000#44, false, true, false, false, false) := by decide

theorem test_csu_negates :
    after (fun t => (t.a, t.stopOverflow, t.togCST, t.ct, t.togCOMPL, t.togSIGN)) (exec (.csu 0x0100#16) (operandCame 0x00000770100#44 0x10000000042#44 0x00000000123#44)) =
      some (0x00000000042#44, false, false, false, false, false) := by decide

theorem test_ada_adds_magnitude :
    after (fun t => (t.a, t.stopOverflow, t.togCST, t.ct, t.togCOMPL, t.togSIGN)) (exec (.ada 0x0100#16) (operandCame 0x00000840100#44 0x10000000007#44 0x10000000005#44)) =
      some (0x00000000002#44, false, false, true, true, false) := by decide

theorem test_sua_subtracts_magnitude :
    after (fun t => (t.a, t.stopOverflow, t.togCST, t.ct, t.togCOMPL, t.togSIGN)) (exec (.sua 0x0100#16) (operandCame 0x00000850100#44 0x10000000007#44 0x00000000005#44)) =
      some (0x10000000002#44, false, false, true, true, true) := by decide

theorem test_cada_clears :
    after (fun t => (t.a, t.stopOverflow, t.togCST, t.ct, t.togCOMPL, t.togSIGN)) (exec (.cada 0x0100#16) (operandCame 0x00000860100#44 0x10000000007#44 0x00000000005#44)) =
      some (0x00000000007#44, false, false, false, false, false) := by decide

theorem test_csua_clears :
    after (fun t => (t.a, t.stopOverflow, t.togCST, t.ct, t.togCOMPL, t.togSIGN)) (exec (.csua 0x0100#16) (operandCame 0x00000870100#44 0x00000000007#44 0x00000000005#44)) =
      some (0x10000000007#44, false, false, true, true, true) := by decide

theorem test_ex_masks :
    after (fun t => t.a) (exec (.ex 0x0100#16) (operandCame 0x00000710100#44 0x01111100000#44 0x00123456789#44)) =
      some 0x00123400000#44 := by decide

theorem test_ex_odd_pattern_adds :
    after (fun t => t.a) (exec (.ex 0x0100#16) (operandCame 0x00000710100#44 0x00000033333#44 0x00123456789#44)) =
      some 0x00000079011#44 := by decide

theorem test_adsc_adds_special :
    after (fun t => t.a) (step ({ executing 0x00000160000#44 with a := 0x10000000010#44, special := 0x0006#16 })) =
      some 0x10000000004#44 := by decide

theorem test_susc_subtracts_special :
    after (fun t => t.a) (step ({ executing 0x00000170000#44 with a := 0x00000000010#44, special := 0x0006#16 })) =
      some 0x00000000004#44 := by decide

/-! ### Control (vectors V6; T3) -/

theorem test_stop_halts :
    after (fun t => (t.stopControl, t.togCST, t.stopOverflow, t.stopIdle, t.phase)) (step ({ executing 0x00000080000#44 with stopOverflow := true })) =
      some (true, true, true, true, .idle) := by decide

theorem test_cu_branches :
    after (fun t => t.c) (step (executing 0x00032200040#44)) =
      some 0x00040200040#44 := by decide

theorem test_cur_records_return :
    after (fun t => (t.r, t.ccontrol)) (step ({ executing 0x00032210200#44 with r := 0x1234567890#40 })) =
      some (0x1234560032#40, 0x0200#16) := by decide

theorem test_cc_takes_overflow :
    after (fun t => (t.ccontrol, t.stopOverflow)) (step ({ executing 0x00032280040#44 with stopOverflow := true })) =
      some (0x0040#16, false) := by decide

theorem test_cc_without_overflow :
    after (fun t => t.ccontrol) (step (executing 0x00032280040#44)) =
      some 0x0032#16 := by decide

theorem test_ccr_records_when_taken :
    after (fun t => (t.r, t.ccontrol, t.stopOverflow)) (step ({ executing 0x00051290300#44 with stopOverflow := true, r := 0x1234567890#40 })) =
      some (0x1234560051#40, 0x0300#16, false) := by decide

theorem test_ccr_untaken_records_nothing :
    after (fun t => (t.r, t.ccontrol)) (step ({ executing 0x00051290300#44 with r := 0x1234567890#40 })) =
      some (0x1234567890#40, 0x0051#16) := by decide

theorem test_cnz_branches_on_forbidden_digit :
    after (fun t => (t.ccontrol, t.stopOverflow, t.stopForbidden)) (step ({ executing 0x00032040070#44 with a := 0x0000000000A#44 })) =
      some (0x0070#16, false, false) := by decide

theorem test_cnz_ignores_sign :
    after (fun t => t.ccontrol) (step ({ executing 0x00032040070#44 with a := 0x10000000000#44 })) =
      some 0x0032#16 := by decide

theorem test_db_branches_at_one :
    after (fun t => (t.b, t.ccontrol, t.stopOverflow)) (step ({ executing 0x00032220020#44 with b := 0x0001#16 })) =
      some (0x0000#16, 0x0020#16, false) := by decide

theorem test_db_wraps_without_branch :
    after (fun t => (t.b, t.ccontrol)) (step ({ executing 0x00032220020#44 with b := 0x0000#16 })) =
      some (0x9999#16, 0x0032#16) := by decide

theorem test_ib_carries :
    after (fun t => t.b) (step ({ executing 0x00000320000#44 with b := 0x0009#16 })) =
      some 0x0010#16 := by decide

theorem test_ib_forbidden_halts :
    after (fun t => (t.b, t.stopForbidden, t.togCST, t.stopIdle)) (step ({ executing 0x00000320000#44 with b := 0x000A#16 })) =
      some (0x0000#16, true, true, true) := by decide

/-! ### Shifts, normalize and stores (vectors V7, V8) -/

theorem test_sr_moves_into_r :
    after (fun t => (t.a, t.r)) (step ({ executing 0x00000130003#44 with a := 0x11234567890#44, r := 0x0987654321#40 })) =
      some (0x10001234567#44, 0x8900987654#40) := by decide

theorem test_sr_count_twenty :
    after (fun t => (t.a, t.r)) (step ({ executing 0x00000130020#44 with a := 0x11234567890#44, r := 0x0987654321#40 })) =
      some (0x10000000000#44, 0x0000000000#40) := by decide

theorem test_sl_moves_from_r :
    after (fun t => (t.a, t.r)) (step ({ executing 0x00000140012#44 with a := 0x11234567890#44, r := 0x0987654321#40 })) =
      some (0x18765432100#44, 0x0000000000#40) := by decide

theorem test_cira_count_modulo_ten :
    after (fun t => (t.a, t.r)) (step ({ executing 0x00000010013#44 with a := 0x11234567890#44, r := 0x0987654321#40 })) =
      some (0x14567890123#44, 0x0987654321#40) := by decide

theorem test_nor_counts :
    after (fun t => (t.a, t.r, t.special)) (step ({ executing 0x00000150080#44 with a := 0x00000003400#44, r := 0x0000000056#40 })) =
      some (0x03400000000#44, 0x0056000000#40, 0x0006#16) := by decide

theorem test_nor_minus_zero_branches :
    after (fun t => (t.ccontrol, t.special)) (step ({ executing 0x00032150080#44 with a := 0x10000000000#44, special := 0x0003#16 })) =
      some (0x0080#16, 0x0003#16) := by decide

theorem test_st_wraps_modulo_8000 :
    after (fun t => (t.mem, t.a)) (step ({ executing 0x00000129102#44 with a := 0x00000000077#44 })) =
      some ([(1102, 0x00000000077#44)], 0x00000000077#44) := by decide

theorem test_st_loop_repeats :
    after (fun t => t.mem) (step ({ executing 0x00000124021#44 with a := 0x00000000077#44 })) =
      some [(4001, 0x00000000077#44)] := by decide

theorem test_stc_stores_at_issue :
    after (fun t => (t.mem, t.a, t.phase)) (step ({ executing 0x00000020102#44 with a := 0x10000000077#44 })) =
      some ([(102, 0x10000000077#44)], 0x10000000077#44, .awaitMem (.storeComplete true)) := by decide

theorem test_stc_clears_at_completion :
    after (fun t => (t.a, t.phase)) (exec (.stc 0x0102#16)
      { executing 0x00000020102#44 with a := 0x10000000077#44, phase := .awaitMem (.storeComplete true) }) =
      some (0#44, .running) := by decide

/-! ### Stubs and reserved codes (vectors S7, S8) -/

theorem test_m_reads_its_operand :
    after (fun t => (t.d, t.phase)) (step { executing 0x00000600100#44 with mem := [(100, 7#44)] }) =
      some (7#44, .awaitMem .execWithOperand) := by decide

theorem test_div_reads_its_operand :
    after (fun t => (t.d, t.phase)) (step { executing 0x00000640100#44 with mem := [(100, 7#44)] }) =
      some (7#44, .awaitMem .execWithOperand) := by decide

theorem test_fad_reads_its_operand :
    after (fun t => (t.d, t.phase)) (step { executing 0x00000800100#44 with mem := [(100, 7#44)] }) =
      some (7#44, .awaitMem .execWithOperand) := by decide

theorem test_fsu_reads_its_operand :
    after (fun t => (t.d, t.phase)) (step { executing 0x00000810100#44 with mem := [(100, 7#44)] }) =
      some (7#44, .awaitMem .execWithOperand) := by decide

theorem test_fm_reads_its_operand :
    after (fun t => (t.d, t.phase)) (step { executing 0x00000820100#44 with mem := [(100, 7#44)] }) =
      some (7#44, .awaitMem .execWithOperand) := by decide

theorem test_fdiv_reads_its_operand :
    after (fun t => (t.d, t.phase)) (step { executing 0x00000830100#44 with mem := [(100, 7#44)] }) =
      some (7#44, .awaitMem .execWithOperand) := by decide

theorem test_stub_refused :
    refusal (step { executing 0x00000600100#44 with stubMode := .refuse }) =
      some (.unimplemented 0x60#8) := by decide

theorem test_reserved_refused :
    refusal (step { executing 0#44 with reservedMode := .refuse }) = some (.reserved 0x00#8) := by decide

theorem test_reserved_noop :
    after (fun t => (t.togTiming, t.phase)) (step (executing 0#44)) = some (true, .running) := by decide

/-! ### The adder, the codec and memory (vectors V1 to V4, V9, V10) -/

/-- The row `-7 + 5`, with its CT, COMPL and SIGN. -/
theorem test_serial_add_recomplements :
    serialAdd 0x10000000007#44 0x00000000005#44 =
      ⟨0x10000000002#44, false, false, true, true, false, 9⟩ := by decide

theorem test_serial_add_forbidden_drops_carry :
    (serialAdd 0x1000000000A#44 0x00000000001#44).sum = 0x10000000010#44 := by decide

theorem test_extract_overflows :
    serialExtract 0x09999999999#44 0x03333333333#44 = ⟨0x02222222221#44, true, false⟩ := by decide

theorem test_modification_carries_into_order :
    packDigits (bcdAddN 0x769998 0x0005 6 false).digits = 0x770003 := by decide

theorem test_field_insert_truncates :
    fieldInsert 0x00012740101#53 23 8 0x128 = 0x00012280101#53 := by decide

theorem test_field_transfer :
    fieldTransfer 0#53 39 16 0x00000000042#53 15 = 0x00042000000#53 := by decide

theorem test_address_loop : decodeAddress 0x4999#16 = some (.loop 0 19) := by decide

theorem test_address_modulo : decodeAddress 0x9999#16 = some (.main 1999) := by decide

theorem test_address_non_decimal : decodeAddress 0x00A0#16 = none := by decide

/-- Vector V10, address 33 at 1234.5 ms and one word a millisecond. -/
theorem test_drum_latency_just_missed : drumLatency (locate 33) (2469 / 2) 1 = 199 := by decide +kernel

/-! ### The sequencer (vectors T10, S1, S4, S9) -/

/-- A machine about to fetch at a control address, with this memory. -/
def fetching (control : Address) (mem : Memory) : State :=
  { restart State.reset with c := buildWord 0#4 control 0#8 0#16, mem := mem }

/-- The same machine with the word it fetches, `w`, come into D. -/
def fetched (control : Address) (w : Word) : State :=
  { fetching control [] with d := w, phase := .awaitMem .fetchComplete }

/-- T10: `*CAD 9998` with B = 0005 becomes `CSU 0003`. -/
theorem test_modification_changes_order :
    after (fun t => (t.c, t.cop)) (step { fetched 0x0010#16 0x10000769998#44 with b := 0x0005#16 }) =
      some (0x10011770003#44, 0x77#8) := by decide

/-- S1: the breakpoint digit meets the mask. -/
theorem test_breakpoint_noted :
    after (fun t => (t.c, t.togBKPT, t.phase))
      (step { fetched 0x0010#16 0x20000740100#44 with
        sw := { Switches.atRest with bkptMask := 0b0010#4 } }) =
      some (0x20011740100#44, true, .running) := by decide

/-- S4: a non-decimal B halts at the end of the Fetch. -/
theorem test_forbidden_in_fetch :
    after (fun t => (t.c, t.stopForbidden, t.togTiming, t.phase))
      (step { fetched 0x0010#16 0x10000740100#44 with b := 0x00A0#16 }) =
      some (0x10011740100#44, true, false, .idle) := by decide

/-- S9: a pending overflow halts a store unperformed. -/
theorem test_pending_overflow_halts :
    after (fun t => (t.mem, t.togCST, t.togTiming, t.phase))
      (step { executing 0x00064120102#44 with stopOverflow := true }) =
      some ([], true, true, .idle) := by decide

/-- The control address 9999 wraps to 0000 (V4). -/
theorem test_control_wraps :
    after (fun t => t.ccontrol) (step (fetched 0x9999#16 0x00000740100#44)) = some 0x0000#16 := by decide

/-! ### The opcode map (R96, R97, R190) -/

/-- A map of other codes: AD at 0x70 and CC at 0x30. -/
def otherMap : OpcodeMap := { OpcodeMap.default with ad := 0x70#8, cc := 0x30#8 }

theorem test_other_map_decodes :
    decode otherMap 0x00000700100#44 = some (.ad 0x0100#16) ∧ decode otherMap 0x00000740100#44 = none ∧
    encode otherMap (.ad 0x0100#16) = 0x00000700100#44 := by decide

/-- A map with a code of the STOP family, one of the wrong class, and one twice. -/
theorem test_illformed_maps :
    { OpcodeMap.default with ad := 0x0F#8 }.wf = false ∧ { OpcodeMap.default with ad := 0x5F#8 }.wf = false ∧
    { OpcodeMap.default with ad := 0x75#8 }.wf = false := by decide

/-- The injected CC takes its order from the map, and consumes a pending overflow by it. -/
theorem test_other_map_runs :
    after (fun t => (t.ccontrol, t.cop)) (step
      { executing 0x00000040070#44 with opcodes := otherMap, a := 1#44 }) = some (0x0070#16, 0x30#8) ∧
    after (fun t => (t.ccontrol, t.stopOverflow)) (step
      { executing 0x00000300040#44 with opcodes := otherMap, stopOverflow := true }) =
      some (0x0040#16, false) := by decide

/-! ### The host's question -/

theorem test_decode_table_word : decodeTableWord 48 0x740100 = some (.ad 0x0100#16) := by decide

/-- The placed word's order is cached with it (R23). -/
theorem test_with_fetch_word_order :
    (State.reset.withFetchWord 48 0x740100).cop = copOf (State.reset.withFetchWord 48 0x740100).c := by
  decide

theorem test_with_fetch_word :
    after (fun t => t.phase) (step (State.reset.withFetchWord 48 0x740100)) =
      some (.awaitMem .execWithOperand) := by decide

/-! ### Witnesses: a state and operands that meet the hypotheses of each obligation that has some -/

/-- The default map, and one of other codes. -/
theorem witness_DecodeWordInvertsEncodeWord : OpcodeMap.default.wf = true ∧ otherMap.wf = true := by
  decide

theorem witness_EncodeWordInvertsDecodeWord :
    decodeWord .default 0x10000740100#44 = some ⟨1#4, 0#16, .ad 0x0100#16⟩ := by decide

/-- The first and the last order of the STOP family, and a reserved code on each side of 0x60. -/
theorem witness_DecodeClassPartitionsTheCodes :
    (0x08#8 &&& 0xF8#8 = 0x08#8 ∧ 0x0F#8 &&& 0xF8#8 = 0x08#8) ∧ OpcodeMap.default.wf = true ∧
    decodeClass .default 0x5F#8 0#16 = .reservedNonOperand ∧
    decodeClass .default 0x61#8 0#16 = .reservedOperand ∧
    decodeClass .default 0x60#8 0x0100#16 = .instr (.m 0x0100#16) := by decide

/-- The widest field ending at its bit. -/
theorem witness_InsertOfIsolatedFieldIsIdentity : 24 ≤ 23 + 1 := by decide

/-- The widest field of all with no bit outside, an empty field at the low end with bits above, and a transfer
from the lowest field to the highest. -/
theorem witness_InsertReplacesExactlyTheField :
    (52 ≤ 52 ∧ 53 ≤ 52 + 1) ∧ (0 ≤ 52 ∧ 0 ≤ 0 + 1 ∧ 1 ≤ 52 ∧ 0 < 1) ∧
    (15 ≤ 52 ∧ 16 ≤ 15 + 1 ∧ 16 ≤ 52 ∧ 15 < 16) ∧ (0 < fieldLow 23 8) ∧
    (52 ≤ 52 ∧ 8 ≤ 52 + 1 ∧ 7 ≤ 52 ∧ 8 ≤ 7 + 1 ∧ 44 < fieldLow 52 8) := by decide

theorem witness_BitOperationsTouchOneBit : 52 ≤ 52 ∧ 0 ≤ 52 := by decide

theorem witness_ViewsAreCodecFields : (1 ≤ 1 ∧ 1 ≤ 11) ∧ 1 ≤ 11 ∧ 11 ≤ 11 := by decide

/-- The last bit and the widest field, and what is just out of range of each. -/
theorem witness_CodecCallsAnswerExactlyInRange :
    52 ≤ 52 ∧ (52 ≤ 52 ∧ 53 ≤ 52 + 1) ∧ 52 < 53 ∧ (52 < 53 ∨ 53 + 1 < 1) ∧ (52 < 3 ∨ 3 + 1 < 5) := by
  decide

/-- The least overflow, the largest sum that fits, and a zero result. -/
theorem witness_SerialAddIsSignedDecimalAddition :
    validWord 0x09999999999#44 = true ∧ validWord 0x00000000001#44 = true ∧
    (serialAdd 0x09999999999#44 0x00000000001#44).ovf = true ∧
    (serialAdd 0x09999999999#44 0x00000000000#44).ovf = false ∧
    validWord 0x10000000001#44 = true ∧
    signedValue 0x10000000001#44 + signedValue 0x00000000001#44 = 0 := by decide

/-- A forbidden nibble at each end of the magnitude, decimal digits, and a top digit of 0, 1 and 9. -/
theorem witness_AdderPassesDigitByDigit :
    (9 < digit 0x0A000000000#44 10 ∨ 9 < digit 0#44 10) ∧ (9 < digit 0#44 1 ∨ 9 < digit 0x0000000000F#44 1) ∧
    (digit 0x09999999999#44 1 ≤ 9 ∧ digit 0x00000000001#44 1 ≤ 9) ∧
    (serialAdd 0x00000000001#44 0x00000000001#44).top = 0 ∧
    (serialAdd 0x09999999999#44 0x00000000001#44).top = 1 ∧
    (serialAdd 0x00000000005#44 0x10000000003#44).top = 9 := by decide

/-- Each clause: forbidden nibbles in the value and in the pattern, an even digit, an odd one at the ends
of its range, the sign digit at both, and a pattern of 0s and 1s. -/
theorem witness_ExtractReplacesAndMasks :
    (9 < digit 0x0000000A000#44 4 ∨ 9 < digit 0#44 4) ∧ (9 < digit 0#44 1 ∨ 9 < digit 0x0000000000F#44 1) ∧
    (digit 0x08888888889#44 10 ≤ 9 ∧ digit 0x08888888889#44 10 % 2 = 0) ∧
    (digit 0x08888888889#44 1 ≤ 9 ∧ digit 0x08888888889#44 1 % 2 = 1) ∧
    (digit 0x00000000001#44 1 ≤ 9 ∧ digit 0x00000000001#44 1 % 2 = 1) ∧
    (9 < digit 0xA0000000000#44 11 ∨ 9 < digit 0#44 11) ∧
    (digit 0x90000000000#44 11 ≤ 9 ∧ digit 0x80000000000#44 11 ≤ 9) ∧
    validWord 0x91234567890#44 = true ∧
    (∀ k ∈ List.range' 1 11, digit 0x11111100000#44 k ≤ 1) := by decide

theorem witness_UnsignedAddIsDecimalAddition :
    allDecimal (digitsOf 4 0x9999) = true ∧ allDecimal (digitsOf 4 0x0001) = true := by decide

/-- The ends of main memory and of the loops, and an address of neither. -/
theorem witness_AddressesReachTheirWords :
    validAddress 0x3999#16 = true ∧ addressValue 0x3999#16 % 8000 < 4000 ∧
    validAddress 0x4000#16 = true ∧ 4000 ≤ addressValue 0x4000#16 % 8000 ∧
    validAddress 0x7999#16 = true ∧ 4000 ≤ addressValue 0x7999#16 % 8000 ∧
    validAddress 0x8000#16 = true ∧ addressValue 0x8000#16 % 8000 < 4000 ∧
    validAddress 0x00A0#16 = false := by decide

theorem witness_StoredWordIsSeenByEveryLaterRead :
    decodeAddress 0x4021#16 = some (.loop 0 1) ∧ decodeAddress 0x4001#16 = some (.loop 0 1) ∧
    Location.loop 0 2 ≠ .loop 0 1 ∧
    ∃ t u : State, memWrite 0x4021#16 false (executing 0#44) = .next t ∧
      u.read (.loop 0 1) = t.read (.loop 0 1) :=
  ⟨by decide, by decide, by decide, _, _, rfl, rfl⟩

theorem witness_OperandInstructionsReadTheirOperand :
    (executing 0x00000740100#44).phase ≠ .awaitMem .execWithOperand ∧
    decodeAddress 0x0100#16 = some (.main 100) := by decide

theorem witness_AdderInstructionsRecordTheirSum :
    (operandCame 0x00000740100#44 5#44 7#44).phase = .awaitMem .execWithOperand := rfl

theorem witness_ExtractMergesIntoA :
    (operandCame 0x00000710100#44 1#44 5#44).phase = .awaitMem .execWithOperand := rfl

/-- A sum that fits exactly, and one past the largest; an ADSC in an Execute, whose D is no valid word. -/
theorem witness_ArithmeticComputesSignedDecimals :
    (operandCame 0x00000740100#44 0x00000000001#44 0x09999999999#44).phase =
      .awaitMem .execWithOperand ∧
    validWord 0x09999999999#44 = true ∧ validWord 0x00000000001#44 = true ∧
    9999999999 < (signedValue 0x09999999999#44 + signedValue 0x00000000001#44).natAbs ∧
    (signedValue 0x09999999999#44 + signedValue 0x00000000000#44).natAbs ≤ 9999999999 ∧
    (let s : State := { executing 0x00000160000#44 with d := 0x0000000000A#44, special := 0x0009#16 }
     validWord s.a = true ∧ validAddress s.special = true ∧ s.phase = .running) := by decide

theorem witness_StubsReadTheirOperandAndDoNothing :
    (operandCame 0x00000600100#44 0#44 0#44).phase = .awaitMem .execWithOperand ∧
    (executing 0x00000600100#44).phase ≠ .awaitMem .execWithOperand ∧
    (executing 0x00000600100#44).stubMode = .noop ∧
    decodeAddress 0x0100#16 = some (.main 100) := by decide

theorem witness_StubsAreRefusedInRefuseMode :
    ({ executing 0x00000600100#44 with stubMode := .refuse } : State).phase = .running ∧
    ({ executing 0x00000600100#44 with stubMode := .refuse } : State).stubMode = .refuse := by decide

/-- A reserved code just below 0x60 and one above it. -/
theorem witness_ReservedCodesFollowReservedMode :
    (let s := decompose (executing 0x000005F0100#44)
     faultPending s = false ∧ decodeOrder s.opcodes s.cop s.caddr = none ∧ s.reservedMode = .noop ∧
       s.cop.toNat < 0x60) ∧
    (let s := decompose (executing 0x00000610100#44)
     faultPending s = false ∧ decodeOrder s.opcodes s.cop s.caddr = none ∧ s.reservedMode = .noop ∧
       0x60 ≤ s.cop.toNat ∧ decodeAddress s.caddr = some (.main 100)) ∧
    ({ executing 0#44 with reservedMode := .refuse } : State).reservedMode = .refuse := by decide

theorem witness_ConditionalBranchesConsumeOverflow :
    ({ executing 0x00000280040#44 with stopOverflow := true } : State).stopOverflow = true ∧
    (executing 0x00000280040#44).stopOverflow = false ∧
    copOf (executing 0x00000280040#44).c = (executing 0x00000280040#44).opcodes.cc ∧
    copOf (executing 0x00000290040#44).c = (executing 0x00000290040#44).opcodes.ccr := by decide

/-- Minus zero does not branch; the least magnitude does. -/
theorem witness_ChangeOnNonZeroTestsMagnitude :
    (0x10000000000#44).toNat % 2 ^ 40 = 0 ∧ (0x00000000001#44).toNat % 2 ^ 40 ≠ 0 := by decide

theorem witness_DecreaseBCountsDownAndBranches :
    (validAddress 0x0001#16 = true ∧ addressValue 0x0001#16 ≠ 0) ∧
    (validAddress 0x9999#16 = true ∧ addressValue 0x9999#16 ≠ 0) ∧
    (validAddress 0x0000#16 = true ∧ addressValue 0x0000#16 = 0) ∧
    validAddress 0x00A4#16 = false := by decide

theorem witness_IncreaseBCountsUp :
    validAddress 0x9999#16 = true ∧ validAddress 0x000A#16 = false := by decide

/-- The least and the greatest count, under any higher digits, and a count that is none. -/
theorem witness_ShiftsMoveTheTwentyDigits :
    allDecimal (digitsOf 2 (0x0000#16).toNat) = true ∧
    allDecimal (digitsOf 2 (0xFF99#16).toNat) = true ∧
    allDecimal (digitsOf 2 (0x00A3#16).toNat) = false := by decide

theorem witness_CirculateRotatesTheMagnitude :
    allDecimal (digitsOf 2 (0x0013#16).toNat) = true ∧
    allDecimal (digitsOf 2 (0x001A#16).toNat) = false := by decide

/-- An operand address, the operand address of a reserved code, and a control address, the last with one
forbidden digit at either end. -/
theorem witness_NonDecimalAddressesAreRefused :
    ((executing 0x000006001A2#44).phase = .running ∧ validAddress 0x01A2#16 = false ∧
      (executing 0x000006001A2#44).stubMode = .noop) ∧
    (let s := decompose (executing 0x0000061010A#44)
     faultPending s = false ∧ decodeOrder s.opcodes s.cop s.caddr = none ∧ s.reservedMode = .noop ∧
       0x60 ≤ s.cop.toNat ∧ validAddress s.caddr = false) ∧
    (let s := fetching 0xA000#16 []
     freeRunning s ∧ s.phase = .running ∧ s.togCST = false ∧ s.togTiming = true ∧
       validAddress s.ccontrol = false) ∧
    validAddress (fetching 0x999A#16 []).ccontrol = false :=
  ⟨by decide, by decide, ⟨⟨rfl, rfl⟩, rfl, rfl, rfl, by decide⟩, by decide⟩

/-- The least magnitude, which takes nine digits, one that takes none, and zero. -/
theorem witness_NormalizeShiftsOrBranches :
    magnitude 0x00000000001#44 ≠ 0#40 ∧ magnitude 0x01234567890#44 ≠ 0#40 ∧
    magnitude 0x10000000000#44 = 0#40 := by decide

theorem witness_StoresWriteExactlyTheirWord :
    (∀ clear, (executing 0x00000120102#44).phase ≠ .awaitMem (.storeComplete clear)) ∧
    decodeAddress 0x0102#16 = some (.main 102) ∧ Location.main 103 ≠ .main 102 := by decide

theorem witness_StoresCompleteByEndingTheExecute :
    ({ executing 0x00000020102#44 with phase := .awaitMem (.storeComplete true) } : State).phase =
      .awaitMem (.storeComplete true) := rfl

/-- An instruction, and a reserved code on each side of 0x60. -/
theorem witness_StepRunsTheInstructionInC :
    (let s := executing 0x00000740100#44
     freeRunning s ∧ s.phase = .running ∧ s.togCST = false ∧ s.togTiming = false ∧
       decode s.opcodes s.c = some (.ad 0x0100#16) ∧ faultPending (decompose s) = false) ∧
    (let s := executing 0x00000610100#44
     freeRunning s ∧ s.phase = .running ∧ s.togCST = false ∧ s.togTiming = false ∧
       decode s.opcodes s.c = none ∧ 0x60 ≤ (copOf s.c).toNat ∧ faultPending (decompose s) = false) ∧
    (let s := executing 0x000005F0100#44
     freeRunning s ∧ s.phase = .running ∧ s.togCST = false ∧ s.togTiming = false ∧
       decode s.opcodes s.c = none ∧ (copOf s.c).toNat < 0x60 ∧ faultPending (decompose s) = false) :=
  ⟨⟨⟨rfl, rfl⟩, rfl, rfl, rfl, by decide, by decide⟩,
    ⟨⟨rfl, rfl⟩, rfl, rfl, rfl, by decide, by decide, by decide⟩,
    ⟨⟨rfl, rfl⟩, rfl, rfl, rfl, by decide, by decide, by decide⟩⟩

/-- Each successor, and an operand-class instruction whose operand has come. -/
theorem witness_CompletionRunsTheOperandInstruction :
    (freeRunning (fetched 0x0010#16 0#44) ∧ (fetched 0x0010#16 0#44).phase = .awaitMem .fetchComplete) ∧
    (let s : State := { executing 0x00000020102#44 with phase := .awaitMem (.storeComplete true) }
     freeRunning s ∧ s.phase = .awaitMem (.storeComplete true)) ∧
    (let s := operandCame 0x00000740100#44 5#44 7#44
     freeRunning s ∧ s.phase = .awaitMem .execWithOperand ∧ s.cop = copOf s.c ∧
       decode s.opcodes s.c = some (.ad 0x0100#16) ∧ (Instr.ad 0x0100#16).operandClass = true) :=
  ⟨⟨⟨rfl, rfl⟩, rfl⟩, ⟨⟨rfl, rfl⟩, rfl⟩, ⟨rfl, rfl⟩, rfl, rfl, by decide, rfl⟩

theorem witness_AddRunsInTwoSteps :
    freeRunning (executing 0x00000740100#44) ∧ (executing 0x00000740100#44).phase = .running ∧
    (executing 0x00000740100#44).togCST = false ∧ (executing 0x00000740100#44).togTiming = false ∧
    (executing 0x00000740100#44).stopOverflow = false ∧
    (executing 0x00000740100#44).stopForbidden = false ∧
    (executing 0x00000740100#44).stepHalt = false ∧
    decode .default (executing 0x00000740100#44).c = some (.ad 0x0100#16) ∧
    decodeAddress 0x0100#16 = some (.main 100) :=
  ⟨⟨rfl, rfl⟩, rfl, rfl, rfl, rfl, rfl, rfl, by decide, by decide⟩

/-- At the last control address, which wraps: a plain word, one to be modified, and one whose modification
meets a forbidden digit. -/
theorem witness_FetchRunsInTwoSteps :
    (let s := fetching 0x9999#16 [(1999, 0x00000740100#44)]
     freeRunning s ∧ s.phase = .running ∧ s.togCST = false ∧ s.togTiming = true ∧ s.stepHalt = false ∧
       decodeAddress s.ccontrol = some (.main 1999) ∧ signBit (s.read (.main 1999)) = false) ∧
    (let s := fetching 0x9999#16 [(1999, 0x10000740100#44)]
     signBit (s.read (.main 1999)) = true ∧ modificationForbidden (s.read (.main 1999)) s.b = false) ∧
    (let s := fetching 0x9999#16 [(1999, 0x1000074010A#44)]
     signBit (s.read (.main 1999)) = true ∧ modificationForbidden (s.read (.main 1999)) s.b = true) :=
  ⟨⟨⟨rfl, rfl⟩, rfl, rfl, rfl, rfl, by decide, by decide⟩, by decide, by decide⟩

/-- A sum whose carry leaves the sixth digit. -/
theorem witness_BModificationAddsSixDigits :
    let s : State := { fetched 0x0010#16 0x10000999999#44 with b := 0x0001#16 }
    signBit s.d = true ∧ validAddress s.b = true ∧ allDecimal (digitsOf 6 s.d.toNat) = true := by
  decide

/-- A forbidden digit in B, in the address, in the order, and in the control address. -/
theorem witness_ForbiddenInFetchHalts :
    modificationForbidden 0x10000740100#44 0x00A0#16 = true ∧
    modificationForbidden 0x100007401F0#44 0x0000#16 = true ∧
    modificationForbidden 0x10000A40100#44 0x0000#16 = true ∧
    validAddress (fetched 0x00A0#16 0x00000740100#44).ccontrol = false ∧
    signBit (fetched 0x00A0#16 0x00000740100#44).d = false := by decide

/-- An order that the pending fault stops, the last of the STOP family, CC and CCR. -/
theorem witness_PendingFaultHaltsUnperformed :
    (let s : State := { executing 0x00064120102#44 with stopOverflow := true }
     freeRunning s ∧ s.phase = .running ∧ s.togCST = false ∧ s.togTiming = false ∧
       s.stopOverflow = true ∧ copOf s.c &&& 0xF8#8 ≠ 0x08#8 ∧ copOf s.c ≠ s.opcodes.cc ∧
       copOf s.c ≠ s.opcodes.ccr) ∧
    copOf 0x000000F0000#44 &&& 0xF8#8 = 0x08#8 ∧
    copOf 0x00000280040#44 = (executing 0x00000280040#44).opcodes.cc ∧
    copOf 0x00000290040#44 = (executing 0x00000290040#44).opcodes.ccr :=
  ⟨⟨⟨rfl, rfl⟩, rfl, rfl, rfl, rfl, by decide, by decide, by decide⟩, by decide, by decide, by decide⟩

theorem witness_HaltRequestIsTakenFirst :
    let s : State := { executing 0x00000740100#44 with togCST := true }
    freeRunning s ∧ s.phase = .running ∧ s.togCST = true := ⟨⟨rfl, rfl⟩, rfl, rfl⟩

/-- Each clause: Lock, the end of a Fetch, the end of an Execute, an Execute and a Fetch begun. -/
theorem witness_TimingAlternatesUnderNormal :
    (∃ t, freeRunning (executing 0x00000200040#44) ∧ step (executing 0x00000200040#44) = .next t ∧
      (executing 0x00000200040#44).sw.lockNormal = .normal ∧
      (executing 0x00000200040#44).phase = .running ∧ (executing 0x00000200040#44).togCST = false ∧
      (executing 0x00000200040#44).togTiming = false) ∧
    (∃ t, freeRunning (fetched 0x0010#16 0#44) ∧ step (fetched 0x0010#16 0#44) = .next t ∧
      (fetched 0x0010#16 0#44).phase = .awaitMem .fetchComplete) ∧
    (∃ t, freeRunning (operandCame 0x00000740100#44 5#44 7#44) ∧
      step (operandCame 0x00000740100#44 5#44 7#44) = .next t ∧
      (operandCame 0x00000740100#44 5#44 7#44).phase = .awaitMem .execWithOperand) ∧
    (∃ t, freeRunning (fetching 0x0010#16 []) ∧ step (fetching 0x0010#16 []) = .next t ∧
      (fetching 0x0010#16 []).phase = .running ∧ (fetching 0x0010#16 []).togCST = false ∧
      (fetching 0x0010#16 []).togTiming = true) ∧
    (∃ t, step { executing 0x00000200040#44 with sw := { Switches.atRest with lockNormal := .lock } } =
      .next t) :=
  ⟨⟨_, ⟨rfl, rfl⟩, rfl, rfl, rfl, rfl, rfl⟩, ⟨_, ⟨rfl, rfl⟩, rfl, rfl⟩, ⟨_, ⟨rfl, rfl⟩, rfl, rfl⟩,
    ⟨_, ⟨rfl, rfl⟩, rfl, rfl, rfl, rfl⟩, ⟨_, rfl⟩⟩

theorem witness_StartResetsFaultsAndRuns :
    State.reset.phase = .idle ∧ State.reset.sw.skip = false := ⟨rfl, rfl⟩

/-- A halted machine, a running one, and one whose access is outstanding and then completes. -/
theorem witness_StopIsTakenAtTheBoundary :
    State.reset.phase ≠ .running ∧ (executing 0x00000740100#44).phase = .running ∧
    (operandCame 0x00000740100#44 5#44 7#44).phase = .awaitMem .execWithOperand ∧
    ∃ u, completion .execWithOperand (stopRun (operandCame 0x00000740100#44 5#44 7#44)) = .next u :=
  ⟨by decide, rfl, rfl, _, rfl⟩

theorem witness_ClearAndClearControlReset : State.reset.phase = .idle := rfl

/-- No turn and each turn, with and without a pending call; a machine in Idle and a step that leaves it; a
machine not in Idle, one with the skip switch on, and one marked refused. -/
theorem witness_TurnsPerformWhatIsEnabled :
    (State.reset.refused = false ∧ State.reset.turns = []) ∧ State.reset.phase = .idle ∧
    (let s : State := { State.reset with turns := [.host .start] }
     s.phase = .idle ∧ after (fun t => decide (t.phase ≠ .idle)) (step s) = some true) ∧
    (let s : State := { State.reset with turns := [.host .start, .agent, .timer] }
     s.refused = false ∧ s.turns = .host .start :: [.agent, .timer]) ∧
    (let s : State := { State.reset with turns := [.timer] }
     s.turns = .timer :: [] ∧ s.sched.token = none) ∧
    ({ State.reset with
        turns := [.timer], sched := { Scheduler.atLaunch with token := some ⟨7⟩ } } : State).sched.token =
      some ⟨7⟩ ∧
    (executing 0x00000740100#44).phase ≠ .idle ∧
    (let s : State := { State.reset with sw := { Switches.atRest with skip := true } }
     s.phase = .idle ∧ s.sw.skip = true) ∧
    ({ State.reset with refused := true } : State).refused = true := by decide

/-- A machine that repeats a reserved code under Lock. -/
def repeating (s : State) : Prop :=
  s.phase = .running ∧ s.togCST = false ∧ s.togTiming = false ∧ s.togBKPT = false ∧
  s.stopOverflow = false ∧ s.stopForbidden = false ∧ s.stopIdle = false ∧ s.c = 0#44 ∧
  s.opcodes = .default ∧ s.reservedMode = .noop ∧
  s.sw.lockNormal = .lock ∧ s.sw.stepMode = .continuous

theorem repeating_step {s : State} (h : repeating s) :
    ∃ t, agentStep s = .next t ∧ repeating t := by
  obtain ⟨h1, h2, h3, h4, h5, h6, h7, h8, h9, h10, h11, h12⟩ := h
  have hd : decodeClass .default (copOf 0#44) (addressOf 0#44) = .reservedNonOperand := by decide
  refine ⟨executeComplete (decompose (drawDisplay s)), ?_, ?_⟩
  · simp [agentStep, h1, processorStep, h2, h3, execute, dispatchOrder, faultPending, h5, h6, State.caddr,
      h8, h9, hd, execReservedNonOperand, h10]
  · simp [repeating, executeComplete, haltOrGoOn, setTiming, h2, h3, h4, h5, h6, h7, h8, h9, h10, h11, h12]

/-- A slice of such a machine does not halt, whatever its steps cost. -/
theorem repeating_slice (fuel cycles : Nat) {s : State} (h : repeating s) :
    ∃ n u, sliceLoop fuel cycles s = .next (n, u) ∧ u.stopIdle = false ∧ u.phase = .running := by
  induction fuel generalizing cycles s with
  | zero => exact ⟨cycles, s, rfl, h.2.2.2.2.2.2.1, h.1⟩
  | succ fuel ih =>
    obtain ⟨t, ht, hr⟩ := repeating_step h
    unfold sliceLoop
    split
    · simpa only [ht] using ih _ hr
    · exact ⟨cycles, s, rfl, h.2.2.2.2.2.2.1, h.1⟩

/-- A slice that a STOP halts, from a state in the invariant, one that ends with the processor running, and one
that a stub refuses. Which slices end within an access rests on the unspecified costs; the last clause is of
such a state. -/
theorem witness_HostStepHaltsAfterItsSlice :
    (let s : State := { State.reset with c := 0x00000080000#44, cop := 0x08#8, togTiming := false }
     s.Inv ∧ s.phase = .idle ∧ s.sw.skip = false ∧ (∃ t, hostOperation .step s = .next t) ∧
       ∃ u, runSlice (restart s) = .next u ∧ u.phase ≠ .running ∧ ∀ k, u.phase ≠ .awaitMem k) ∧
    (let s : State := { State.reset with togTiming := false, sw := { Switches.atRest with lockNormal := .lock } }
     s.phase = .idle ∧ s.sw.skip = false ∧ ∃ u, runSlice (restart s) = .next u ∧ u.phase = .running) ∧
    (let s : State := { State.reset with c := 0x00000600100#44, togTiming := false, stubMode := .refuse }
     s.phase = .idle ∧ s.sw.skip = false ∧ runSlice (restart s) = .refused (.unimplemented 0x60#8)) ∧
    ∃ v, completion .execWithOperand { operandCame 0x00000740100#44 5#44 7#44 with stepHalt := true } = .next v := by
  refine ⟨⟨⟨by decide, by decide, .inl (by decide), ?_, by decide, fun h => absurd h (by decide), by decide⟩,
    rfl, rfl, ⟨_, rfl⟩, _, rfl, ?_, ?_⟩, ⟨rfl, rfl, ?_⟩, ⟨rfl, rfl, by rfl⟩, _, rfl⟩
  · intro k h
    cases h
  · intro h
    cases h
  · intro k h
    cases h
  · obtain ⟨n, u, hu, -, hp⟩ := repeating_slice Config.cycleBudget 0
      (s := restart { State.reset with togTiming := false, sw := { Switches.atRest with lockNormal := .lock } })
      ⟨rfl, rfl, rfl, rfl, rfl, rfl, rfl, by decide, rfl, rfl, rfl, rfl⟩
    exact ⟨{ u with sched := { u.sched with totalCycles := u.sched.totalCycles + n } },
      by rw [runSlice, hu], hp⟩

/-- A slice that halts, where no agent is enabled any more, one that does not, which uses its budget, and one
that is refused. -/
theorem witness_SliceIsARunOfAgentSteps :
    (freeRunning (executing 0x00000080000#44) ∧
      ∃ u, runSlice (executing 0x00000080000#44) = .next u ∧ agentEnabled u = false) ∧
    (let s : State := { executing 0#44 with sw := { Switches.atRest with lockNormal := .lock } }
     freeRunning s ∧ ∃ u, runSlice s = .next u ∧ u.stopIdle = false) ∧
    (let s : State := { executing 0x00000600100#44 with stubMode := .refuse }
     freeRunning s ∧ runSlice s = .refused (.unimplemented 0x60#8)) := by
  refine ⟨⟨⟨rfl, rfl⟩, _, rfl, rfl⟩, ⟨⟨rfl, rfl⟩, ?_⟩, ⟨rfl, rfl⟩, by rfl⟩
  obtain ⟨n, u, hu, hi, -⟩ := repeating_slice Config.cycleBudget 0
    (s := { executing 0#44 with sw := { Switches.atRest with lockNormal := .lock } })
    ⟨rfl, rfl, rfl, rfl, rfl, rfl, rfl, by decide, rfl, rfl, rfl, rfl⟩
  exact ⟨{ u with sched := { u.sched with totalCycles := u.sched.totalCycles + n } },
    by rw [runSlice, hu], hi⟩

/-- A call that finds the scheduler not busy, one whose slice, a STOP, halts the processor, one whose slice, a
stub, is refused, and one whose slice goes on. -/
theorem witness_ScheduleRunsASliceAndAsksForTheNext :
    State.reset.sched.busy = false ∧
    (let s : State := { executing 0x00000080000#44 with sched := { Scheduler.atLaunch with busy := true } }
     s.sched.busy = true ∧ s.stopIdle = false ∧
       ∃ u, runSlice (scheduleEntry s) = .next u ∧ u.stopIdle = true) ∧
    (let s : State := { executing 0x00000600100#44 with
        sched := { Scheduler.atLaunch with busy := true }, stubMode := .refuse }
     s.sched.busy = true ∧ s.stopIdle = false ∧
       runSlice (scheduleEntry s) = .refused (.unimplemented 0x60#8)) ∧
    (let s : State := { executing 0#44 with
        sched := { Scheduler.atLaunch with busy := true }, sw := { Switches.atRest with lockNormal := .lock } }
     s.sched.busy = true ∧ s.stopIdle = false ∧
       ∃ u, runSlice (scheduleEntry s) = .next u ∧ u.stopIdle = false) := by
  refine ⟨rfl, ⟨rfl, rfl, _, rfl, rfl⟩, ⟨rfl, rfl, by rfl⟩, rfl, rfl, ?_⟩
  obtain ⟨n, u, hu, hi, -⟩ := repeating_slice Config.cycleBudget 0
    (s := scheduleEntry { executing 0#44 with
      sched := { Scheduler.atLaunch with busy := true }, sw := { Switches.atRest with lockNormal := .lock } })
    ⟨rfl, rfl, rfl, rfl, rfl, rfl, rfl, by decide, rfl, rfl, rfl, rfl⟩
  exact ⟨{ u with sched := { u.sched with totalCycles := u.sched.totalCycles + n } },
    by rw [runSlice, hu], hi⟩

/-- A step of the host from reset, and an Execute that stores. -/
theorem witness_EveryStepKeepsTheInvariant :
    (∃ t, State.reset.Inv ∧ step State.reset = .next t) ∧
    ∃ t, step { executing 0x00000120102#44 with turns := [.agent] } = .next t := by
  refine ⟨⟨_, ⟨by decide, by decide, .inl (by decide), ?_, by decide, fun h => absurd h (by decide),
    by decide⟩, rfl⟩, _, rfl⟩
  intro k h
  cases h

theorem witness_NoStepChangesASwitch :
    ∃ t, step { State.reset with turns := [.host .start] } = .next t := ⟨_, rfl⟩

/-- Each clause: an ST, an IB and a NOR that change what they write. -/
theorem witness_OnlyTheNamedInstructionsWrite :
    (freeRunning (executing 0x00000120102#44) ∧
      after (fun t => t.mem) (step (executing 0x00000120102#44)) = some [(102, 0#44)]) ∧
    (freeRunning (executing 0x00000320000#44) ∧
      after (fun t => t.b) (step (executing 0x00000320000#44)) = some 0x0001#16) ∧
    (let s : State := { executing 0x00000150080#44 with a := 0x00000000001#44 }
     freeRunning s ∧ after (fun t => t.special) (step s) = some 0x0009#16) :=
  ⟨⟨⟨rfl, rfl⟩, by decide⟩, ⟨⟨rfl, rfl⟩, by decide⟩, ⟨rfl, rfl⟩, by decide⟩

/-- Two machines that differ in their clock, their draws and a display toggle. -/
theorem witness_TimeNeverChangesAResult :
    let s := executing 0x00000740100#44
    let t : State := { s with hostTime := 7, draws := 3, dispLoop := true, latency := 5 }
    freeRunning s ∧ freeRunning t ∧ results s = results t := ⟨⟨rfl, rfl⟩, ⟨rfl, rfl⟩, rfl⟩


end Sys2Proof.Tests
end

section
/-! PROOFS. What each kind of step does to a predicate of states, said once: a predicate that the agents and
the few writes of the host keep is kept by every step (spec/42_sequencer.md R170; spec/47_scheduler.md). -/

namespace Sys2Proof.Machine

/-- An operation enabled in `Idle` is performed there, and does nothing elsewhere (R309). -/
theorem whenIdle_next {perform : Result} {s t : State} (h : whenIdle s perform = .next t) :
    (s.phase = .idle ∧ perform = .next t) ∨ t = s := by
  unfold whenIdle at h
  split at h
  · exact .inl ⟨‹_›, h⟩
  · injection h with h
    exact .inr h.symm

/-- A run goes on only when it is admitted (R38; log 20). -/
theorem admitted_next {perform : Result} {s t : State} (h : admitted s perform = .next t) :
    perform = .next t := by
  unfold admitted at h
  split at h
  · cases h
  · exact h

/-- A predicate of states that every agent's step keeps, and every write that the host makes: to its own
fields (R300, R303), of the return from a halt (R301), of the halt request (R302), of `clear` and
`clearControl` (R313, R314), and of the end of `step` (R315). -/
structure KeptByAgents (P : State → Prop) : Prop where
  agent : ∀ {s t}, P s → agentStep s = .next t → P t
  hostFields : ∀ {s} turns sched hostTime draws, P s →
    P { s with turns := turns, sched := sched, hostTime := hostTime, draws := draws }
  restart : ∀ {s}, P s → s.phase = .idle → P (restart s)
  haltRequest : ∀ {s}, P s → P { s with togCST := true }
  halt : ∀ {s}, P s → s.phase = .running → P (halt s)
  latch : ∀ {s k}, P s → s.phase = .awaitMem k → P { s with stepHalt := true }
  clear : ∀ {s}, P s → s.phase = .idle → P (clearAll s)
  clearControl : ∀ {s}, P s → s.phase = .idle → P (clearToggles s)

namespace KeptByAgents

variable {P : State → Prop} (K : KeptByAgents P) {s t : State}
include K

theorem runSlice (hs : P s) (h : runSlice s = .next t) : P t := by
  obtain ⟨u, n, hu, rfl⟩ := runSlice_induct (fun _ _ => K.agent) h hs
  exact K.hostFields u.turns { u.sched with totalCycles := n } u.hostTime u.draws hu

theorem readClock (hs : P s) : P (readClock s) := K.hostFields s.turns s.sched _ _ hs

theorem scheduleEntry (hs : P s) : P (scheduleEntry s) := K.hostFields _ _ _ _ (K.readClock hs)

theorem scheduleExit (now : Rat) (hs : P s) : P (scheduleExit now s) := by
  unfold Machine.scheduleExit
  dsimp only
  split <;> exact K.hostFields _ _ _ _ (K.readClock hs)

/-- A call of `schedule` runs at most a slice between its own writes (R304). -/
theorem schedule (hs : P s) (h : schedule s = .next t) : P t := by
  unfold Machine.schedule at h
  dsimp only at h
  split at h
  · injection h with h
    exact h ▸ K.hostFields _ _ _ _ (K.scheduleEntry hs)
  · obtain ⟨u, hu, rfl⟩ := onNext_next.mp h
    exact K.scheduleExit _ (K.runSlice (K.scheduleEntry hs) hu)

theorem timerFires (hs : P s) (h : timerFires s = .next t) : P t := by
  unfold Machine.timerFires at h
  split at h
  · injection h with h
    exact h ▸ hs
  · exact K.schedule (K.hostFields _ _ _ _ hs) h

/-- `stop` is the halt request, and a halt between half-steps (R302). -/
theorem stopRun (hs : P s) : P (stopRun s) := by
  unfold Machine.stopRun
  dsimp only
  have requested := K.readClock (K.readClock (K.haltRequest hs))
  split
  · exact K.halt (K.hostFields _ _ _ _ requested) ‹_›
  · exact K.hostFields _ _ _ _ requested

/-- `step` is a slice, and a halt at once or left to the access in progress (R315; log 17). -/
theorem stepRun (hs : P s) (hi : s.phase = .idle) (h : stepRun s = .next t) : P t := by
  obtain ⟨u, hu, rfl⟩ := onNext_next.mp h
  have sliced := K.runSlice (K.restart hs hi) hu
  refine K.hostFields _ _ _ _ ?_
  split
  · exact K.halt sliced ‹_›
  · exact K.latch sliced ‹_›
  · exact sliced

theorem hostOperation {op : HostOp} (hs : P s) (h : hostOperation op s = .next t) : P t := by
  cases op with
  | start =>
    obtain ⟨hi, h⟩ | rfl := whenIdle_next h
    · injection admitted_next h with h
      exact h ▸ K.hostFields _ _ _ _ (K.readClock (K.restart hs hi))
    · exact hs
  | stop =>
    injection h with h
    exact h ▸ K.stopRun hs
  | step =>
    obtain ⟨hi, h⟩ | rfl := whenIdle_next h
    · exact K.stepRun hs hi (admitted_next h)
    · exact hs
  | clear =>
    obtain ⟨hi, h⟩ | rfl := whenIdle_next h
    · injection h with h
      exact h ▸ K.clear hs hi
    · exact hs
  | clearControl =>
    obtain ⟨hi, h⟩ | rfl := whenIdle_next h
    · injection h with h
      exact h ▸ K.clearControl hs hi
    · exact hs

/-- Whoever's turn it is, the step keeps the predicate (R170; log 13). -/
theorem step (hs : P s) (h : step s = .next t) : P t := by
  have turned : ∀ rest, P { s with turns := rest } := fun rest =>
    K.hostFields rest s.sched s.hostTime s.draws hs
  obtain ⟨-, ⟨-, h⟩ | ⟨rest, -, h⟩ | ⟨rest, -, h⟩ | ⟨op, rest, -, h⟩⟩ := step_next h
  · exact K.agent hs h
  · exact K.agent (turned rest) h
  · exact K.timerFires (turned rest) h
  · exact K.hostOperation (turned rest) h

end KeptByAgents

end Sys2Proof.Machine
end

section
/-! PROOFS. The switches and the parameters. -/

namespace Sys2Proof.Machine

/-- The console switches and the parameters that the state holds (spec/10_state.md R38; spec/00_scope.md R5;
logs 5, 12). -/
def State.settings (s : State) : Switches × OpenCodeMode × OpenCodeMode × OpcodeMap :=
  (s.sw, s.stubMode, s.reservedMode, s.opcodes)

theorem AgentKeeps.settings {s t : State} (h : AgentKeeps s t) : t.settings = s.settings := by
  simp only [State.settings, h.sw, h.stubMode, h.reservedMode, h.opcodes]

/-- No agent and no write of the host touches the settings. -/
theorem settings_keptByAgents (settings : Switches × OpenCodeMode × OpenCodeMode × OpcodeMap) :
    KeptByAgents (fun s => s.settings = settings) where
  agent hs h := (agentKeeps_agentStep h).settings.trans hs
  hostFields _ _ _ _ hs := hs
  restart hs _ := hs
  haltRequest hs := hs
  halt hs _ := hs
  latch hs _ := hs
  clear hs _ := hs
  clearControl hs _ := hs

/-- Settles O58: the settings are kept by every agent's step and every write of the host. -/
theorem noStepChangesASwitch : Obligations.NoStepChangesASwitch := by
  intro s t h
  have kept : t.settings = s.settings := (settings_keptByAgents s.settings).step rfl h
  simpa only [State.settings, Prod.mk.injEq] using kept

end Sys2Proof.Machine
end

section
/-! PROOFS. The invariant. Within a half-step only part of it holds, `MidStep`; every way in which a half-step
can end gives the rest, but for the latch of the host's `step`, which a completion takes last. -/

namespace Sys2Proof.Machine

/-- The cached order departs from C only by the injected Change Conditionally (R23). -/
def State.CachesOrder (s : State) : Prop :=
  s.cop = copOf s.c ∨ (s.cop = s.opcodes.cc ∧ isInjectingOrder s.opcodes (copOf s.c) = true)

/-- The part of the invariant that holds throughout a half-step, whose phase is not yet written. -/
structure MidStep (s : State) : Prop where
  memory : s.mem.wf = true
  notHalted : s.stopIdle = false
  order : s.CachesOrder
  map : s.opcodes.wf = true

/-- The state with no halt left to a completion (log 17). -/
def State.unlatched (s : State) : State := { s with stepHalt := false }

/-- A half-step from `s` ends in `t`: it leaves the latch alone, and the invariant holds but for it. -/
structure EndsHalfStep (s t : State) : Prop where
  latch : t.stepHalt = s.stepHalt
  inv : t.unlatched.Inv

theorem State.unlatched_of_not_latched {s : State} (h : s.stepHalt = false) : s.unlatched = s := by
  rw [State.unlatched, ← h]

theorem EndsHalfStep.inv_of_not_latched {s t : State} (h : EndsHalfStep s t) (hs : s.stepHalt = false) :
    t.Inv := State.unlatched_of_not_latched (h.latch.trans hs) ▸ h.inv

/-! ### From the invariant into a half-step -/

theorem State.Inv.midStep {s : State} (h : s.Inv) (hp : s.phase ≠ .idle) : MidStep s where
  memory := h.memory
  notHalted := by simpa using mt h.idle.mp hp
  order := h.order
  map := h.map

/-- No halt is latched but while an access is outstanding (R315; log 17). -/
theorem State.Inv.not_latched {s : State} (h : s.Inv) (hp : ∀ k, s.phase ≠ .awaitMem k) :
    s.stepHalt = false := by
  by_contra hl
  obtain ⟨k, hk⟩ := h.latched (by simpa using hl)
  exact hp k hk

/-- Decomposing C makes the cached order C's own (R23). -/
theorem MidStep.decompose {s : State} (h : MidStep s) : MidStep (decompose s) :=
  { h with order := .inl rfl }

/-- What was performed keeps the invariant when it caches C's own order, the order as it was, or CC in place
of an order that injects it (R190). -/
theorem MidStep.of_performed {s u : State} (h : MidStep s) (hu : Performed s u)
    (ho : u.cop = s.cop ∨ (u.cop = s.opcodes.cc ∧ isInjectingOrder s.opcodes s.cop = true)) :
    MidStep u where
  memory := hu.mem ▸ h.memory
  notHalted := hu.stopIdle.trans h.notHalted
  order := by
    rw [State.CachesOrder, hu.opcodes, hu.order]
    obtain hc | ⟨hc, hi⟩ := ho
    · exact hc.symm ▸ h.order
    · obtain hs | ⟨-, hs⟩ := h.order
      · exact .inr ⟨hc, hs ▸ hi⟩
      · exact .inr ⟨hc, hs⟩
  map := hu.opcodes ▸ h.map

/-! ### The ends of a half-step -/

/-- A state that is halted, or between half-steps, awaits nothing. -/
theorem unlatched_inv_of_not_awaiting {t : State} (hm : t.mem.wf = true) (ho : t.CachesOrder)
    (hmap : t.opcodes.wf = true)
    (hp : (t.phase = .idle ∧ t.stopIdle = true) ∨ (t.phase = .running ∧ t.stopIdle = false)) :
    t.unlatched.Inv where
  memory := hm
  idle := by obtain ⟨hp, hi⟩ | ⟨hp, hi⟩ := hp <;> simp [State.unlatched, hp, hi]
  order := ho
  noIO := by obtain ⟨hp, -⟩ | ⟨hp, -⟩ := hp <;> simp [State.unlatched, hp]
  operand := by obtain ⟨hp, -⟩ | ⟨hp, -⟩ := hp <;> simp [State.unlatched, hp]
  latched := by simp [State.unlatched]
  map := hmap

theorem MidStep.executeComplete {s : State} (h : MidStep s) :
    EndsHalfStep s (executeComplete s) where
  latch := by simp
  inv := unlatched_inv_of_not_awaiting (by simpa using h.memory)
    (by simpa [State.CachesOrder] using h.order) (by simpa using h.map)
    (by simpa [h.notHalted] using executeComplete_phase s)

/-- A Fetch leaves the order of the new C cached, and ends halted or running (R175, R178). -/
theorem MidStep.fetchComplete {s : State} (h : MidStep s) : EndsHalfStep s (fetchComplete s) where
  latch := by simp
  inv := by
    refine unlatched_inv_of_not_awaiting (by simpa using h.memory) (.inl ?_) (by simpa using h.map) ?_
    · simp [Machine.fetchComplete]
    · rw [Machine.fetchComplete, endFetch_phase, endFetch_stopIdle]
      cases (transferDtoC (testBreakpoint s)).togCST <;> simp [h.notHalted]

theorem MidStep.storeComplete {clear : Bool} {s : State} (h : MidStep s) :
    EndsHalfStep s (storeComplete clear s) := by
  cases clear
  · exact h.executeComplete
  · have cleared : MidStep { s with a := 0#44 } := { h with }
    exact ⟨cleared.executeComplete.latch, cleared.executeComplete.inv⟩

/-- A half-step ends with an access issued; an operand is awaited by an operand-class order (R181). -/
theorem MidStep.issueAccess {s : State} (h : MidStep s) (loc : Location) {k : Successor}
    (hk : k = .execWithOperand → isOperandOrder s.cop = true) :
    EndsHalfStep s (issueAccess loc k s) where
  latch := rfl
  inv :=
    { memory := h.memory
      idle := by simp [State.unlatched, h.notHalted]
      order := h.order
      noIO := by simp [State.unlatched]
      operand := by simpa [State.unlatched] using hk
      latched := by simp [State.unlatched]
      map := h.map }

/-- An operand is sampled into D as its access is issued (R64). -/
theorem MidStep.issueRead {s : State} (h : MidStep s) (loc : Location) {k : Successor}
    (hk : k = .execWithOperand → isOperandOrder s.cop = true) :
    EndsHalfStep s (Machine.issueAccess loc k { s with d := s.read loc }) := by
  have sampled : MidStep { s with d := s.read loc } := { h with }
  exact ⟨rfl, (sampled.issueAccess loc hk).inv⟩

/-- A store keeps the canonical form of memory as its access is issued (R65; log 2). -/
theorem MidStep.issueStore {s : State} (h : MidStep s) (loc : Location) (clear : Bool) :
    EndsHalfStep s (Machine.issueAccess loc (.storeComplete clear) (s.write loc s.a)) := by
  have stored : MidStep (s.write loc s.a) := { h with memory := Memory.wf_write loc s.a h.memory }
  exact ⟨rfl, (stored.issueAccess loc (by simp)).inv⟩

/-! ### The half-steps -/

/-- The instruction that the cached order names ends its half-step (R182, R183). -/
theorem MidStep.exec {i : Instr} {s t : State} (h : MidStep s)
    (hd : decodeOrder s.opcodes s.cop s.caddr = some i) (hx : exec i s = .next t) :
    EndsHalfStep s t := by
  have code : encodeOrder s.opcodes i = s.cop := (encodeOrder_of_decodeOrder hd).1
  obtain ⟨hi, loc, rfl⟩ | ⟨loc, clear, rfl⟩ | ⟨u, rfl, hu, ho⟩ := exec_next hx
  · exact h.issueRead loc fun _ => by rw [← code, operandOrder_encodeOrder h.map, hi]
  · exact h.issueStore loc clear
  · rw [code] at ho
    have performed : MidStep u := h.of_performed hu <| ho.imp_right <| And.imp_right fun hi => by
      obtain hi | hi | hi := hi <;> simp [isInjectingOrder, hi]
    exact ⟨performed.executeComplete.latch.trans hu.stepHalt, performed.executeComplete.inv⟩

/-- A reserved code reads an operand only where it is of the operand class (R293). -/
theorem dispatchOrder_reserved {s t : State} (hd : decodeOrder s.opcodes s.cop s.caddr = none)
    (hf : faultPending s = false) (h : dispatchOrder s = .next t) :
    (isOperandOrder s.cop = true ∧
        ∃ loc, t = issueAccess loc .execWithOperand { s with d := s.read loc }) ∨
      t = executeComplete s := by
  cases ho : isOperandOrder s.cop <;>
    simp only [dispatchOrder, decodeClass, hf, hd, ho, Bool.false_eq_true, if_false, if_true] at h
  · unfold execReservedNonOperand at h
    split at h
    · injection h with h
      exact .inr h.symm
    · cases h
  · unfold execReservedOperand at h
    split at h
    · obtain ⟨loc, -, h⟩ := memRead_next.mp h
      exact .inl ⟨rfl, loc, h⟩
    · cases h

theorem MidStep.dispatchOrder {s t : State} (h : MidStep s) (hx : dispatchOrder s = .next t) :
    EndsHalfStep s t := by
  obtain ⟨-, rfl⟩ | ⟨hf, ⟨i, hd, hi⟩ | ⟨hd, -⟩⟩ := dispatchOrder_next hx
  · have requested : MidStep { s with togCST := true } := { h with }
    exact ⟨requested.executeComplete.latch, requested.executeComplete.inv⟩
  · exact h.exec hd hi
  · obtain ⟨ho, loc, rfl⟩ | rfl := dispatchOrder_reserved hd hf hx
    · exact h.issueRead loc fun _ => ho
    · exact h.executeComplete

theorem MidStep.runSuccessor {k : Successor} {s t : State} (h : MidStep s)
    (hx : runSuccessor k s = .next t) : EndsHalfStep s t := by
  cases k with
  | fetchComplete =>
    injection hx with hx
    exact hx ▸ h.fetchComplete
  | execWithOperand =>
    obtain rfl | ⟨i, hd, -, hi⟩ := executeWithOperand_next hx
    · exact h.executeComplete
    · exact h.exec hd hi
  | storeComplete clear =>
    injection hx with hx
    exact hx ▸ h.storeComplete

/-! ### The agents -/

/-- A halt where none is left to a completion. -/
theorem State.Inv.halt {s : State} (h : s.Inv) (hl : s.stepHalt = false) : (halt s).Inv where
  memory := h.memory
  idle := by simp
  order := h.order
  noIO := by simp
  operand := by simp
  latched := by simp [hl]
  map := h.map

/-- The halt that `step` left is taken or dropped (R315; log 17). -/
theorem inv_takeStepHalt {s : State} (h : s.unlatched.Inv) : (takeStepHalt s).Inv := by
  unfold takeStepHalt
  split
  · split
    · exact h.halt rfl
    · exact h
  · rename_i hl
    exact State.unlatched_of_not_latched (by simpa using hl) ▸ h

theorem State.Inv.drawDisplay {s : State} (h : s.Inv) : (drawDisplay s).Inv := { h with }

theorem State.Inv.processorStep {s t : State} (h : s.Inv) (hp : s.phase = .running)
    (hx : processorStep s = .next t) : t.Inv := by
  have mid : MidStep s := h.midStep (by simp [hp])
  have hl : s.stepHalt = false := h.not_latched (by simp [hp])
  obtain ⟨-, rfl⟩ | ⟨-, -, hx⟩ | ⟨-, -, hx⟩ := processorStep_next hx
  · exact h.halt hl
  · obtain ⟨loc, -, rfl⟩ := fetch_next hx
    exact (mid.decompose.issueRead loc (by simp)).inv_of_not_latched hl
  · exact (mid.decompose.dispatchOrder hx).inv_of_not_latched hl

theorem State.Inv.completion {k : Successor} {s t : State} (h : s.Inv) (hp : s.phase = .awaitMem k)
    (hx : completion k s = .next t) : t.Inv := by
  obtain ⟨u, hu, rfl⟩ := onNext_next.mp hx
  have arrived : MidStep (accessArrives s) := { h.midStep (by simp [hp]) with }
  exact inv_takeStepHalt (arrived.runSuccessor hu).inv

theorem State.Inv.agentStep {s t : State} (h : s.Inv) (hx : agentStep s = .next t) : t.Inv := by
  obtain ⟨-, rfl⟩ | ⟨hp, hx⟩ | ⟨k, hp, hx⟩ := agentStep_next hx
  · exact h
  · exact h.drawDisplay.processorStep hp hx
  · exact h.drawDisplay.completion hp hx

/-! ### The host -/

/-- The return from a halt sets the machine running (R301). -/
theorem State.Inv.restart {s : State} (h : s.Inv) (hp : s.phase = .idle) : (restart s).Inv where
  memory := h.memory
  idle := by simp
  order := h.order
  noIO := by simp
  operand := by simp
  latched := by simp [h.not_latched, hp]
  map := h.map

/-- `clearControl` leaves a halted machine halted (R314). -/
theorem State.Inv.clearToggles {s : State} (h : s.Inv) (hp : s.phase = .idle) : (clearToggles s).Inv :=
  { h with idle := ⟨fun _ => hp, fun _ => rfl⟩ }

/-- `clear` empties C and the cached order together (R313). -/
theorem State.Inv.clearAll {s : State} (h : s.Inv) (hp : s.phase = .idle) : (clearAll s).Inv :=
  { h.clearToggles hp with
    order := .inl (by simp [Machine.clearAll, copOf])
    operand := fun hk => nomatch hp.symm.trans hk }

theorem inv_keptByAgents : KeptByAgents State.Inv where
  agent h hx := h.agentStep hx
  hostFields _ _ _ _ h := { h with }
  restart h hp := h.restart hp
  haltRequest h := { h with }
  halt h hp := h.halt (h.not_latched (by simp [hp]))
  latch h hp := { h with latched := fun _ => ⟨_, hp⟩ }
  clear h hp := h.clearAll hp
  clearControl h hp := h.clearToggles hp

/-- Settles O57: each agent's half-step ends in the invariant, and each write of the host keeps it. -/
theorem everyStepKeepsTheInvariant : Obligations.EveryStepKeepsTheInvariant :=
  fun _ _ hs h => inv_keptByAgents.step hs h

end Sys2Proof.Machine
end

section
/-! PROOFS. Who writes memory, B and SPECIAL: five instructions, each one of the three, and no other part of
a half-step (spec/10_state.md R21, R27; spec/20_memory.md R60). -/

namespace Sys2Proof.Machine

/-- Memory, B and SPECIAL are as they were. -/
structure KeepsStores (s t : State) : Prop where
  mem : t.mem = s.mem
  b : t.b = s.b
  special : t.special = s.special

theorem KeepsStores.refl (s : State) : KeepsStores s s := ⟨rfl, rfl, rfl⟩

theorem KeepsStores.trans {s t u : State} (h : KeepsStores s t) (g : KeepsStores t u) :
    KeepsStores s u :=
  ⟨g.mem.trans h.mem, g.b.trans h.b, g.special.trans h.special⟩

/-! ### The shared operations -/

theorem keepsStores_executeComplete (s : State) : KeepsStores s (executeComplete s) := by
  constructor <;> simp

theorem KeepsStores.executeComplete {s u : State} (h : KeepsStores s u) :
    KeepsStores s (executeComplete u) := h.trans (keepsStores_executeComplete u)

theorem keepsStores_issueRead (loc : Location) (k : Successor) (s : State) :
    KeepsStores s (issueAccess loc k { s with d := s.read loc }) := ⟨rfl, rfl, rfl⟩

theorem keepsStores_recordSum (sum : AddResult) (s : State) : KeepsStores s (recordSum sum s) := by
  rw [recordSum_eq]
  exact ⟨rfl, rfl, rfl⟩

theorem keepsStores_injectCC (addr : Address) (s : State) : KeepsStores s (injectCC addr s) := by
  rw [injectCC_eq]
  exact ⟨rfl, rfl, rfl⟩

/-- An addition into A that ends its Execute. -/
theorem keepsStores_add {x y : Word} {s t : State}
    (h : onNext executeComplete (addIntoA x y s) = .next t) : KeepsStores s t := by
  obtain ⟨u, hu, rfl⟩ := onNext_next.mp h
  exact addIntoA_next hu ▸ (keepsStores_recordSum _ s).executeComplete

/-- An operand-class instruction, when what it performs writes none of the three. -/
theorem keepsStores_operand {addr : Address} {perform : State → Result} {s t : State}
    (hp : ∀ u, perform s = .next u → KeepsStores s u) (h : operandInstr addr perform s = .next t) :
    KeepsStores s t := by
  obtain ⟨-, u, hu, rfl⟩ | ⟨-, loc, -, rfl⟩ := operandInstr_next.mp h
  · exact (hp u hu).executeComplete
  · exact keepsStores_issueRead loc _ s

/-- An operand-class instruction that adds into A. -/
theorem keepsStores_operand_add {addr : Address} {x y : State → Word} {s t : State}
    (h : operandInstr addr (fun v => addIntoA (x v) (y v) v) s = .next t) : KeepsStores s t := by
  refine keepsStores_operand (fun u hu => ?_) h
  rw [addIntoA_next hu]
  exact keepsStores_recordSum _ s

theorem keepsStores_stub {addr : Address} {s t : State} (h : stubInstr addr s = .next t) :
    KeepsStores s t := by
  unfold stubInstr at h
  split at h
  · injection h with h
    exact h ▸ keepsStores_executeComplete s
  · obtain ⟨loc, -, rfl⟩ := memRead_next.mp h
    exact keepsStores_issueRead loc _ s
  · cases h

/-- A counted instruction, when what it performs writes none of the three. -/
theorem keepsStores_counted {addr : Address} {perform : Nat → State → State} {s t : State}
    (hp : ∀ n, KeepsStores s (perform n s)) (h : countedInstr addr perform s = .next t) :
    KeepsStores s t := by
  unfold countedInstr at h
  split at h
  · cases h
  · injection h with h
    exact h ▸ (hp _).executeComplete

/-- A storing instruction writes neither B nor SPECIAL. -/
theorem store_keeps_b_special {addr : Address} {clear : Bool} {s t : State}
    (h : storeInstr addr clear s = .next t) : t.b = s.b ∧ t.special = s.special := by
  obtain ⟨c, -, rfl⟩ | ⟨loc, -, rfl⟩ := storeInstr_next h
  · simp
  · exact ⟨rfl, rfl⟩

/-! ### The instructions -/

/-- An instruction that goes on writes none of the three, or is ST or STC and writes memory alone of them,
IB or DB and B, NOR and SPECIAL. -/
def ExecWrites (i : Instr) (s t : State) : Prop :=
  KeepsStores s t ∨
    ((∃ addr, i = .st addr ∨ i = .stc addr) ∧ t.b = s.b ∧ t.special = s.special) ∨
    ((∃ addr, i = .ib addr ∨ i = .db addr) ∧ t.mem = s.mem ∧ t.special = s.special) ∨
    ((∃ addr, i = .nor addr) ∧ t.mem = s.mem ∧ t.b = s.b)

theorem exec_writes {i : Instr} {s t : State} (h : exec i s = .next t) : ExecWrites i s t := by
  cases i with
  | cira addr =>
    unfold exec execCira at h
    exact .inl (keepsStores_counted (fun _ => ⟨rfl, rfl, rfl⟩) h)
  | stc addr => exact .inr (.inl ⟨⟨addr, .inr rfl⟩, store_keeps_b_special h⟩)
  | cnz addr =>
    injection h with h
    subst h
    refine .inl (KeepsStores.executeComplete ?_)
    split
    · exact KeepsStores.refl s
    · exact keepsStores_injectCC addr s
  | stop low addr =>
    injection h with h
    exact .inl (h ▸ KeepsStores.executeComplete ⟨rfl, rfl, rfl⟩)
  | st addr => exact .inr (.inl ⟨⟨addr, .inl rfl⟩, store_keeps_b_special h⟩)
  | sr addr =>
    unfold exec execSr at h
    exact .inl (keepsStores_counted (fun _ => ⟨rfl, rfl, rfl⟩) h)
  | sl addr =>
    unfold exec execSl at h
    exact .inl (keepsStores_counted (fun _ => ⟨rfl, rfl, rfl⟩) h)
  | nor addr =>
    injection h with h
    subst h
    refine .inr (.inr (.inr ⟨⟨addr, rfl⟩, ?_⟩))
    split <;> simp [injectCC_eq]
  | adsc addr => exact .inl (keepsStores_add h)
  | susc addr => exact .inl (keepsStores_add h)
  | cu addr =>
    injection h with h
    exact .inl (h ▸ KeepsStores.executeComplete ⟨rfl, rfl, rfl⟩)
  | cur addr =>
    injection h with h
    exact .inl (h ▸ KeepsStores.executeComplete ⟨rfl, rfl, rfl⟩)
  | db addr =>
    injection h with h
    subst h
    refine .inr (.inr (.inl ⟨⟨addr, .inr rfl⟩, ?_⟩))
    split <;> simp [injectCC_eq]
  | cc addr =>
    injection h with h
    exact .inl (h ▸ KeepsStores.executeComplete (by constructor <;> simp))
  | ccr addr =>
    injection h with h
    subst h
    refine .inl (KeepsStores.executeComplete ?_)
    split <;> exact ⟨rfl, rfl, rfl⟩
  | ib addr =>
    injection h with h
    subst h
    exact .inr (.inr (.inl ⟨⟨addr, .inl rfl⟩, by simp⟩))
  | m addr => exact .inl (keepsStores_stub h)
  | div addr => exact .inl (keepsStores_stub h)
  | ex addr =>
    unfold exec execEx at h
    refine .inl (keepsStores_operand (fun u hu => ?_) h)
    injection hu with hu
    rw [← hu, extractIntoA_eq]
    exact ⟨rfl, rfl, rfl⟩
  | ad addr => exact .inl (keepsStores_operand_add h)
  | su addr => exact .inl (keepsStores_operand_add (y := fun v => negWord v.d) h)
  | cad addr => exact .inl (keepsStores_operand_add (x := fun _ => zeroWord) h)
  | csu addr => exact .inl (keepsStores_operand_add (x := fun _ => zeroWord) (y := fun v => negWord v.d) h)
  | fad addr => exact .inl (keepsStores_stub h)
  | fsu addr => exact .inl (keepsStores_stub h)
  | fm addr => exact .inl (keepsStores_stub h)
  | fdiv addr => exact .inl (keepsStores_stub h)
  | ada addr => exact .inl (keepsStores_operand_add (y := fun v => absWord v.d) h)
  | sua addr => exact .inl (keepsStores_operand_add (y := fun v => negAbsWord v.d) h)
  | cada addr => exact .inl (keepsStores_operand_add (x := fun _ => zeroWord) (y := fun v => absWord v.d) h)
  | csua addr =>
    exact .inl (keepsStores_operand_add (x := fun _ => zeroWord) (y := fun v => negAbsWord v.d) h)

/-- None of the five writers is of the operand class, so the second half of an operand-class instruction
writes none of the three. -/
theorem ExecWrites.keepsStores {i : Instr} {s t : State} (h : ExecWrites i s t)
    (hi : i.operandClass = true) : KeepsStores s t := by
  obtain h | ⟨⟨addr, rfl | rfl⟩, -⟩ | ⟨⟨addr, rfl | rfl⟩, -⟩ | ⟨⟨addr, rfl⟩, -⟩ := h
  · exact h
  all_goals cases hi

/-! ### The agents -/

/-- What the Execute of an order does to the three. -/
theorem dispatchOrder_writes {s t : State} (h : dispatchOrder s = .next t) :
    KeepsStores s t ∨ ∃ i, decodeOrder s.opcodes s.cop s.caddr = some i ∧ ExecWrites i s t := by
  obtain ⟨-, rfl⟩ | ⟨-, ⟨i, hd, hi⟩ | ⟨-, hr⟩⟩ := dispatchOrder_next h
  · exact .inl (KeepsStores.executeComplete ⟨rfl, rfl, rfl⟩)
  · exact .inr ⟨i, hd, exec_writes hi⟩
  · obtain ⟨loc, rfl⟩ | rfl := reserved_next hr
    · exact .inl (keepsStores_issueRead loc _ s)
    · exact .inl (keepsStores_executeComplete s)

/-- No completion of an access writes any of the three: a store writes memory when it is issued (R65). -/
theorem completion_keepsStores {k : Successor} {s t : State} (h : completion k s = .next t) :
    KeepsStores s t := by
  obtain ⟨u, hu, rfl⟩ := onNext_next.mp h
  have arrived : KeepsStores s (accessArrives s) := ⟨rfl, rfl, rfl⟩
  have latchTaken : KeepsStores u (takeStepHalt u) := by constructor <;> simp
  refine (arrived.trans ?_).trans latchTaken
  cases k with
  | fetchComplete =>
    injection hu with hu
    subst hu
    constructor <;> simp
  | execWithOperand =>
    obtain rfl | ⟨i, -, hi, hx⟩ := executeWithOperand_next hu
    · exact keepsStores_executeComplete _
    · exact (exec_writes hx).keepsStores hi
  | storeComplete clear =>
    injection hu with hu
    subst hu
    constructor <;> simp

/-- What an agent's step does to the three: nothing, or what the Execute of the order in C does. -/
theorem agentStep_writes {s t : State} (h : agentStep s = .next t) :
    KeepsStores s t ∨
      (s.phase = .running ∧ s.togTiming = false ∧
        ∃ i, encodeOrder s.opcodes i = copOf s.c ∧ ExecWrites i s t) := by
  obtain ⟨-, rfl⟩ | ⟨hp, h⟩ | ⟨k, -, h⟩ := agentStep_next h
  · exact .inl (KeepsStores.refl _)
  · obtain ⟨-, rfl⟩ | ⟨-, -, h⟩ | ⟨-, ht, h⟩ := processorStep_next h
    · exact .inl ⟨rfl, rfl, rfl⟩
    · obtain ⟨loc, -, rfl⟩ := fetch_next h
      exact .inl ⟨rfl, rfl, rfl⟩
    · have entered : KeepsStores s (decompose (drawDisplay s)) := ⟨rfl, rfl, rfl⟩
      obtain h | ⟨i, hd, h⟩ := dispatchOrder_writes h
      · exact .inl (entered.trans h)
      · exact .inr ⟨hp, ht, i, (encodeOrder_of_decodeOrder hd).1, h.imp_left entered.trans⟩
  · have displayed : KeepsStores s (drawDisplay s) := ⟨rfl, rfl, rfl⟩
    exact .inl (displayed.trans (completion_keepsStores h))

/-- Settles O59: the Execute that changes one of the three is of an instruction that writes it, and the order
in C is that instruction's. -/
theorem onlyTheNamedInstructionsWrite : Obligations.OnlyTheNamedInstructionsWrite := by
  intro s t ⟨hturns, hrefused⟩ h
  rw [step_of_no_turns hrefused hturns] at h
  obtain kept | ⟨hp, ht, i, code, kept | ⟨⟨addr, rfl | rfl⟩, hb, hs⟩ | ⟨⟨addr, rfl | rfl⟩, hm, hs⟩ |
    ⟨⟨addr, rfl⟩, hm, hb⟩⟩ := agentStep_writes h
  · exact ⟨absurd (sameWords_of kept.mem), absurd kept.b, absurd kept.special⟩
  · exact ⟨absurd (sameWords_of kept.mem), absurd kept.b, absurd kept.special⟩
  · exact ⟨fun _ => ⟨hp, ht, .inl code.symm⟩, absurd hb, absurd hs⟩
  · exact ⟨fun _ => ⟨hp, ht, .inr code.symm⟩, absurd hb, absurd hs⟩
  · exact ⟨absurd (sameWords_of hm), fun _ => ⟨hp, ht, .inl code.symm⟩, absurd hs⟩
  · exact ⟨absurd (sameWords_of hm), fun _ => ⟨hp, ht, .inr code.symm⟩, absurd hs⟩
  · exact ⟨absurd (sameWords_of hm), absurd hb, fun _ => ⟨hp, ht, code.symm⟩⟩

end Sys2Proof.Machine
end

section
/-! PROOFS. Accesses of memory: which addresses name a location, what a read or a store there answers, and the
first half of the instructions that make one (spec/20_memory.md R61-R67; spec/42_sequencer.md R181, R182). -/

namespace Sys2Proof.Machine

/-! ### Addresses -/

/-- Four decimal digits name the location of the number they spell (R61, R62). -/
theorem decodeAddress_of_valid {x : Address} (h : validAddress x = true) :
    decodeAddress x = some (locate (addressValue x)) := by
  unfold validAddress at h
  simp [decodeAddress, val?, addressValue, h]

/-- A nibble above 9 leaves an address without a location (R61). -/
theorem decodeAddress_of_not_valid {x : Address} (h : validAddress x = false) :
    decodeAddress x = none := by
  unfold validAddress at h
  simp [decodeAddress, val?, h]

/-- Below 4000, modulo 8000, a value reaches main memory (R62). -/
theorem key_locate_main {v : Nat} (h : v % 8000 < 4000) : (locate v).key = v % 8000 := by
  simp [locate, h, Location.key]

/-- From 4000, modulo 8000, a value reaches the loop of its thousand, whose words repeat (R62). -/
theorem key_locate_loop {v : Nat} (h : 4000 ≤ v % 8000) :
    (locate v).key = 1000 * (v % 8000 / 1000) + v % 8000 % 20 := by
  rw [locate, dif_neg (by omega)]
  simp only [Location.key]
  omega

/-! ### What an access answers -/

theorem memRead_of_location {x : Address} {loc : Location} (h : decodeAddress x = some loc)
    (k : Successor) (s : State) :
    memRead x k s = .next (issueAccess loc k { s with d := s.read loc }) :=
  memRead_next.mpr ⟨loc, h, rfl⟩

theorem memRead_refused {x : Address} (h : validAddress x = false) (k : Successor) (s : State) :
    memRead x k s = .refused .nonDecimalAddress := by
  simp [memRead, decodeAddress_of_not_valid h]

theorem memWrite_refused {x : Address} (h : validAddress x = false) (clear : Bool) (s : State) :
    memWrite x clear s = .refused .nonDecimalAddress := by
  simp [memWrite, decodeAddress_of_not_valid h]

/-! ### The first half of an instruction that makes an access -/

/-- An operand-class instruction that awaits no operand reads it (R181). -/
theorem operandInstr_reads {s : State} (h : s.phase ≠ .awaitMem .execWithOperand) (addr : Address)
    (perform : State → Result) :
    operandInstr addr perform s = memRead addr .execWithOperand s := by
  unfold operandInstr
  split
  · contradiction
  · rfl

/-- The arithmetic instructions of the operand class read their operand first (R181, R210-R218). -/
theorem exec_arithmetic_reads {addr : Address} {s : State} (h : s.phase ≠ .awaitMem .execWithOperand) :
    ∀ i ∈ [Instr.ad addr, .su addr, .cad addr, .csu addr, .ada addr, .sua addr, .cada addr, .csua addr,
        .ex addr], exec i s = memRead addr .execWithOperand s := by
  simp [exec, execAd, execSu, execCad, execCsu, execAda, execSua, execCada, execCsua, execEx,
    operandInstr_reads h]

/-- In `noop` mode a stub that awaits no operand reads it (R290). -/
theorem stubInstr_reads {s : State} (h : s.phase ≠ .awaitMem .execWithOperand) (hm : s.stubMode = .noop)
    (addr : Address) : stubInstr addr s = memRead addr .execWithOperand s := by
  unfold stubInstr
  split
  · contradiction
  · rfl
  · simp_all

/-- In `noop` mode the stubs read their operand first (R290). -/
theorem exec_stub_reads {addr : Address} {s : State} (h : s.phase ≠ .awaitMem .execWithOperand)
    (hm : s.stubMode = .noop) :
    ∀ i ∈ [Instr.m addr, .div addr, .fad addr, .fsu addr, .fm addr, .fdiv addr],
      exec i s = memRead addr .execWithOperand s := by
  simp [exec, execM, execDiv, execFad, execFsu, execFm, execFdiv, stubInstr_reads h hm]

/-- A storing instruction between half-steps issues its store (R182). -/
theorem storeInstr_running {s : State} (h : s.phase = .running) (addr : Address) (clear : Bool) :
    storeInstr addr clear s = memWrite addr clear s := by
  simp [storeInstr, h]

/-- A reserved code of the operand class, with no fault pending, reads its operand in `noop` mode (R293). -/
theorem dispatchOrder_reserved_reads {s : State} (hf : faultPending s = false)
    (hd : decodeOrder s.opcodes s.cop s.caddr = none) (hm : s.reservedMode = .noop)
    (ho : 0x60 ≤ s.cop.toNat) : dispatchOrder s = memRead s.caddr .execWithOperand s := by
  simp [dispatchOrder, decodeClass, isOperandOrder, execReservedOperand, hf, hd, hm, ho]

/-- The step of a free-running machine that is to fetch: the read at the control address (R171, R173). -/
theorem step_fetches {s : State} (hs : freeRunning s) (hp : s.phase = .running) (hc : s.togCST = false)
    (ht : s.togTiming = true) :
    step s = memRead s.ccontrol .fetchComplete (decompose (drawDisplay s)) := by
  obtain ⟨hturns, hrefused⟩ := hs
  rw [step_of_no_turns hrefused hturns]
  simp [agentStep, processorStep, fetch, State.ccontrol, hp, hc, ht]

/-! ### The obligations on accesses -/

/-- Settles O15, from the two cases of `locate` and the refusal of an address that names no location. -/
theorem addressesReachTheirWords : Obligations.AddressesReachTheirWords := fun _ =>
  ⟨fun h => ⟨_, decodeAddress_of_valid h, key_locate_main, key_locate_loop⟩,
    fun h k clear s => ⟨memRead_refused h k s, memWrite_refused h clear s⟩⟩

/-- Settles O16, from the read-after-write law of memory: issuing an access leaves memory as the store
made it. -/
theorem storedWordIsSeenByEveryLaterRead : Obligations.StoredWordIsSeenByEveryLaterRead := by
  intro x clear s t loc hx hw
  obtain ⟨loc', hx', rfl⟩ := memWrite_next.mp hw
  obtain rfl : loc = loc' := Option.some.inj (hx.symm.trans hx')
  have stored : ∀ other, (issueAccess loc (.storeComplete clear) (s.write loc s.a)).read other =
      (s.write loc s.a).read other := State.read_congr rfl
  refine ⟨fun other hne => (stored other).trans (State.read_write_other s s.a hne), ?_⟩
  intro u y k hu hy
  have sampled : u.read loc = s.a := by rw [hu, stored, State.read_write_same]
  exact ⟨_, memRead_of_location hy k u, sampled⟩

/-- Settles O18: the first half is the read of the operand, and issuing it writes D and what `withIssueOf`
lists. -/
theorem operandInstructionsReadTheirOperand : Obligations.OperandInstructionsReadTheirOperand := by
  intro addr s loc hp hl i hi
  refine ⟨_, (exec_arithmetic_reads hp i hi).trans (memRead_of_location hl _ s), rfl, rfl, ?_, rfl, ?_⟩
  · exact samplesLatency_issueAccess loc _ { s with d := s.read loc }
  · exact sameWords_of rfl

/-- Settles O34: each of these begins with an access of its address, which is refused. -/
theorem nonDecimalAddressesAreRefused : Obligations.NonDecimalAddressesAreRefused := by
  refine ⟨fun addr s hp hx => ⟨fun i hi => ?_, fun hm i hi => ?_⟩, fun s hf hd hm ho hx => ?_,
    fun s hs hp hc ht hx => ?_⟩
  · have stores : ∀ clear, storeInstr addr clear s = .refused .nonDecimalAddress := fun clear => by
      rw [storeInstr_running hp, memWrite_refused hx]
    obtain hi | hi :=
      List.mem_append (s := [_, _, _, _, _, _, _, _, _]) (t := [Instr.st addr, .stc addr]).mp hi
    · rw [exec_arithmetic_reads (by simp [hp]) i hi, memRead_refused hx]
    · obtain rfl | rfl := List.mem_pair.mp hi
      · exact stores false
      · exact stores true
  · rw [exec_stub_reads (by simp [hp]) hm i hi, memRead_refused hx]
  · rw [dispatchOrder_reserved_reads hf hd hm ho, memRead_refused hx]
  · rw [step_fetches hs hp hc ht, memRead_refused hx]

end Sys2Proof.Machine
end

section
/-! PROOFS. The rotation of the drum (spec/20_memory.md R67). -/

namespace Sys2Proof.Machine

theorem drumPeriod_eq (loc : Location) : drumPeriod loc = if loc.key < 4000 then 200 else 20 := by
  cases loc with
  | main n => simp [drumPeriod, Location.key, n.isLt]
  | loop band word =>
    rw [if_neg (by simp only [Location.key]; omega)]
    rfl

theorem drumPeriod_pos (loc : Location) : 0 < drumPeriod loc := by
  cases loc <;> simp [drumPeriod]

/-- The slot under the heads is the floor of the words passed, modulo the revolution. -/
theorem currentSlot_cast {period : Nat} (h : 0 < period) (now rate : Rat) :
    (currentSlot period now rate : Int) = (now * rate).floor % (period : Int) :=
  Int.toNat_of_nonneg (Int.emod_nonneg _ (by omega))

theorem currentSlot_lt {period : Nat} (h : 0 < period) (now rate : Rat) :
    currentSlot period now rate < period := by
  have cast := currentSlot_cast h now rate
  have bound := Int.emod_lt_of_pos (now * rate).floor (Int.natCast_pos.mpr h)
  omega

theorem drumLatency_lt (loc : Location) (now rate : Rat) : drumLatency loc now rate < drumPeriod loc :=
  Nat.mod_lt _ (drumPeriod_pos loc)

/-- After the latency the word's slot is under the heads. -/
theorem currentSlot_add_drumLatency (loc : Location) (now rate : Rat) :
    (currentSlot (drumPeriod loc) now rate + drumLatency loc now rate) % drumPeriod loc =
      loc.key % drumPeriod loc := by
  have before := currentSlot_lt (drumPeriod_pos loc) now rate
  simp only [drumLatency, Nat.add_mod_mod]
  rw [Nat.add_sub_cancel' (by omega), Nat.add_mod_right, Nat.mod_mod]

/-- Settles O17, from the bounds of a remainder. -/
theorem drumLatencyReachesTheSlot : Obligations.DrumLatencyReachesTheSlot := fun loc now rate =>
  ⟨drumPeriod_eq loc, currentSlot_cast (drumPeriod_pos loc) now rate,
    currentSlot_lt (drumPeriod_pos loc) now rate, drumLatency_lt loc now rate,
    currentSlot_add_drumLatency loc now rate⟩

end Sys2Proof.Machine
end

section
/-! PROOFS. Time changes no result. An operation is timeless when states with the same results have outcomes
with the same results; every plain update is, and the half-steps are made of these by composition and by
tests of what a result holds (spec/20_memory.md R70; spec/47_scheduler.md R306). -/

namespace Sys2Proof.Machine

/-- An update of the state whose results depend only on the results of its argument. -/
def TimelessUpdate (f : State → State) : Prop :=
  ∀ s t, results s = results t → results (f s) = results (f t)

/-- An operation whose outcome depends, but for time, only on the results of its argument. -/
def Timeless (f : State → Result) : Prop :=
  ∀ s t, results s = results t → sameResults (f s) (f t)

/-! ### Composition -/

/-- It is enough to compare a state with its results. -/
theorem TimelessUpdate.of_results {f : State → State}
    (h : ∀ s, results (f (results s)) = results (f s)) : TimelessUpdate f := fun s t hst => by
  rw [← h s, hst, h t]

theorem TimelessUpdate.id : TimelessUpdate (fun s => s) := fun _ _ h => h

theorem TimelessUpdate.comp {f g : State → State} (hg : TimelessUpdate g) (hf : TimelessUpdate f) :
    TimelessUpdate (fun s => g (f s)) := fun s t h => hg _ _ (hf s t h)

/-- What is read of the results alone is the same where the results are. -/
theorem eq_of_results {α : Type} {v : State → α} (hv : ∀ s, v (results s) = v s) {s t : State}
    (h : results s = results t) : v s = v t := by
  rw [← hv s, h, hv t]

/-- A test that reads the results alone chooses the same branch where the results are the same. -/
theorem ite_related {α : Type} {related : α → α → Prop} {c : State → Prop} [DecidablePred c]
    {f g : State → α} (hc : ∀ s, c (results s) ↔ c s)
    (hf : ∀ s t, results s = results t → related (f s) (f t))
    (hg : ∀ s t, results s = results t → related (g s) (g t)) (s t : State)
    (h : results s = results t) :
    related (if c s then f s else g s) (if c t then f t else g t) := by
  have test : c s = c t := eq_of_results (fun u => propext (hc u)) h
  by_cases ht : c t
  · simpa only [test, if_pos ht] using hf s t h
  · simpa only [test, if_neg ht] using hg s t h

theorem TimelessUpdate.ite {c : State → Prop} [DecidablePred c] {f g : State → State}
    (hc : ∀ s, c (results s) ↔ c s) (hf : TimelessUpdate f) (hg : TimelessUpdate g) :
    TimelessUpdate (fun s => if c s then f s else g s) :=
  ite_related (related := fun s t => results s = results t) hc hf hg

theorem Timeless.next {f : State → State} (hf : TimelessUpdate f) : Timeless (fun s => .next (f s)) := hf

theorem Timeless.comp {g : State → Result} {f : State → State} (hg : Timeless g)
    (hf : TimelessUpdate f) : Timeless (fun s => g (f s)) := fun s t h => hg _ _ (hf s t h)

theorem Timeless.ite {c : State → Prop} [DecidablePred c] {f g : State → Result}
    (hc : ∀ s, c (results s) ↔ c s) (hf : Timeless f) (hg : Timeless g) :
    Timeless (fun s => if c s then f s else g s) := ite_related (related := sameResults) hc hf hg

theorem sameResults_onNext {f : State → State} (hf : TimelessUpdate f) {o o' : Result}
    (h : sameResults o o') : sameResults (onNext f o) (onNext f o') := by
  cases o with
  | next s =>
    cases o' with
    | next t => exact hf s t h
    | fault => exact h
    | refused => exact h
  | fault => cases o' <;> exact h
  | refused => cases o' <;> exact h

theorem Timeless.onNext {f : State → State} {g : State → Result} (hf : TimelessUpdate f)
    (hg : Timeless g) : Timeless (fun s => onNext f (g s)) := fun s t h =>
  sameResults_onNext hf (hg s t h)

/-! ### Updates -/

theorem timeless_halt : TimelessUpdate halt := .of_results fun _ => rfl

theorem timeless_decompose : TimelessUpdate decompose := .of_results fun _ => rfl

theorem timeless_drawDisplay : TimelessUpdate drawDisplay := .of_results fun _ => rfl

theorem timeless_accessArrives : TimelessUpdate accessArrives := .of_results fun _ => rfl

theorem timeless_raiseFault (kind : FaultKind) : TimelessUpdate (raiseFault kind) :=
  .of_results fun _ => by cases kind <;> rfl

theorem timeless_branchTo (target : Address) : TimelessUpdate (branchTo target) := .of_results fun _ => rfl

theorem timeless_setTiming (fetchNext : Bool) : TimelessUpdate (setTiming fetchNext) :=
  .of_results fun s => by cases h : s.sw.lockNormal <;> simp [setTiming, results, h]

/-- The halt tests read the breakpoint, a switch and the stop request. -/
theorem timeless_haltOrGoOn : TimelessUpdate haltOrGoOn :=
  .ite (fun _ => .rfl) (.of_results fun _ => rfl)
    (.ite (fun _ => .rfl) timeless_halt (.of_results fun _ => rfl))

theorem timeless_executeComplete : TimelessUpdate executeComplete :=
  timeless_haltOrGoOn.comp (timeless_setTiming true)

theorem timeless_storeComplete (clear : Bool) : TimelessUpdate (storeComplete clear) :=
  timeless_executeComplete.comp (.ite (fun _ => .rfl) (.of_results fun _ => rfl) .id)

theorem timeless_changeConditionally (addr : Address) : TimelessUpdate (changeConditionally addr) :=
  .ite (fun _ => .rfl) (.of_results fun _ => rfl) .id

theorem timeless_injectCC (addr : Address) : TimelessUpdate (injectCC addr) :=
  .of_results fun s => by rw [injectCC_eq, injectCC_eq]; rfl

theorem timeless_addIntoB (x : Nat) : TimelessUpdate (addIntoB x) :=
  .of_results fun s => by rw [addIntoB_eq, addIntoB_eq]; rfl

theorem timeless_recordSum (sum : AddResult) : TimelessUpdate (recordSum sum) :=
  .of_results fun s => by rw [recordSum_eq, recordSum_eq]; rfl

theorem timeless_extractIntoA : TimelessUpdate (fun s => extractIntoA s.a s.d s) :=
  .of_results fun s => by rw [extractIntoA_eq, extractIntoA_eq]; rfl

theorem timeless_testBreakpoint : TimelessUpdate testBreakpoint :=
  .ite (fun _ => .rfl) (.of_results fun _ => rfl) .id

theorem timeless_transferDtoC : TimelessUpdate transferDtoC :=
  .of_results fun s => by simp only [transferDtoC, raiseIf_forbidden]; rfl

theorem timeless_endFetch : TimelessUpdate endFetch :=
  TimelessUpdate.comp
    (g := fun t => if t.togCST then halt t else { t with phase := .running })
    (.ite (fun _ => .rfl) timeless_halt (.of_results fun _ => rfl))
    (timeless_setTiming false)

theorem timeless_fetchComplete : TimelessUpdate fetchComplete :=
  timeless_endFetch.comp (timeless_transferDtoC.comp timeless_testBreakpoint)

theorem timeless_takeStepHalt : TimelessUpdate takeStepHalt :=
  .ite (fun _ => .rfl)
    (.ite (fun _ => .rfl) (.of_results fun _ => rfl) (.of_results fun _ => rfl)) .id

/-! ### Accesses -/

/-- The latency of an access, and the clock's reading at its issue, are no part of a result (R64, R67). -/
theorem timeless_issueAccess (loc : Location) (k : Successor) : TimelessUpdate (issueAccess loc k) :=
  .of_results fun _ => rfl

theorem timeless_memRead (x : Address) (k : Successor) : Timeless (memRead x k) := by
  intro s t h
  unfold memRead
  cases decodeAddress x with
  | none => rfl
  | some loc =>
    have sample : TimelessUpdate fun s => { s with d := s.read loc } := .of_results fun _ => rfl
    exact ((timeless_issueAccess loc k).comp sample) s t h

theorem timeless_memWrite (x : Address) (clear : Bool) : Timeless (memWrite x clear) := by
  intro s t h
  unfold memWrite
  cases decodeAddress x with
  | none => rfl
  | some loc =>
    have store : TimelessUpdate fun s => s.write loc s.a := .of_results fun _ => rfl
    exact ((timeless_issueAccess loc (.storeComplete clear)).comp store) s t h

theorem timeless_fetch : Timeless fetch := by
  intro s t h
  have control : s.ccontrol = t.ccontrol := eq_of_results (fun _ => rfl) h
  have fetched : ∀ u, fetch u = memRead u.ccontrol .fetchComplete (decompose u) := fun _ => rfl
  rw [fetched s, fetched t, control]
  exact timeless_memRead _ _ _ _ (timeless_decompose s t h)

/-! ### Instructions -/

/-- An instruction performed at once. -/
theorem timeless_performed {f : State → State} (hf : TimelessUpdate f) :
    Timeless (fun s => .next (executeComplete (f s))) := timeless_executeComplete.comp hf

theorem timeless_addIntoA {x y : State → Word} (hx : ∀ s, x (results s) = x s)
    (hy : ∀ s, y (results s) = y s) : Timeless (fun s => addIntoA (x s) (y s) s) := by
  intro s t h
  have augend : x s = x t := eq_of_results hx h
  have addend : y s = y t := eq_of_results hy h
  simp only [augend, addend, addIntoA]
  split
  · exact timeless_recordSum _ s t h
  · rfl

theorem timeless_operandInstr (addr : Address) {perform : State → Result} (hp : Timeless perform) :
    Timeless (operandInstr addr perform) := by
  intro s t h
  have phase : s.phase = t.phase := eq_of_results (fun _ => rfl) h
  simp only [operandInstr, phase]
  split
  · exact sameResults_onNext timeless_executeComplete (hp s t h)
  · exact timeless_memRead addr _ s t h

/-- An operand-class instruction that adds into A. -/
theorem timeless_operand_add (addr : Address) {x y : State → Word} (hx : ∀ s, x (results s) = x s)
    (hy : ∀ s, y (results s) = y s) :
    Timeless (operandInstr addr (fun s => addIntoA (x s) (y s) s)) :=
  timeless_operandInstr addr (timeless_addIntoA hx hy)

theorem timeless_storeInstr (addr : Address) (clear : Bool) : Timeless (storeInstr addr clear) := by
  intro s t h
  have phase : s.phase = t.phase := eq_of_results (fun _ => rfl) h
  simp only [storeInstr, phase]
  split
  · exact timeless_storeComplete _ s t h
  · exact timeless_memWrite addr clear s t h

theorem timeless_stubInstr (addr : Address) : Timeless (stubInstr addr) := by
  intro s t h
  have phase : s.phase = t.phase := eq_of_results (fun _ => rfl) h
  have mode : s.stubMode = t.stubMode := eq_of_results (fun _ => rfl) h
  have order : s.cop = t.cop := eq_of_results (fun _ => rfl) h
  simp only [stubInstr, phase, mode, order]
  split
  · exact timeless_executeComplete s t h
  · exact timeless_memRead addr _ s t h
  · rfl

theorem timeless_countedInstr (addr : Address) {perform : Nat → State → State}
    (hp : ∀ n, TimelessUpdate (perform n)) : Timeless (countedInstr addr perform) := by
  intro s t h
  unfold countedInstr
  cases decodeCount addr with
  | none => rfl
  | some n => exact timeless_performed (hp n) s t h

theorem timeless_exec (i : Instr) : Timeless (exec i) := by
  cases i with
  | cira addr => exact timeless_countedInstr addr fun _ => .of_results fun _ => rfl
  | stc addr => exact timeless_storeInstr addr true
  | cnz addr => exact timeless_performed (.ite (fun _ => .rfl) .id (timeless_injectCC addr))
  | stop low addr => exact timeless_performed (timeless_raiseFault .control)
  | st addr => exact timeless_storeInstr addr false
  | sr addr => exact timeless_countedInstr addr fun _ => .of_results fun _ => rfl
  | sl addr => exact timeless_countedInstr addr fun _ => .of_results fun _ => rfl
  | nor addr =>
    exact timeless_performed
      (.ite (fun _ => .rfl) (timeless_injectCC addr) (.of_results fun _ => rfl))
  | adsc addr =>
    exact .onNext timeless_executeComplete (timeless_addIntoA (fun _ => rfl) (fun _ => rfl))
  | susc addr =>
    exact .onNext timeless_executeComplete (timeless_addIntoA (fun _ => rfl) (fun _ => rfl))
  | cu addr => exact timeless_performed (timeless_branchTo addr)
  | cur addr => exact timeless_performed (.of_results fun _ => rfl)
  | db addr =>
    exact timeless_performed (.ite (fun _ => .rfl)
      ((timeless_injectCC addr).comp (timeless_addIntoB 0x9999)) (timeless_addIntoB 0x9999))
  | cc addr => exact timeless_performed (timeless_changeConditionally addr)
  | ccr addr => exact timeless_performed (.ite (fun _ => .rfl) (.of_results fun _ => rfl) .id)
  | ib addr => exact timeless_performed (timeless_addIntoB 0x0001)
  | m addr => exact timeless_stubInstr addr
  | div addr => exact timeless_stubInstr addr
  | ex addr => exact timeless_operandInstr addr (.next timeless_extractIntoA)
  | ad addr => exact timeless_operand_add addr (fun _ => rfl) (fun _ => rfl)
  | su addr => exact timeless_operand_add addr (fun _ => rfl) (fun _ => rfl)
  | cad addr => exact timeless_operand_add addr (fun _ => rfl) (fun _ => rfl)
  | csu addr => exact timeless_operand_add addr (fun _ => rfl) (fun _ => rfl)
  | fad addr => exact timeless_stubInstr addr
  | fsu addr => exact timeless_stubInstr addr
  | fm addr => exact timeless_stubInstr addr
  | fdiv addr => exact timeless_stubInstr addr
  | ada addr => exact timeless_operand_add addr (fun _ => rfl) (fun _ => rfl)
  | sua addr => exact timeless_operand_add addr (fun _ => rfl) (fun _ => rfl)
  | cada addr => exact timeless_operand_add addr (fun _ => rfl) (fun _ => rfl)
  | csua addr => exact timeless_operand_add addr (fun _ => rfl) (fun _ => rfl)

/-! ### The agents -/

theorem timeless_execReservedOperand : Timeless execReservedOperand := by
  intro s t h
  have mode : s.reservedMode = t.reservedMode := eq_of_results (fun _ => rfl) h
  have order : s.cop = t.cop := eq_of_results (fun _ => rfl) h
  have address : s.caddr = t.caddr := eq_of_results (fun _ => rfl) h
  simp only [execReservedOperand, mode, order, address]
  split
  · exact timeless_memRead _ _ s t h
  · rfl

theorem timeless_execReservedNonOperand : Timeless execReservedNonOperand := by
  intro s t h
  have mode : s.reservedMode = t.reservedMode := eq_of_results (fun _ => rfl) h
  have order : s.cop = t.cop := eq_of_results (fun _ => rfl) h
  simp only [execReservedNonOperand, mode, order]
  split
  · exact timeless_executeComplete s t h
  · rfl

/-- The order in the cache decodes alike in states with the same results. -/
theorem decodeClass_eq_of_results {s t : State} (h : results s = results t) :
    decodeClass s.opcodes s.cop s.caddr = decodeClass t.opcodes t.cop t.caddr :=
  eq_of_results (v := fun u => decodeClass u.opcodes u.cop u.caddr) (fun _ => rfl) h

/-- The Execute entry reads the pending faults, and what the order decodes to (R180-R182). -/
theorem timeless_dispatchOrder : Timeless dispatchOrder := by
  have halted : Timeless fun s => .next (executeComplete { s with togCST := true }) :=
    timeless_performed (.of_results fun _ => rfl)
  refine .ite (fun _ => .rfl) halted fun s t h => ?_
  rw [decodeClass_eq_of_results h]
  cases decodeClass t.opcodes t.cop t.caddr with
  | instr i => exact timeless_exec i s t h
  | reservedOperand => exact timeless_execReservedOperand s t h
  | reservedNonOperand => exact timeless_execReservedNonOperand s t h

theorem timeless_executeWithOperand : Timeless executeWithOperand := by
  intro s t h
  have ended := timeless_executeComplete s t h
  unfold executeWithOperand
  rw [decodeClass_eq_of_results h]
  cases decodeClass t.opcodes t.cop t.caddr with
  | instr i =>
    dsimp only
    split
    · exact timeless_exec i s t h
    · exact ended
  | reservedOperand => exact ended
  | reservedNonOperand => exact ended

theorem timeless_processorStep : Timeless processorStep :=
  .ite (fun _ => .rfl) (.next timeless_halt)
    (.ite (fun _ => .rfl) timeless_fetch (timeless_dispatchOrder.comp timeless_decompose))

theorem timeless_runSuccessor (k : Successor) : Timeless (runSuccessor k) := by
  cases k with
  | fetchComplete => exact .next timeless_fetchComplete
  | execWithOperand => exact timeless_executeWithOperand
  | storeComplete clear => exact .next (timeless_storeComplete clear)

theorem timeless_completion (k : Successor) : Timeless (completion k) :=
  .onNext timeless_takeStepHalt ((timeless_runSuccessor k).comp timeless_accessArrives)

/-- The phase says which agent moves, and each agent's step is timeless (R170). -/
theorem timeless_agentStep : Timeless agentStep := by
  intro s t h
  have phase : s.phase = t.phase := eq_of_results (fun _ => rfl) h
  simp only [agentStep, phase]
  split
  · exact h
  · exact timeless_processorStep.comp timeless_drawDisplay s t h
  · exact (timeless_completion _).comp timeless_drawDisplay s t h
  · rfl

/-- Settles O60: the step of a free-running machine is that of its enabled agent. -/
theorem timeNeverChangesAResult : Obligations.TimeNeverChangesAResult := by
  intro s t ⟨hts, hrs⟩ ⟨htt, hrt⟩ h
  rw [step_of_no_turns hrs hts, step_of_no_turns hrt htt]
  exact timeless_agentStep s t h

end Sys2Proof.Machine
end

section
/-! PROOFS. Decoding and encoding are inverse to each other, by every well-formed opcode map
(spec/30_encoding.md R90-R101). -/

namespace Sys2Proof

/-! ### Orders -/

/-- A code of the STOP family is STOP's, by any map (R95, R98). -/
theorem decodeOrder_stop (m : OpcodeMap) {cop : Order} (addr : Address) (h : isStopOrder cop = true) :
    decodeOrder m cop addr = some (.stop (cop.extractLsb' 0 3) addr) := by
  simp [decodeOrder, h]

/-- The order and address digits of an instruction decode to it: by its row, or as the STOP family. -/
theorem decodeOrder_encodeOrder {m : OpcodeMap} (h : m.wf = true) (i : Instr) :
    decodeOrder m (encodeOrder m i) (encodeAddress i) = some i := by
  obtain ⟨low, addr, rfl⟩ | ⟨row, hr, code, build, -⟩ := row_of_instr m i
  · exact Laws.DecodeEncode.stop low addr m h
  · rw [← code, decodeOrder_row h hr, build]

/-- An order and an address decode to the one instruction that they encode (R98). -/
theorem decodeOrder_eq_some_iff {m : OpcodeMap} (h : m.wf = true) {cop : Order} {addr : Address}
    {i : Instr} :
    decodeOrder m cop addr = some i ↔ encodeOrder m i = cop ∧ encodeAddress i = addr := by
  refine ⟨encodeOrder_of_decodeOrder, ?_⟩
  rintro ⟨rfl, rfl⟩
  exact decodeOrder_encodeOrder h i

/-- Whether a code is reserved does not depend on the address digits. -/
theorem decodeOrder_eq_none_congr {m : OpcodeMap} {cop : Order} {addr : Address} (other : Address)
    (h : decodeOrder m cop addr = none) : decodeOrder m cop other = none := by
  unfold decodeOrder at h ⊢
  split at h
  · cases h
  · simpa only [if_neg ‹_›, Option.map_eq_none_iff] using h

/-- The reserved codes are those of no instruction (R96, R99). -/
theorem decodeOrder_eq_none_iff {m : OpcodeMap} (h : m.wf = true) {cop : Order} {addr : Address} :
    decodeOrder m cop addr = none ↔ ∀ i, encodeOrder m i ≠ cop := by
  constructor
  · rintro hn i rfl
    have reserved := decodeOrder_eq_none_congr (encodeAddress i) hn
    rw [decodeOrder_encodeOrder h] at reserved
    cases reserved
  · intro hno
    exact Option.eq_none_iff_forall_ne_some.mpr fun i hi => hno i (encodeOrder_of_decodeOrder hi).1

/-! ### Classes -/

theorem decodeClass_eq_instr_iff {m : OpcodeMap} {cop : Order} {addr : Address} {i : Instr} :
    decodeClass m cop addr = .instr i ↔ decodeOrder m cop addr = some i := by
  cases hd : decodeOrder m cop addr <;> cases ho : isOperandOrder cop <;> simp [decodeClass, hd, ho]

theorem decodeClass_eq_reservedOperand_iff {m : OpcodeMap} {cop : Order} {addr : Address} :
    decodeClass m cop addr = .reservedOperand ↔
      decodeOrder m cop addr = none ∧ isOperandOrder cop = true := by
  cases hd : decodeOrder m cop addr <;> cases ho : isOperandOrder cop <;> simp [decodeClass, hd, ho]

theorem decodeClass_eq_reservedNonOperand_iff {m : OpcodeMap} {cop : Order} {addr : Address} :
    decodeClass m cop addr = .reservedNonOperand ↔
      decodeOrder m cop addr = none ∧ isOperandOrder cop = false := by
  cases hd : decodeOrder m cop addr <;> cases ho : isOperandOrder cop <;> simp [decodeClass, hd, ho]

/-! ### Words -/

/-- What a word decodes to: the instruction of its order and address digits, with its other digits
beside it (R90, R91). -/
theorem decodeWord_eq_some_iff {m : OpcodeMap} {w : Word} {x : InstrWord} :
    decodeWord m w = some x ↔
      decodeOrder m (copOf w) (addressOf w) = some x.instr ∧ signDigitOf w = x.signDigit ∧
        controlOf w = x.spare := by
  obtain ⟨sign, spare, i⟩ := x
  simp only [decodeWord, decode, Option.map_eq_some_iff, InstrWord.mk.injEq]
  constructor
  · rintro ⟨j, hd, hs, hc, rfl⟩
    exact ⟨hd, hs, hc⟩
  · rintro ⟨hd, hs, hc⟩
    exact ⟨i, hd, hs, hc, rfl⟩

/-- Settles O1: each field of the encoded word is read back, and its order and address digits decode to
the instruction. -/
theorem decodeWordInvertsEncodeWord : Obligations.DecodeWordInvertsEncodeWord := by
  intro m h x
  refine decodeWord_eq_some_iff.mpr ⟨?_, ?_, ?_⟩
  · simpa [encodeWord] using decodeOrder_encodeOrder h x.instr
  · simp [encodeWord]
  · simp [encodeWord]

/-- Settles O2: the word is its four fields, and the instruction found has its order and address
digits. -/
theorem encodeWordInvertsDecodeWord : Obligations.EncodeWordInvertsDecodeWord := by
  intro m w x hd
  obtain ⟨hi, hs, hc⟩ := decodeWord_eq_some_iff.mp hd
  obtain ⟨order, addr⟩ := encodeOrder_of_decodeOrder hi
  rw [encodeWord, ← hs, ← hc, order, addr, buildWord_fields]

/-- Settles O3: STOP by the order of the decoder's tests, the others by the two sides of
`decodeOrder`. -/
theorem decodeClassPartitionsTheCodes : Obligations.DecodeClassPartitionsTheCodes := by
  intro m cop addr
  refine ⟨fun hs => ?_, fun h => ⟨fun i => ?_, ?_, ?_⟩⟩
  · exact ⟨_, decodeClass_eq_instr_iff.mpr (decodeOrder_stop m addr (beq_iff_eq.mpr hs))⟩
  · rw [decodeClass_eq_instr_iff, decodeOrder_eq_some_iff h]
  · rw [decodeClass_eq_reservedOperand_iff, decodeOrder_eq_none_iff h, isOperandOrder, decide_eq_true_iff]
  · rw [decodeClass_eq_reservedNonOperand_iff, decodeOrder_eq_none_iff h, isOperandOrder,
      decide_eq_false_iff_not, Nat.not_le]

/-- By a well-formed map, a word decodes to what it is the encoding of, and to nothing else (R98). -/
theorem decodeWord_eq_some_iff_encodeWord {m : OpcodeMap} (h : m.wf = true) {w : Word} {x : InstrWord} :
    decodeWord m w = some x ↔ encodeWord m x = w :=
  ⟨encodeWordInvertsDecodeWord m w x, fun e => e ▸ decodeWordInvertsEncodeWord m h x⟩

/-- Settles O4: each word but the last is the encoding of its instruction by the default map, and the
order of the last is no row's. -/
theorem specWordsDecodeToTheirInstructions : Obligations.SpecWordsDecodeToTheirInstructions := by
  simp only [Obligations.SpecWordsDecodeToTheirInstructions,
    decodeWord_eq_some_iff_encodeWord OpcodeMap.default_wf]
  decide

end Sys2Proof
end

section
/-! PROOFS. The word/field codec, bit by bit (spec/40_field_codec.md R120-R130): a bit or field write is the word
with one range of bits replaced, and each law of the codec follows from which bits that range holds. -/

namespace Sys2Proof.Machine

/-! ### What each primitive does to a bit -/

theorem bitTest_eq_toNat_getLsbD (word : CodecValue) (bit : Nat) :
    bitTest word bit = (word.getLsbD bit).toNat := by
  rw [bitTest, BitVec.getLsbD, Nat.testBit_eq_decide_div_mod_eq]
  obtain h | h := Nat.mod_two_eq_zero_or_one (word.toNat / 2 ^ bit) <;> simp [h]

/-- The mask of one bit (R122-R124). -/
theorem getLsbD_oneBit (bit : Nat) {other : Nat} (ho : other < 53) :
    (BitVec.ofNat 53 (2 ^ bit)).getLsbD other = decide (bit = other) := by
  rw [BitVec.getLsbD_ofNat, Nat.testBit_two_pow, decide_eq_true ho, Bool.true_and]

theorem testBit_fieldIsolate (word : CodecValue) (start width i : Nat) :
    (fieldIsolate word start width).testBit i =
      (decide (i < width) && word.getLsbD (fieldLow start width + i)) := by
  rw [fieldIsolate, Nat.testBit_mod_two_pow, Nat.testBit_div_two_pow, Nat.add_comm, BitVec.getLsbD]

/-- A field insert keeps what is below and above the field and puts the value's low bits between (R126). -/
theorem fieldInsert_eq_parts (word : CodecValue) (start width value : Nat) :
    fieldInsert word start width value = BitVec.ofNat 53
      (2 ^ fieldLow start width *
          (2 ^ width * (word.toNat / 2 ^ fieldLow start width / 2 ^ width) + value % 2 ^ width) +
        word.toNat % 2 ^ fieldLow start width) := by
  rw [fieldInsert, fieldIsolate]
  generalize fieldLow start width = low
  have outer := Nat.div_add_mod word.toNat (2 ^ low)
  have inner := Nat.div_add_mod (word.toNat / 2 ^ low) (2 ^ width)
  generalize word.toNat / 2 ^ low / 2 ^ width = high at *
  generalize word.toNat / 2 ^ low % 2 ^ width = field at *
  rw [← inner, Nat.mul_add] at outer
  rw [Nat.mul_add, Nat.mul_comm field, Nat.mul_comm (value % 2 ^ width)]
  congr 1
  omega

/-- An inserted field has the bits of the value, and every other bit is the word's (R126). -/
theorem getLsbD_fieldInsert (word : CodecValue) {start width : Nat} (value : Nat) {bit : Nat}
    (hw : width ≤ start + 1) (hb : bit < 53) :
    (fieldInsert word start width value).getLsbD bit =
      if fieldLow start width ≤ bit ∧ bit ≤ start then value.testBit (bit - fieldLow start width)
      else word.getLsbD bit := by
  have top : fieldLow start width + width = start + 1 := Nat.sub_add_cancel hw
  have below : word.toNat % 2 ^ fieldLow start width < 2 ^ fieldLow start width :=
    Nat.mod_lt _ (Nat.two_pow_pos _)
  have field : value % 2 ^ width < 2 ^ width := Nat.mod_lt _ (Nat.two_pow_pos _)
  rw [fieldInsert_eq_parts, BitVec.getLsbD_ofNat, decide_eq_true hb, Bool.true_and,
    Nat.testBit_two_pow_mul_add _ below, Nat.testBit_two_pow_mul_add _ field]
  by_cases hl : bit < fieldLow start width
  · rw [if_pos hl, if_neg (by omega), Nat.testBit_mod_two_pow, decide_eq_true hl, Bool.true_and,
      BitVec.getLsbD]
  · rw [if_neg hl]
    by_cases hs : bit ≤ start
    · have inside : bit - fieldLow start width < width := by omega
      rw [if_pos inside, if_pos (by omega), Nat.testBit_mod_two_pow, decide_eq_true inside,
        Bool.true_and]
    · rw [if_neg (by omega), if_neg (by omega), Nat.testBit_div_two_pow, Nat.testBit_div_two_pow,
        BitVec.getLsbD]
      congr 1
      omega

/-! ### The laws -/

/-- Settles O5: inside the field the bit put back is the bit taken out, and outside nothing is written. -/
theorem insertOfIsolatedFieldIsIdentity : Obligations.InsertOfIsolatedFieldIsIdentity := by
  intro word start width hw
  apply BitVec.eq_of_getLsbD_eq
  intro bit hb
  rw [getLsbD_fieldInsert word _ hw hb]
  split
  next inside =>
    have lt : bit - fieldLow start width < width := by
      unfold fieldLow at *
      omega
    rw [testBit_fieldIsolate, decide_eq_true lt, Bool.true_and, Nat.add_sub_cancel' inside.1]
  next => rfl

/-- An inserted field reads back as the low bits of the value (R125, R126). -/
theorem fieldIsolate_fieldInsert (word : CodecValue) {start width : Nat} (value : Nat)
    (hs : start ≤ 52) (hw : width ≤ start + 1) :
    fieldIsolate (fieldInsert word start width value) start width = value % 2 ^ width := by
  apply Nat.eq_of_testBit_eq
  intro i
  rw [testBit_fieldIsolate, Nat.testBit_mod_two_pow]
  by_cases hi : i < width
  · have inside : fieldLow start width + i ≤ start := by
      unfold fieldLow
      omega
    rw [getLsbD_fieldInsert word value hw (by omega), if_pos ⟨Nat.le_add_right _ _, inside⟩,
      Nat.add_sub_cancel_left]
  · simp only [hi, decide_false, Bool.false_and]

/-- A bit outside an inserted field is kept (R126). -/
theorem bitTest_fieldInsert_outside (word : CodecValue) {start width : Nat} (value : Nat) {bit : Nat}
    (hw : width ≤ start + 1) (hb : bit ≤ 52) (outside : bit < fieldLow start width ∨ start < bit) :
    bitTest (fieldInsert word start width value) bit = bitTest word bit := by
  rw [bitTest_eq_toNat_getLsbD, bitTest_eq_toNat_getLsbD, getLsbD_fieldInsert word value hw (by omega),
    if_neg (by omega)]

/-- An isolated field has no bits above its width (R125). -/
theorem fieldIsolate_mod (word : CodecValue) (start width : Nat) :
    fieldIsolate word start width % 2 ^ width = fieldIsolate word start width :=
  Nat.mod_mod _ _

/-- Settles O6: a transfer is the insert of an isolated field, which fits its width. -/
theorem insertReplacesExactlyTheField : Obligations.InsertReplacesExactlyTheField := by
  refine ⟨fun word start width value hs hw => ⟨?_, ?_⟩,
    fun word value wstart vstart width hs hw _ _ => ⟨?_, ?_⟩⟩
  · exact fieldIsolate_fieldInsert word value hs hw
  · exact fun _ hb outside => bitTest_fieldInsert_outside word value hw hb outside
  · rw [fieldTransfer, fieldIsolate_fieldInsert word _ hs hw, fieldIsolate_mod]
  · exact fun _ hb outside => bitTest_fieldInsert_outside word _ hw hb outside

/-- Settles O7: the mask of one bit decides each bit of the three results. -/
theorem bitOperationsTouchOneBit : Obligations.BitOperationsTouchOneBit := by
  intro word bit other _ ho
  have inRange : other < 53 := by omega
  have mask := getLsbD_oneBit bit inRange
  simp only [bitTest_eq_toNat_getLsbD, bitSet, bitReset, bitFlip, BitVec.getLsbD_or,
    BitVec.getLsbD_and, BitVec.getLsbD_xor, BitVec.getLsbD_not, mask]
  by_cases h : other = bit
  · subst h
    cases word.getLsbD other <;> simp [inRange]
  · simp [h, Ne.symm h, inRange]

/-! ### The views of a word -/

@[simp] theorem toNat_toCodec (w : Word) : (toCodec w).toNat = w.toNat := by
  rw [toCodec, BitVec.toNat_setWidth_of_le (by decide)]

/-- A slice of a word is the codec's field of its bits (R130). -/
theorem toNat_slice_eq_fieldIsolate (w : Word) (start width : Nat) :
    (w.extractLsb' (fieldLow start width) width).toNat = fieldIsolate (toCodec w) start width := by
  rw [BitVec.extractLsb'_toNat, Nat.shiftRight_eq_div_pow, fieldIsolate, toNat_toCodec]

theorem signBit_toNat_eq_bitTest (w : Word) : (signBit w).toNat = bitTest (toCodec w) 40 := by
  rw [bitTest_eq_toNat_getLsbD, BitVec.getLsbD, toNat_toCodec, signBit, BitVec.getLsbD]

/-- Digit `k` is the four bits that end at bit `4k - 1` (R7, R130). -/
theorem digit_eq_fieldIsolate (w : Word) {k : Nat} (hk : 1 ≤ k) :
    digit w k = fieldIsolate (toCodec w) (4 * k - 1) 4 := by
  have low : fieldLow (4 * k - 1) 4 = 4 * (k - 1) := by
    unfold fieldLow
    omega
  simp only [digit, fieldIsolate, low, toNat_toCodec, Nat.pow_mul, Nat.reducePow]

/-- Flipping the sign of a word is the codec's flip of bit 40 (R124, R153). -/
theorem toCodec_negWord (w : Word) : toCodec (negWord w) = bitFlip (toCodec w) 40 := by
  rw [toCodec, negWord, BitVec.setWidth_xor]
  rfl

/-- A word with another sign digit is the codec's insert of that digit (R126, R153). -/
theorem toCodec_joinSign_magnitude (w : Word) (sign : BitVec 4) :
    toCodec (joinSign sign (magnitude w)) = fieldInsert (toCodec w) 43 4 sign.toNat := by
  apply BitVec.eq_of_toNat_eq
  rw [fieldInsert_eq_parts]
  simp only [toNat_toCodec, joinSign, magnitude, fieldLow, BitVec.toNat_ofNat, BitVec.extractLsb'_toNat,
    Nat.shiftRight_eq_div_pow]
  omega

/-- Settles O8: the four fields are slices, the sign bit and the digits are theirs by position, and the
operand forms are one flip and two inserts of a sign digit. -/
theorem viewsAreCodecFields : Obligations.ViewsAreCodecFields := by
  intro w
  exact ⟨toNat_slice_eq_fieldIsolate w 23 8, toNat_slice_eq_fieldIsolate w 15 16,
    toNat_slice_eq_fieldIsolate w 39 16, toNat_slice_eq_fieldIsolate w 43 4, signBit_toNat_eq_bitTest w,
    fun _ hk _ => digit_eq_fieldIsolate w hk, toCodec_negWord w, toCodec_joinSign_magnitude w 0#4,
    toCodec_joinSign_magnitude w 1#4⟩

/-! ### The checked calls -/

@[simp] theorem codecCall_true {α : Type} (answer : α) : codecCall true answer = .ok answer := rfl

@[simp] theorem codecCall_false {α : Type} (answer : α) :
    codecCall false answer = .error .codecRange := rfl

theorem codecFieldOk_eq_true_iff {start width : Nat} :
    codecFieldOk start width = true ↔ start ≤ 52 ∧ width ≤ start + 1 := by
  rw [codecFieldOk, Bool.and_eq_true, decide_eq_true_iff, decide_eq_true_iff]

theorem codecFieldOk_eq_false_iff {start width : Nat} :
    codecFieldOk start width = false ↔ 52 < start ∨ start + 1 < width := by
  rw [← Bool.not_eq_true, codecFieldOk_eq_true_iff]
  omega

/-- Settles O9: the domain of each call is the stated range, and a transfer asks it of both fields. -/
theorem codecCallsAnswerExactlyInRange : Obligations.CodecCallsAnswerExactlyInRange := by
  refine ⟨fun word bit hb => ?_, fun word value start width v other hs hw ho hv => ?_,
    fun word bit hb => ?_, fun word value start width v other out => ?_⟩
  · have ok : codecBitOk bit = true := decide_eq_true hb
    simp [bitTestChecked, bitSetChecked, bitResetChecked, bitFlipChecked, ok]
  · have ok := codecFieldOk_eq_true_iff.mpr ⟨hs, hw⟩
    have okOther := codecFieldOk_eq_true_iff.mpr ⟨ho, hv⟩
    simp [fieldIsolateChecked, fieldInsertChecked, fieldTransferChecked, ok, okOther]
  · have refused : codecBitOk bit = false := decide_eq_false (Nat.not_le.mpr hb)
    simp [bitTestChecked, bitSetChecked, bitResetChecked, bitFlipChecked, refused]
  · have refused := codecFieldOk_eq_false_iff.mpr out
    simp [fieldIsolateChecked, fieldInsertChecked, fieldTransferChecked, refused]

end Sys2Proof.Machine
end

section
/-! PROOFS. A pass of the adder, position by position: each position's digit and carry come from its own digit
step and from the carry into it (spec/41_decimal_adder.md R140-R151). -/

namespace Sys2Proof.Machine

/-! ### The shape that the passes share -/

/-- A pass of digit steps, low to high, each handing its carry to the next. -/
def runPass {α : Type} (step : α → Bool → DigitSum) : List α → Bool → Pass
  | [], carry => ⟨[], carry, false⟩
  | x :: rest, carry =>
    let here := step x carry
    let above := runPass step rest here.carry
    ⟨here.digit :: above.digits, above.carry, here.fc || above.fc⟩

/-- The carry into a position of a pass, the lowest being position 0. -/
def carryInto {α : Type} (step : α → Bool → DigitSum) : List α → Bool → Nat → Bool
  | _, carry, 0 => carry
  | [], carry, _ + 1 => carry
  | x :: rest, carry, k + 1 => carryInto step rest (step x carry).carry k

/-- The digit of a pass at a position. -/
def Pass.digitAt (p : Pass) (k : Nat) : Nat := p.digits.getD k 0

theorem mainPass_eq_runPass (compl : Bool) (ps : List (Nat × Nat)) (c : Bool) :
    mainPass compl ps c = runPass (fun p => mainStep compl p.1 p.2) ps c := by
  induction ps generalizing c with
  | nil => rfl
  | cons p ps ih => simp only [mainPass, runPass, ih]

theorem recomplementPass_eq_runPass (ds : List Nat) (c : Bool) :
    recomplementPass ds c = runPass (fun d => digitStep (9 - d) 0) ds c := by
  induction ds generalizing c with
  | nil => rfl
  | cons d ds ih => simp only [recomplementPass, runPass, ih]

theorem extractPass_eq_runPass (ps : List (Nat × Nat)) (c : Bool) :
    extractPass ps c = runPass (fun p => extractStep p.1 p.2) ps c := by
  induction ps generalizing c with
  | nil => rfl
  | cons p ps ih => simp only [extractPass, runPass, ih]

/-- Without complement the main pass's position is the plain digit step: the nibbles are tested once more. -/
theorem mainStep_false (x y : Nat) (c : Bool) : mainStep false x y c = digitStep x y c := by
  by_cases h : 9 < x ∨ 9 < y
  · rw [mainStep, if_pos h, digitStep, if_pos h]
  · rw [mainStep, if_neg h, if_neg Bool.false_ne_true]

/-- The unsigned add is the main pass without complement (R142, R151). -/
theorem unsignedPass_eq_mainPass (ps : List (Nat × Nat)) (c : Bool) :
    unsignedPass ps c = mainPass false ps c := by
  induction ps generalizing c with
  | nil => rfl
  | cons p ps ih => simp only [unsignedPass, mainPass, mainStep_false, ih]

section
variable {α : Type} {step : α → Bool → DigitSum}

@[simp] theorem length_digits_runPass (xs : List α) (c : Bool) :
    (runPass step xs c).digits.length = xs.length := by
  induction xs generalizing c with
  | nil => rfl
  | cons x xs ih => simp [runPass, ih]

/-- A pass has decimal digits if its digit step has. -/
theorem allDecimal_digits_runPass (h : ∀ x c, (step x c).digit ≤ 9) (xs : List α) (c : Bool) :
    allDecimal (runPass step xs c).digits = true := by
  rw [allDecimal_iff]
  induction xs generalizing c with
  | nil => simp [runPass]
  | cons x xs ih =>
    simp only [runPass, List.mem_cons, forall_eq_or_imp]
    exact ⟨h x c, ih _⟩

/-- A pass meets a forbidden nibble exactly when one of its positions holds one. -/
theorem fc_runPass_iff {bad : α → Prop} (h : ∀ x c, (step x c).fc = true ↔ bad x) (xs : List α)
    (c : Bool) : (runPass step xs c).fc = true ↔ ∃ x ∈ xs, bad x := by
  induction xs generalizing c with
  | nil => simp [runPass]
  | cons x xs ih => simp [runPass, h, ih]

@[simp] theorem carryInto_zero (xs : List α) (c : Bool) : carryInto step xs c 0 = c := by
  cases xs <;> rfl

/-- The carry above the last position is the carry out of the pass. -/
theorem carryInto_length (xs : List α) (c : Bool) :
    carryInto step xs c xs.length = (runPass step xs c).carry := by
  induction xs generalizing c with
  | nil => rfl
  | cons x xs ih => exact ih _

/-- The digit of a position is that of its digit step. -/
theorem digitAt_runPass {xs : List α} {k : Nat} {x : α} (hx : xs[k]? = some x) (c : Bool) :
    (runPass step xs c).digitAt k = (step x (carryInto step xs c k)).digit := by
  induction xs generalizing c k with
  | nil => simp at hx
  | cons y ys ih =>
    cases k with
    | zero =>
      obtain rfl : y = x := by simpa using hx
      rfl
    | succ k => exact ih (by simpa using hx) _

/-- The carry out of a position is that of its digit step. -/
theorem carryInto_succ {xs : List α} {k : Nat} {x : α} (hx : xs[k]? = some x) (c : Bool) :
    carryInto step xs c (k + 1) = (step x (carryInto step xs c k)).carry := by
  induction xs generalizing c k with
  | nil => simp at hx
  | cons y ys ih =>
    cases k with
    | zero =>
      obtain rfl : y = x := by simpa using hx
      simp [carryInto]
    | succ k => exact ih (by simpa using hx) _

end

/-- A decimal digit of a pass. -/
theorem Pass.digitAt_le {p : Pass} (h : allDecimal p.digits = true) (k : Nat) : p.digitAt k ≤ 9 := by
  rw [Pass.digitAt, List.getD_eq_getElem?_getD]
  cases hk : p.digits[k]? with
  | none => simp
  | some d => exact allDecimal_iff.mp h d (List.mem_of_getElem? hk)

/-! ### The digit steps -/

theorem digitStep_digit_le (x y : Nat) (c : Bool) : (digitStep x y c).digit ≤ 9 := by
  by_cases h : 9 < x ∨ 9 < y
  · simp [digitStep, h]
  · exact (digitStep_value c (by omega) (by omega)).2.1

/-- A forbidden nibble gives digit 0 and no carry in the main pass (R142). -/
theorem mainStep_forbidden (compl : Bool) {x y : Nat} (c : Bool) (h : 9 < x ∨ 9 < y) :
    mainStep compl x y c = ⟨0, false, true⟩ := if_pos h

theorem mainStep_digit_le (compl : Bool) (x y : Nat) (c : Bool) : (mainStep compl x y c).digit ≤ 9 := by
  by_cases h : 9 < x ∨ 9 < y
  · simp [mainStep_forbidden compl c h]
  · exact (mainStep_value compl c (by omega) (by omega)).2.1

theorem mainStep_fc_iff (compl : Bool) (x y : Nat) (c : Bool) :
    (mainStep compl x y c).fc = true ↔ 9 < x ∨ 9 < y := by
  by_cases h : 9 < x ∨ 9 < y
  · simp [mainStep_forbidden compl c h, h]
  · simp [(mainStep_value compl c (x := x) (y := y) (by omega) (by omega)).1, h]

/-- A forbidden nibble gives digit 0 and no carry in an extract (R149). -/
theorem extractStep_forbidden {v p : Nat} (c : Bool) (h : 9 < v ∨ 9 < p) :
    extractStep v p c = ⟨0, false, true⟩ := if_pos h

/-- An even pattern digit replaces the value digit and drops the carry (R149). -/
theorem extractStep_even {v p : Nat} (c : Bool) (hv : v ≤ 9) (hp : p ≤ 9) (h : p % 2 = 0) :
    extractStep v p c = ⟨p, false, false⟩ := by
  rw [extractStep, if_neg (by omega), if_pos h]

/-- An odd pattern digit, less its low bit, is added (R149). -/
theorem extractStep_odd {v p : Nat} (c : Bool) (hv : v ≤ 9) (hp : p ≤ 9) (h : p % 2 = 1) :
    extractStep v p c = digitStep v (p - 1) c := by
  rw [extractStep, if_neg (by omega), if_neg (by omega)]

theorem extractStep_digit_le (v p : Nat) (c : Bool) : (extractStep v p c).digit ≤ 9 := by
  by_cases h : 9 < v ∨ 9 < p
  · simp [extractStep_forbidden c h]
  · obtain even | odd := Nat.mod_two_eq_zero_or_one p
    · simp only [extractStep_even c (v := v) (by omega) (by omega) even]
      omega
    · rw [extractStep_odd c (by omega) (by omega) odd]
      exact digitStep_digit_le _ _ _

theorem extractStep_fc_iff (v p : Nat) (c : Bool) :
    (extractStep v p c).fc = true ↔ 9 < v ∨ 9 < p := by
  by_cases h : 9 < v ∨ 9 < p
  · simp [extractStep_forbidden c h, h]
  · obtain even | odd := Nat.mod_two_eq_zero_or_one p
    · simp [extractStep_even c (v := v) (by omega) (by omega) even, h]
    · rw [extractStep_odd c (by omega) (by omega) odd,
        (digitStep_value c (x := v) (by omega) (by omega)).1]
      simp [h]

/-! ### The digits of words -/

theorem getElem?_digitsOf {n k : Nat} (h : k < n) (v : Nat) : (digitsOf n v)[k]? = some (nibble v k) := by
  induction n generalizing k v with
  | zero => omega
  | succ n ih =>
    cases k with
    | zero => simp [digitsOf, nibble]
    | succ k =>
      simp only [digitsOf, List.getElem?_cons_succ]
      rw [ih (by omega), nibble, nibble, Nat.div_div_eq_div_mul, ← Nat.pow_succ']

theorem mem_digitsOf_iff {n v x : Nat} : x ∈ digitsOf n v ↔ ∃ k < n, nibble v k = x := by
  rw [List.mem_iff_getElem?]
  constructor
  · rintro ⟨k, hk⟩
    have lt : k < n := by simpa using (List.getElem?_eq_some_iff.mp hk).1
    exact ⟨k, lt, by simpa [getElem?_digitsOf lt] using hk⟩
  · rintro ⟨k, lt, rfl⟩
    exact ⟨k, getElem?_digitsOf lt v⟩

/-- A word is valid when its eleven digits are decimal (R152). -/
theorem validWord_iff {w : Word} : validWord w = true ↔ ∀ k, 1 ≤ k → k ≤ 11 → digit w k ≤ 9 := by
  simp only [validWord, allDecimal_iff, mem_digitsOf_iff]
  constructor
  · intro h k _ _
    exact h _ ⟨k - 1, by omega, rfl⟩
  · rintro h _ ⟨k, hk, rfl⟩
    exact h (k + 1) (by omega) (by omega)

/-- The pairs of magnitude digits of two words, from which both operations of the adder start. -/
def magnitudePositions (a d : Word) : List (Nat × Nat) :=
  (digitsOf 10 a.toNat).zip (digitsOf 10 d.toNat)

@[simp] theorem length_magnitudePositions (a d : Word) : (magnitudePositions a d).length = 10 := by
  simp [magnitudePositions]

theorem getElem?_magnitudePositions (a d : Word) {k : Nat} (h : k < 10) :
    (magnitudePositions a d)[k]? = some (digit a (k + 1), digit d (k + 1)) :=
  List.getElem?_zip_eq_some.mpr ⟨getElem?_digitsOf h _, getElem?_digitsOf h _⟩

theorem mem_magnitudePositions {a d : Word} {p : Nat × Nat} :
    p ∈ magnitudePositions a d ↔ ∃ k < 10, p = (digit a (k + 1), digit d (k + 1)) := by
  rw [List.mem_iff_getElem?]
  constructor
  · rintro ⟨k, hk⟩
    have lt : k < 10 := by simpa using (List.getElem?_eq_some_iff.mp hk).1
    exact ⟨k, lt, by simpa [getElem?_magnitudePositions a d lt, eq_comm] using hk⟩
  · rintro ⟨k, lt, rfl⟩
    exact ⟨k, getElem?_magnitudePositions a d lt⟩

/-- The eleven positions of an addition: the magnitude digits, and 0 + 0 above them (R142). -/
theorem addPositions_eq (a d : Word) : addPositions a d = magnitudePositions a d ++ [(0, 0)] := rfl

@[simp] theorem length_addPositions (a d : Word) : (addPositions a d).length = 11 := by
  simp [addPositions_eq]

theorem getElem?_addPositions (a d : Word) {k : Nat} (h : k < 10) :
    (addPositions a d)[k]? = some (digit a (k + 1), digit d (k + 1)) := by
  rw [addPositions_eq, List.getElem?_append_left (by simpa using h), getElem?_magnitudePositions a d h]

theorem getElem?_addPositions_top (a d : Word) : (addPositions a d)[10]? = some (0, 0) := by
  rw [addPositions_eq, List.getElem?_append_right (by simp)]
  simp

/-! ### Unsigned adds and forbidden nibbles -/

/-- Settles O14: the unsigned add is the main pass without complement, whose value is known on decimal
digits. -/
theorem unsignedAddIsDecimalAddition : Obligations.UnsignedAddIsDecimalAddition := by
  intro n x y cin hx hy
  obtain ⟨left, right⟩ := map_zip_sides (digitsOf n x) (digitsOf n y) (by simp)
  have decimal : ∀ p ∈ (digitsOf n x).zip (digitsOf n y), p.1 ≤ 9 ∧ p.2 ≤ 9 := fun p hp =>
    ⟨allDecimal_iff.mp hx _ (List.of_mem_zip hp).1, allDecimal_iff.mp hy _ (List.of_mem_zip hp).2⟩
  have value := mainPass_value false _ cin decimal
  rw [left, right] at value
  simpa [bcdAddN, unsignedPass_eq_mainPass] using value

/-- One of the 22 nibbles exceeds 9 exactly when a sign digit does or a pair of magnitude digits holds one
that does. -/
theorem exists_forbidden_iff (a d : Word) :
    (∃ k, 1 ≤ k ∧ k ≤ 11 ∧ (9 < digit a k ∨ 9 < digit d k)) ↔
      (∃ p ∈ magnitudePositions a d, 9 < p.1 ∨ 9 < p.2) ∨ signDigitsForbidden a d = true := by
  simp only [mem_magnitudePositions, signDigitsForbidden, Bool.or_eq_true, decide_eq_true_iff]
  constructor
  · rintro ⟨k, low, high, bad⟩
    by_cases top : k = 11
    · exact .inr (top ▸ bad)
    · obtain ⟨k, rfl⟩ := Nat.exists_eq_add_of_le' low
      exact .inl ⟨_, ⟨k, by omega, rfl⟩, bad⟩
  · rintro (⟨_, ⟨k, lt, rfl⟩, bad⟩ | bad)
    · exact ⟨k + 1, by omega, by omega, bad⟩
    · exact ⟨11, by omega, by omega, bad⟩

/-- An addition reports a Forbidden Combination exactly when it consumes a nibble above 9 (R143). -/
theorem serialAdd_fc_iff (a d : Word) :
    (serialAdd a d).fc = true ↔ ∃ k, 1 ≤ k ∧ k ≤ 11 ∧ (9 < digit a k ∨ 9 < digit d k) := by
  have pass (compl : Bool) : (mainPass compl (addPositions a d) compl).fc = true ↔
      ∃ p ∈ magnitudePositions a d, 9 < p.1 ∨ 9 < p.2 := by
    rw [mainPass_eq_runPass, fc_runPass_iff (fun (p : Nat × Nat) => mainStep_fc_iff compl p.1 p.2),
      addPositions_eq]
    simp [or_and_right, exists_or]
  rw [exists_forbidden_iff, ← pass, ← Bool.or_eq_true]
  rfl

/-- An extract reports a Forbidden Combination exactly when it consumes a nibble above 9 (R150). -/
theorem serialExtract_fc_iff (a d : Word) :
    (serialExtract a d).fc = true ↔ ∃ k, 1 ≤ k ∧ k ≤ 11 ∧ (9 < digit a k ∨ 9 < digit d k) := by
  have pass : (extractPass (magnitudePositions a d) false).fc = true ↔
      ∃ p ∈ magnitudePositions a d, 9 < p.1 ∨ 9 < p.2 := by
    rw [extractPass_eq_runPass, fc_runPass_iff (fun (p : Nat × Nat) => extractStep_fc_iff p.1 p.2)]
  rw [exists_forbidden_iff, ← pass, ← Bool.or_eq_true]
  rfl

/-- Settles O12: in either operation a position is forbidden by its nibbles alone, whatever the carry. -/
theorem forbiddenExactlyWhenANibbleExceedsNine : Obligations.ForbiddenExactlyWhenANibbleExceedsNine :=
  fun a d => ⟨serialAdd_fc_iff a d, serialExtract_fc_iff a d⟩

end Sys2Proof.Machine
end

section
/-! PROOFS. The digits of a sum and of an extract: the word that either operation answers holds its last pass's
digits under its sign digit (spec/41_decimal_adder.md R141-R150). -/

namespace Sys2Proof.Machine

/-! ### Words built of digits -/

/-- Digit 11 is the sign digit (R7). -/
theorem digit_eleven (w : Word) : digit w 11 = (signDigitOf w).toNat := by
  simp [digit, signDigitOf, Nat.shiftRight_eq_div_pow]

@[simp] theorem digit_eleven_joinSign (sign : BitVec 4) (mag : Extension) :
    digit (joinSign sign mag) 11 = sign.toNat := by
  rw [digit_eleven, signDigitOf_joinSign]

/-- The ten digits of a word are those packed below its sign digit. -/
theorem digitsOf_joinSign_packDigits (sign : BitVec 4) {ds : List Nat} (hl : ds.length = 10)
    (h : allDecimal ds = true) :
    digitsOf 10 (joinSign sign (BitVec.ofNat 40 (packDigits ds))).toNat = ds := by
  rw [digitsOf_joinSign, ← digitsOf_joinSign (BitVec.ofNat 4 false.toNat)]
  exact digitsOf_signedWord false hl h

theorem digit_of_digitsOf {w : Word} {ds : List Nat} (h : digitsOf 10 w.toNat = ds) {k : Nat}
    (hk : k < 10) : digit w (k + 1) = ds.getD k 0 := by
  rw [← h, List.getD_eq_getElem?_getD, getElem?_digitsOf hk]
  rfl

theorem allDecimal_take {ds : List Nat} (h : allDecimal ds = true) (n : Nat) :
    allDecimal (ds.take n) = true :=
  allDecimal_iff.mpr fun d hd => allDecimal_iff.mp h d (List.mem_of_mem_take hd)

/-! ### The passes of an addition -/

/-- The main pass of an addition (R142). -/
def sumPass (a d : Word) : Pass :=
  mainPass (serialAdd a d).compl (addPositions a d) (serialAdd a d).compl

/-- The last pass that an addition runs: the recomplement pass at a top digit of 9 (R144). -/
def lastPass (a d : Word) : Pass :=
  if (serialAdd a d).top == 9 then recomplementPass (sumPass a d).digits true else sumPass a d

theorem lastPass_of_top {a d : Word} (h : (serialAdd a d).top = 9) :
    lastPass a d = recomplementPass (sumPass a d).digits true :=
  if_pos (beq_iff_eq.mpr h)

theorem lastPass_of_not_top {a d : Word} (h : (serialAdd a d).top ≠ 9) :
    lastPass a d = sumPass a d :=
  if_neg (mt beq_iff_eq.mp h)

@[simp] theorem length_digits_sumPass (a d : Word) : (sumPass a d).digits.length = 11 := by
  simp [sumPass, mainPass_eq_runPass]

theorem allDecimal_digits_sumPass (a d : Word) : allDecimal (sumPass a d).digits = true := by
  rw [sumPass, mainPass_eq_runPass]
  exact allDecimal_digits_runPass (fun (p : Nat × Nat) => mainStep_digit_le _ p.1 p.2) _ _

@[simp] theorem length_digits_lastPass (a d : Word) : (lastPass a d).digits.length = 11 := by
  rw [lastPass]
  split
  · simp [recomplementPass_eq_runPass]
  · simp

theorem allDecimal_digits_lastPass (a d : Word) : allDecimal (lastPass a d).digits = true := by
  rw [lastPass]
  split
  · exact (recomplementPass_value _ true (allDecimal_digits_sumPass a d)).2.1
  · exact allDecimal_digits_sumPass a d

theorem serialAdd_compl (a d : Word) : (serialAdd a d).compl = (signBit a ^^ signBit d) := rfl

theorem serialAdd_sign (a d : Word) :
    (serialAdd a d).sign = (signBit d ^^ decide ((serialAdd a d).top = 9)) := rfl

theorem serialAdd_ovf_iff (a d : Word) : (serialAdd a d).ovf = true ↔ (serialAdd a d).top = 1 :=
  beq_iff_eq

/-- The top digit is the main pass's at position 11 (R144). -/
theorem serialAdd_top (a d : Word) : (serialAdd a d).top = (sumPass a d).digitAt 10 := by
  have last : (serialAdd a d).top = (sumPass a d).digits.getLastD 0 := rfl
  rw [last, Pass.digitAt, List.getLastD_eq_getLast?, List.getLast?_eq_getElem?,
    List.getD_eq_getElem?_getD, length_digits_sumPass]

theorem serialAdd_sum (a d : Word) :
    (serialAdd a d).sum = signedWord (serialAdd a d).sign (packDigits ((lastPass a d).digits.take 10)) :=
  rfl

theorem serialAdd_ct (a d : Word) : (serialAdd a d).ct = (lastPass a d).carry := rfl

/-- The ten digits of a sum are the low ones of the last pass (R145). -/
theorem digitsOf_sum (a d : Word) :
    digitsOf 10 (serialAdd a d).sum.toNat = (lastPass a d).digits.take 10 := by
  rw [serialAdd_sum]
  exact digitsOf_signedWord _ (by simp) (allDecimal_take (allDecimal_digits_lastPass a d) 10)

theorem digit_sum (a d : Word) {k : Nat} (hk : k < 10) :
    digit (serialAdd a d).sum (k + 1) = (lastPass a d).digitAt k := by
  rw [digit_of_digitsOf (digitsOf_sum a d) hk, Pass.digitAt, List.getD_eq_getElem?_getD,
    List.getElem?_take_of_lt hk, List.getD_eq_getElem?_getD]

/-- The sign digit of a sum is 0 or 1, its sign (R145). -/
theorem digit_eleven_sum (a d : Word) : digit (serialAdd a d).sum 11 = (serialAdd a d).sign.toNat := by
  rw [serialAdd_sum, signedWord, digit_eleven_joinSign]
  cases (serialAdd a d).sign <;> rfl

/-! ### The main pass, position by position -/

/-- The carry into a position of the main pass, the lowest being position 0. -/
def sumCarry (a d : Word) : Nat → Bool :=
  carryInto (fun p : Nat × Nat => mainStep (serialAdd a d).compl p.1 p.2) (addPositions a d)
    (serialAdd a d).compl

@[simp] theorem sumCarry_zero (a d : Word) : sumCarry a d 0 = (serialAdd a d).compl :=
  carryInto_zero _ _

theorem sumCarry_eleven (a d : Word) : sumCarry a d 11 = (sumPass a d).carry := by
  rw [sumPass, mainPass_eq_runPass, ← carryInto_length, length_addPositions]
  rfl

/-- The digit and the carry out of a position of the main pass are those of its step (R142). -/
theorem sumPass_position {a d : Word} {k : Nat} {p : Nat × Nat} (hp : (addPositions a d)[k]? = some p) :
    (sumPass a d).digitAt k = (mainStep (serialAdd a d).compl p.1 p.2 (sumCarry a d k)).digit ∧
      sumCarry a d (k + 1) = (mainStep (serialAdd a d).compl p.1 p.2 (sumCarry a d k)).carry := by
  rw [sumPass, mainPass_eq_runPass]
  exact ⟨digitAt_runPass hp _, carryInto_succ hp _⟩

/-- A forbidden position gives 0 and no carry (R142, R143). -/
theorem sumPass_forbidden {a d : Word} {k : Nat} (hk : k < 10)
    (h : 9 < digit a (k + 1) ∨ 9 < digit d (k + 1)) :
    (sumPass a d).digitAt k = 0 ∧ sumCarry a d (k + 1) = false := by
  obtain ⟨hd, hc⟩ := sumPass_position (getElem?_addPositions a d hk)
  rw [mainStep_forbidden _ _ h] at hd hc
  exact ⟨hd, hc⟩

/-- A position of decimal digits adds them, the augend's complemented in complement mode (R142). -/
theorem sumPass_value {a d : Word} {k x y : Nat} (hp : (addPositions a d)[k]? = some (x, y))
    (hx : x ≤ 9) (hy : y ≤ 9) :
    (sumPass a d).digitAt k + 10 * (sumCarry a d (k + 1)).toNat =
      (if (serialAdd a d).compl = true then 9 - x else x) + y + (sumCarry a d k).toNat := by
  obtain ⟨hd, hc⟩ := sumPass_position hp
  rw [hd, hc]
  exact (mainStep_value _ _ hx hy).2.2

/-- Position 11 adds the complement's 9, or 0, and the carry out of digit 10 (R142). -/
theorem sumPass_top_value (a d : Word) :
    (sumPass a d).digitAt 10 + 10 * (sumCarry a d 11).toNat =
      (if (serialAdd a d).compl = true then 9 else 0) + (sumCarry a d 10).toNat :=
  sumPass_value (getElem?_addPositions_top a d) (by omega) (by omega)

/-- The top digit is 0, 1 or 9 (R148). -/
theorem serialAdd_top_cases (a d : Word) :
    (serialAdd a d).top = 0 ∨ (serialAdd a d).top = 1 ∨ (serialAdd a d).top = 9 := by
  have value := sumPass_top_value a d
  have decimal := Pass.digitAt_le (allDecimal_digits_sumPass a d) 10
  have carryIn := Bool.toNat_le (sumCarry a d 10)
  rw [serialAdd_top]
  split at value <;> omega

/-- The adder's assertion never fires: an addition into A records its sum (R147, R148). -/
theorem addIntoA_eq (a d : Word) (s : State) : addIntoA a d s = .next (recordSum (serialAdd a d) s) := by
  have ok : (serialAdd a d).topOk = true := by
    obtain h | h | h := serialAdd_top_cases a d <;> simp [AddResult.topOk, h]
  rw [addIntoA, if_pos ok]

/-! ### The recomplement pass, position by position -/

/-- The carry into a position of the recomplement pass, the lowest being position 0. -/
def recomplementCarry (ds : List Nat) : Nat → Bool := carryInto (fun x => digitStep (9 - x) 0) ds true

@[simp] theorem recomplementCarry_zero (ds : List Nat) : recomplementCarry ds 0 = true :=
  carryInto_zero _ _

theorem recomplementCarry_length (ds : List Nat) :
    recomplementCarry ds ds.length = (recomplementPass ds true).carry := by
  rw [recomplementPass_eq_runPass, ← carryInto_length]
  rfl

/-- A position of the recomplement pass is the nine's complement of its digit plus the carry (R144). -/
theorem recomplementPass_position {ds : List Nat} {k : Nat} (hk : k < ds.length) :
    (recomplementPass ds true).digitAt k + 10 * (recomplementCarry ds (k + 1)).toNat =
      (9 - ds.getD k 0) + (recomplementCarry ds k).toNat := by
  have nth := List.getElem?_eq_getElem hk
  rw [recomplementPass_eq_runPass, digitAt_runPass nth, recomplementCarry, carryInto_succ nth,
    List.getD_eq_getElem ds 0 hk]
  exact (digitStep_value _ (by omega) (by omega)).2.2

/-- Settles O11: each pass is read position by position, and position 11 of the main pass adds 0 or 9 and a
carry. -/
theorem adderPassesDigitByDigit : Obligations.AdderPassesDigitByDigit := by
  intro a d
  refine ⟨serialAdd_compl a d, serialAdd_sign a d, serialAdd_ovf_iff a d, digit_eleven_sum a d,
    ⟨fun k => (sumPass a d).digitAt (k - 1), fun k => (sumCarry a d (k - 1)).toNat,
      congrArg Bool.toNat (sumCarry_zero a d), fun k low high => ?_, (serialAdd_top a d).symm,
      Pass.digitAt_le (allDecimal_digits_sumPass a d) 10, Bool.toNat_le _, sumPass_top_value a d,
      fun h => ⟨fun k low high => ?_, ?_⟩, fun h => ?_⟩,
    serialAdd_top_cases a d, addIntoA_eq a d⟩
  · obtain ⟨k, rfl⟩ := Nat.exists_eq_add_of_le' low
    refine ⟨fun bad => ?_, fun hx hy => ⟨?_, Bool.toNat_le _, ?_⟩⟩
    · obtain ⟨zero, noCarry⟩ := sumPass_forbidden (by omega) bad
      exact ⟨zero, congrArg Bool.toNat noCarry⟩
    · exact Pass.digitAt_le (allDecimal_digits_sumPass a d) k
    · exact sumPass_value (getElem?_addPositions a d (by omega)) hx hy
  · obtain ⟨k, rfl⟩ := Nat.exists_eq_add_of_le' low
    rw [digit_sum a d (by omega), lastPass_of_not_top h]
    rfl
  · rw [serialAdd_ct, lastPass_of_not_top h, ← sumCarry_eleven]
    exact Bool.toNat_eq_one.symm
  · have decimal := allDecimal_digits_lastPass a d
    have last := lastPass_of_top h
    rw [last] at decimal
    refine ⟨fun k => (recomplementPass (sumPass a d).digits true).digitAt (k - 1),
      fun k => (recomplementCarry (sumPass a d).digits (k - 1)).toNat,
      congrArg Bool.toNat (recomplementCarry_zero _),
      fun k low high => ⟨Pass.digitAt_le decimal _, Bool.toNat_le _, ?_⟩, fun k low high => ?_, ?_⟩
    · obtain ⟨k, rfl⟩ := Nat.exists_eq_add_of_le' low
      exact recomplementPass_position (by rw [length_digits_sumPass]; omega)
    · obtain ⟨k, rfl⟩ := Nat.exists_eq_add_of_le' low
      rw [digit_sum a d (by omega), last]
      rfl
    · rw [serialAdd_ct, last, ← recomplementCarry_length, length_digits_sumPass]
      exact Bool.toNat_eq_one.symm

/-! ### An extract, position by position -/

/-- The carry into a magnitude position of an extract, the lowest being position 0. -/
def extractCarry (a d : Word) : Nat → Bool :=
  carryInto (fun p : Nat × Nat => extractStep p.1 p.2) (magnitudePositions a d) false

@[simp] theorem extractCarry_zero (a d : Word) : extractCarry a d 0 = false := carryInto_zero _ _

/-- The carry out of digit 10 is the Overflow (R149). -/
theorem serialExtract_ovf (a d : Word) : (serialExtract a d).ovf = extractCarry a d 10 := by
  have out : (serialExtract a d).ovf = (extractPass (magnitudePositions a d) false).carry := rfl
  rw [out, extractPass_eq_runPass, ← carryInto_length, length_magnitudePositions]
  rfl

/-- The digit and the carry out of a magnitude position of an extract are those of its step (R149). -/
theorem serialExtract_position (a d : Word) {k : Nat} (hk : k < 10) :
    digit (serialExtract a d).merged (k + 1) =
        (extractStep (digit a (k + 1)) (digit d (k + 1)) (extractCarry a d k)).digit ∧
      extractCarry a d (k + 1) =
        (extractStep (digit a (k + 1)) (digit d (k + 1)) (extractCarry a d k)).carry := by
  have nth := getElem?_magnitudePositions a d hk
  have merged : digitsOf 10 (serialExtract a d).merged.toNat =
      (runPass (fun p : Nat × Nat => extractStep p.1 p.2) (magnitudePositions a d) false).digits := by
    rw [← extractPass_eq_runPass]
    refine digitsOf_joinSign_packDigits _ ?_ ?_ <;> rw [extractPass_eq_runPass]
    · exact (length_digits_runPass _ _).trans (length_magnitudePositions a d)
    · exact allDecimal_digits_runPass (fun (p : Nat × Nat) => extractStep_digit_le p.1 p.2) _ _
  rw [digit_of_digitsOf merged hk]
  exact ⟨digitAt_runPass nth _, carryInto_succ nth _⟩

/-- An odd pattern digit, less its low bit, is added with the carry (R149). -/
theorem serialExtract_odd {a d : Word} {k : Nat} (hk : k < 10) (ha : digit a (k + 1) ≤ 9)
    (hd : digit d (k + 1) ≤ 9) (odd : digit d (k + 1) % 2 = 1) :
    digit (serialExtract a d).merged (k + 1) ≤ 9 ∧
      digit (serialExtract a d).merged (k + 1) + 10 * (extractCarry a d (k + 1)).toNat =
        digit a (k + 1) + (digit d (k + 1) - 1) + (extractCarry a d k).toNat := by
  obtain ⟨hm, hc⟩ := serialExtract_position a d hk
  rw [hm, hc, extractStep_odd _ ha hd odd]
  exact (digitStep_value _ ha (by omega)).2

/-- An even pattern digit takes the value digit's place, and no carry leaves it (R149). -/
theorem serialExtract_even {a d : Word} {k : Nat} (hk : k < 10) (ha : digit a (k + 1) ≤ 9)
    (hd : digit d (k + 1) ≤ 9) (even : digit d (k + 1) % 2 = 0) :
    digit (serialExtract a d).merged (k + 1) = digit d (k + 1) ∧ extractCarry a d (k + 1) = false := by
  obtain ⟨hm, hc⟩ := serialExtract_position a d hk
  rw [extractStep_even _ ha hd even] at hm hc
  exact ⟨hm, hc⟩

/-- A forbidden nibble gives 0 and no carry (R149). -/
theorem serialExtract_forbidden {a d : Word} {k : Nat} (hk : k < 10)
    (h : 9 < digit a (k + 1) ∨ 9 < digit d (k + 1)) :
    digit (serialExtract a d).merged (k + 1) = 0 ∧ extractCarry a d (k + 1) = false := by
  obtain ⟨hm, hc⟩ := serialExtract_position a d hk
  rw [extractStep_forbidden _ h] at hm hc
  exact ⟨hm, hc⟩

/-- The sign digit of an extract depends on the two sign digits alone (R150). -/
theorem digit_eleven_merged (a d : Word) :
    digit (serialExtract a d).merged 11 = extractSign (digit a 11) (digit d 11) := by
  have lt : extractSign (digit a 11) (digit d 11) < 2 ^ 4 := by
    unfold extractSign
    split <;> [skip; split] <;> omega
  rw [serialExtract, digit_eleven_joinSign, BitVec.toNat_ofNat, Nat.mod_eq_of_lt lt]

/-- The sign digit of an extract of decimal sign digits (R150). -/
theorem extractSign_decimal {v p : Nat} (hv : v ≤ 9) (hp : p ≤ 9) :
    extractSign v p = if p % 2 = 0 then p else (v + (p - 1)) % 10 := by
  rw [extractSign, if_neg (by omega)]
  split
  · rfl
  · rw [Nat.add_sub_assoc (by omega)]

/-- Under a pattern of 0s and 1s no position of a valid value carries (R149). -/
theorem extractCarry_of_mask {a d : Word} (ha : validWord a = true)
    (mask : ∀ k, 1 ≤ k → k ≤ 11 → digit d k ≤ 1) {k : Nat} (hk : k ≤ 10) : extractCarry a d k = false := by
  induction k with
  | zero => exact extractCarry_zero a d
  | succ k ih =>
    have value := validWord_iff.mp ha (k + 1) (by omega) (by omega)
    have pattern := mask (k + 1) (by omega) (by omega)
    obtain even | odd := Nat.mod_two_eq_zero_or_one (digit d (k + 1))
    · exact (serialExtract_even hk value (by omega) even).2
    · have added := (serialExtract_odd hk value (by omega) odd).2
      rw [ih (by omega)] at added
      refine Bool.toNat_eq_zero.mp ?_
      simp only [Bool.toNat_false] at added
      omega

/-- A pattern of 0s and 1s keeps the digits of a valid value under 1 and zeroes those under 0 (R149, R150). -/
theorem digit_merged_of_mask {a d : Word} (ha : validWord a = true)
    (mask : ∀ k, 1 ≤ k → k ≤ 11 → digit d k ≤ 1) {k : Nat} (low : 1 ≤ k) (high : k ≤ 11) :
    digit (serialExtract a d).merged k = if digit d k = 1 then digit a k else 0 := by
  have value := validWord_iff.mp ha k low high
  have pattern := mask k low high
  by_cases sign : k = 11
  · subst sign
    rw [digit_eleven_merged, extractSign_decimal value (by omega)]
    split <;> split <;> omega
  · obtain ⟨k, rfl⟩ := Nat.exists_eq_add_of_le' low
    split
    next one =>
      have added := (serialExtract_odd (d := d) (by omega) value (by omega) (by omega)).2
      rw [extractCarry_of_mask ha mask (show k + 1 ≤ 10 by omega),
        extractCarry_of_mask ha mask (show k ≤ 10 by omega), one] at added
      simpa using added
    next notOne =>
      rw [(serialExtract_even (by omega) value (by omega) (by omega)).1]
      omega

/-- Settles O13: the pattern digit chooses the position's step, and under a mask no step carries. -/
theorem extractReplacesAndMasks : Obligations.ExtractReplacesAndMasks := by
  intro a d
  refine ⟨⟨fun k => (extractCarry a d (k - 1)).toNat, congrArg Bool.toNat (extractCarry_zero a d), ?_,
    fun k low high => ?_⟩, fun bad => ?_, fun ha hd => ?_, fun ha mask => ⟨?_, ?_⟩⟩
  · rw [serialExtract_ovf]
    exact Bool.toNat_eq_one.symm
  · obtain ⟨k, rfl⟩ := Nat.exists_eq_add_of_le' low
    refine ⟨fun bad => ?_, fun ha hd even => ?_, fun ha hd odd => ?_⟩
    · obtain ⟨zero, noCarry⟩ := serialExtract_forbidden (by omega) bad
      exact ⟨zero, congrArg Bool.toNat noCarry⟩
    · obtain ⟨replaced, noCarry⟩ := serialExtract_even (by omega) ha hd even
      exact ⟨replaced, congrArg Bool.toNat noCarry⟩
    · obtain ⟨decimal, added⟩ := serialExtract_odd (by omega) ha hd odd
      exact ⟨decimal, Bool.toNat_le _, added⟩
  · rw [digit_eleven_merged, extractSign, if_pos bad]
  · rw [digit_eleven_merged, extractSign_decimal ha hd]
  · rw [serialExtract_ovf, extractCarry_of_mask ha mask (Nat.le_refl 10)]
  · exact fun k low high => digit_merged_of_mask ha mask low high

end Sys2Proof.Machine
end

section
/-! PROOFS. The sum of valid words is the integer sum of their signed decimal values, and so is what each
arithmetic instruction computes (spec/41_decimal_adder.md R152; spec/43_arithmetic.md R210-R220). -/

namespace Sys2Proof.Machine

/-! ### Values of words -/

/-- The top digit of a list stands for its power of ten. -/
theorem decimalValue_eq_take_add {n : Nat} {ds : List Nat} (h : ds.length = n + 1) :
    decimalValue ds = decimalValue (ds.take n) + 10 ^ n * ds.getD n 0 := by
  obtain ⟨last, hl⟩ : ∃ last, ds.drop n = [last] := List.length_eq_one_iff.mp (by simp [h])
  have top : ds.getD n 0 = last := by
    rw [List.getD_eq_getElem?_getD, ← Nat.add_zero n, ← List.getElem?_drop, hl]
    rfl
  conv_lhs => rw [← List.take_append_drop n ds, decimalValue_append, hl]
  rw [top, List.length_take_of_le (by omega)]
  rfl

/-- A word is valid when its magnitude digits and its sign digit are decimal (R152). -/
theorem validWord_iff_parts {w : Word} :
    validWord w = true ↔ allDecimal (digitsOf 10 w.toNat) = true ∧ (signDigitOf w).toNat ≤ 9 := by
  rw [validWord, digitsOf_eleven]
  simp [allDecimal]

theorem magnitudeValue_lt {w : Word} (h : validWord w = true) : magnitudeValue w < 10 ^ 10 := by
  have lt := decimalValue_lt (validWord_iff_parts.mp h).1
  rwa [digitsOf_length] at lt

/-- The sum of two words is valid: its pass's digits are decimal and its sign digit is 0 or 1 (R145). -/
theorem validWord_sum (a d : Word) : validWord (serialAdd a d).sum = true := by
  have sign : (signDigitOf (serialAdd a d).sum).toNat ≤ 9 := by
    have bit := Bool.toNat_le (serialAdd a d).sign
    rw [← digit_eleven, digit_eleven_sum]
    omega
  refine validWord_iff_parts.mpr ⟨?_, sign⟩
  rw [digitsOf_sum]
  exact allDecimal_take (allDecimal_digits_lastPass a d) 10

@[simp] theorem signBit_sum (a d : Word) : signBit (serialAdd a d).sum = (serialAdd a d).sign :=
  signBit_signedWord _ _

/-! ### The value of a sum -/

/-- The sides of the eleven positions spell the magnitudes. -/
theorem decimalValue_addPositions (a d : Word) :
    decimalValue ((addPositions a d).map Prod.fst) = magnitudeValue a ∧
      decimalValue ((addPositions a d).map Prod.snd) = magnitudeValue d := by
  obtain ⟨left, right⟩ := map_zip_sides (digitsOf 10 a.toNat) (digitsOf 10 d.toNat) (by simp)
  rw [addPositions_eq, List.map_append, List.map_append, decimalValue_append, decimalValue_append,
    magnitudePositions, left, right]
  simp [decimalValue, magnitudeValue]

/-- The main pass of valid words adds the magnitudes, the augend's complemented in complement mode (R142). -/
theorem sumPass_adds_magnitudes {a d : Word} (ha : validWord a = true) (hd : validWord d = true) :
    decimalValue ((sumPass a d).digits.take 10) + 10 ^ 10 * (serialAdd a d).top
        + 10 ^ 11 * (sumPass a d).carry.toNat + (if (serialAdd a d).compl then magnitudeValue a else 0) =
      (if (serialAdd a d).compl then 10 ^ 11 - 1 else magnitudeValue a) + magnitudeValue d
        + (serialAdd a d).compl.toNat := by
  have decimal : ∀ p ∈ addPositions a d, p.1 ≤ 9 ∧ p.2 ≤ 9 := by
    intro p hp
    rw [addPositions_eq, List.mem_append, List.mem_singleton, mem_magnitudePositions] at hp
    obtain ⟨k, hk, rfl⟩ | rfl := hp
    · exact ⟨validWord_iff.mp ha _ (by omega) (by omega), validWord_iff.mp hd _ (by omega) (by omega)⟩
    · exact ⟨by omega, by omega⟩
  have value := (mainPass_value (serialAdd a d).compl _ (serialAdd a d).compl decimal).2.2.2
  rw [length_addPositions, (decimalValue_addPositions a d).1, (decimalValue_addPositions a d).2,
    ← sumPass, decimalValue_eq_take_add (n := 10) (length_digits_sumPass a d), ← Pass.digitAt,
    ← serialAdd_top] at value
  exact value

theorem decimalValue_take_sumPass_lt (a d : Word) :
    decimalValue ((sumPass a d).digits.take 10) < 10 ^ 10 := by
  have lt := decimalValue_lt (allDecimal_take (allDecimal_digits_sumPass a d) 10)
  rwa [List.length_take_of_le (by simp)] at lt

/-- The magnitude of a sum is what the ten low digits of its last pass spell (R145). -/
theorem magnitudeValue_sum (a d : Word) :
    magnitudeValue (serialAdd a d).sum = decimalValue ((lastPass a d).digits.take 10) := by
  rw [magnitudeValue, digitsOf_sum]

/-- The recomplement pass takes the ten's complement of the main pass's digits (R144). -/
theorem magnitudeValue_sum_recomplemented {a d : Word} (h : (serialAdd a d).top = 9) :
    magnitudeValue (serialAdd a d).sum + 10 ^ 10 * (lastPass a d).digitAt 10
        + 10 ^ 11 * (lastPass a d).carry.toNat + decimalValue ((sumPass a d).digits.take 10) = 10 ^ 10 := by
  have value := (recomplementPass_value _ true (allDecimal_digits_sumPass a d)).2.2
  rw [← lastPass_of_top h, decimalValue_eq_take_add (n := 10) (length_digits_lastPass a d),
    ← magnitudeValue_sum, ← Pass.digitAt, decimalValue_eq_take_add (n := 10) (length_digits_sumPass a d),
    ← Pass.digitAt, ← serialAdd_top, h, length_digits_sumPass, Bool.toNat_true] at value
  omega

/-- Words of one sign: the magnitudes are added, and what is past ten digits is the Overflow (R144, R146). -/
theorem serialAdd_same_sign {a d : Word} (ha : validWord a = true) (hd : validWord d = true)
    (sign : signBit a = signBit d) :
    (serialAdd a d).sign = signBit d ∧
      magnitudeValue (serialAdd a d).sum + 10 ^ 10 * (serialAdd a d).ovf.toNat =
        magnitudeValue a + magnitudeValue d := by
  have plain : (serialAdd a d).compl = false := by simp [serialAdd_compl, sign]
  have value := sumPass_adds_magnitudes ha hd
  simp only [plain, Bool.false_eq_true, if_false, Bool.toNat_false] at value
  have hma := magnitudeValue_lt ha
  have hmd := magnitudeValue_lt hd
  obtain top | top | top := serialAdd_top_cases a d
  · have noOverflow : (serialAdd a d).ovf = false := by
      simp [← Bool.not_eq_true, serialAdd_ovf_iff, top]
    rw [serialAdd_sign, magnitudeValue_sum, lastPass_of_not_top (by omega), noOverflow, top]
    exact ⟨by simp, by simp only [Bool.toNat_false]; omega⟩
  · rw [serialAdd_sign, magnitudeValue_sum, lastPass_of_not_top (by omega),
      (serialAdd_ovf_iff a d).mpr top, top]
    exact ⟨by simp, by simp only [Bool.toNat_true]; omega⟩
  · omega

/-- Words of opposite signs: the smaller magnitude is taken from the larger, whose sign the sum has; equal
ones give a zero of the addend's sign (R144, R145, R152). -/
theorem serialAdd_opposite_signs {a d : Word} (ha : validWord a = true) (hd : validWord d = true)
    (signs : signBit a = !signBit d) :
    (serialAdd a d).ovf = false ∧
      ((serialAdd a d).sign = signBit d ∧
          magnitudeValue (serialAdd a d).sum + magnitudeValue a = magnitudeValue d ∨
        (serialAdd a d).sign = signBit a ∧ magnitudeValue d < magnitudeValue a ∧
          magnitudeValue (serialAdd a d).sum + magnitudeValue d = magnitudeValue a) := by
  have complement : (serialAdd a d).compl = true := by simp [serialAdd_compl, signs]
  have value := sumPass_adds_magnitudes ha hd
  simp only [complement, if_true, Bool.toNat_true] at value
  have hma := magnitudeValue_lt ha
  have hmd := magnitudeValue_lt hd
  have low := decimalValue_take_sumPass_lt a d
  have carry := Bool.toNat_le (sumPass a d).carry
  have notOne : (serialAdd a d).top ≠ 1 := by omega
  refine ⟨by simpa [← Bool.not_eq_true, serialAdd_ovf_iff] using notOne, ?_⟩
  by_cases top : (serialAdd a d).top = 9
  · have recomplemented := magnitudeValue_sum_recomplemented top
    exact .inr ⟨by simp [serialAdd_sign, top, signs], by omega, by omega⟩
  · have zero : (serialAdd a d).top = 0 := by
      have cases := serialAdd_top_cases a d
      omega
    rw [magnitudeValue_sum, lastPass_of_not_top top]
    exact .inl ⟨by simp [serialAdd_sign, top], by omega⟩

/-! ### The law -/

/-- A magnitude with a sign (R8). -/
def signedDecimal (negative : Bool) (m : Nat) : Int := if negative then -(m : Int) else m

theorem signedValue_eq (w : Word) : signedValue w = signedDecimal (signBit w) (magnitudeValue w) := rfl

@[simp] theorem natAbs_signedDecimal (negative : Bool) (m : Nat) : (signedDecimal negative m).natAbs = m := by
  cases negative <;> simp [signedDecimal]

theorem signedDecimal_add (negative : Bool) (m n : Nat) :
    signedDecimal negative (m + n) = signedDecimal negative m + signedDecimal negative n := by
  cases negative
  · simp [signedDecimal]
  · simp [signedDecimal]
    omega

theorem signedDecimal_not (negative : Bool) (m : Nat) :
    signedDecimal (!negative) m = -signedDecimal negative m := by
  cases negative <;> simp [signedDecimal]

/-- The integer sum of valid words has the sign and the digits of the adder's, the Overflow standing for the
eleventh digit; only words of one sign overflow, and a sum against the addend's sign is not zero (R152). -/
theorem serialAdd_total {a d : Word} (ha : validWord a = true) (hd : validWord d = true) :
    signedValue a + signedValue d = signedDecimal (serialAdd a d).sign
        (magnitudeValue (serialAdd a d).sum + 10 ^ 10 * (serialAdd a d).ovf.toNat) ∧
      ((serialAdd a d).ovf = true → signBit a = signBit d ∧ (serialAdd a d).sign = signBit d) ∧
      ((serialAdd a d).sign = signBit d ∨ magnitudeValue (serialAdd a d).sum ≠ 0) := by
  rw [signedValue_eq, signedValue_eq]
  by_cases signs : signBit a = signBit d
  · obtain ⟨sign, value⟩ := serialAdd_same_sign ha hd signs
    rw [sign, signs, value, signedDecimal_add]
    exact ⟨rfl, fun _ => ⟨rfl, rfl⟩, .inl rfl⟩
  · have opposite : signBit a = !signBit d := Bool.eq_not.mpr signs
    obtain ⟨ovf, ⟨sign, value⟩ | ⟨sign, lt, value⟩⟩ := serialAdd_opposite_signs ha hd opposite
    · rw [ovf, sign, ← value, opposite, signedDecimal_not, signedDecimal_add]
      exact ⟨by simp, by simp, .inl rfl⟩
    · rw [ovf, sign, ← value, Bool.eq_not_of_ne (Ne.symm signs), signedDecimal_not, signedDecimal_add]
      exact ⟨by simp, by simp, .inr (by omega)⟩

/-- Settles O10: the integer sum is the adder's with its Overflow above the ten digits. -/
theorem serialAddIsSignedDecimalAddition : Obligations.SerialAddIsSignedDecimalAddition := by
  intro a d ha hd
  obtain ⟨total, overflows, nonzero⟩ := serialAdd_total ha hd
  have tenDigits := magnitudeValue_lt (validWord_sum a d)
  rw [total, signBit_sum, signedValue_eq, signBit_sum, natAbs_signedDecimal]
  refine ⟨validWord_sum a d, ?_, fun noOverflow => ?_, fun overflow => ?_, fun zero => ?_⟩
  · have bit := Bool.toNat_le (serialAdd a d).ovf
    rw [← Bool.toNat_eq_one]
    omega
  · rw [noOverflow, Bool.toNat_false, Nat.mul_zero, Nat.add_zero]
  · obtain ⟨signs, sign⟩ := overflows overflow
    rw [overflow, Bool.toNat_true, Nat.mul_one, Nat.add_sub_cancel]
    exact ⟨signs, sign.trans signs.symm, rfl⟩
  · have noDigits := congrArg Int.natAbs zero
    rw [natAbs_signedDecimal, Int.natAbs_zero] at noDigits
    exact nonzero.resolve_right (by omega)

/-! ### The operand words (R153) -/

theorem signBit_eq_getLsbD (w : Word) : signBit w = (signDigitOf w).getLsbD 0 := by
  simp [signBit, signDigitOf]

theorem digitsOf_magnitude (w : Word) : digitsOf 10 (magnitude w).toNat = digitsOf 10 w.toNat := by
  rw [← digitsOf_joinSign (signDigitOf w), joinSign_parts]

theorem validWord_joinSign_iff {sign : BitVec 4} {mag : Extension} :
    validWord (joinSign sign mag) = true ↔ allDecimal (digitsOf 10 mag.toNat) = true ∧ sign.toNat ≤ 9 := by
  rw [validWord_iff_parts, digitsOf_joinSign, signDigitOf_joinSign]

theorem signedValue_joinSign (sign : BitVec 4) (mag : Extension) :
    signedValue (joinSign sign mag) =
      if sign.getLsbD 0 then -(decimalValue (digitsOf 10 mag.toNat) : Int)
      else decimalValue (digitsOf 10 mag.toNat) := by
  rw [signedValue, magnitudeValue, digitsOf_joinSign, signBit_eq_getLsbD, signDigitOf_joinSign]

/-- A word with its sign flipped: the low bit of its sign digit flips, and the magnitude stays (R153). -/
theorem negWord_eq_joinSign (w : Word) : negWord w = joinSign (signDigitOf w ^^^ 1#4) (magnitude w) := by
  have sign : signDigitOf (negWord w) = signDigitOf w ^^^ 1#4 := BitVec.extractLsb'_xor
  have mag : magnitude (negWord w) = magnitude w :=
    BitVec.extractLsb'_xor.trans (BitVec.xor_zero (x := magnitude w))
  rw [← sign, ← mag, joinSign_parts]

/-- A decimal sign digit stays decimal when its low bit flips. -/
theorem toNat_xor_one_le_nine {sign : BitVec 4} : sign.toNat ≤ 9 → (sign ^^^ 1#4).toNat ≤ 9 := by
  revert sign
  decide

theorem validWord_negWord {w : Word} (h : validWord w = true) : validWord (negWord w) = true := by
  obtain ⟨digits, sign⟩ := validWord_iff_parts.mp h
  rw [negWord_eq_joinSign, validWord_joinSign_iff, digitsOf_magnitude]
  exact ⟨digits, toNat_xor_one_le_nine sign⟩

theorem signedValue_negWord (w : Word) : signedValue (negWord w) = -signedValue w := by
  rw [negWord_eq_joinSign, signedValue_joinSign, digitsOf_magnitude, signedValue, magnitudeValue,
    signBit_eq_getLsbD, BitVec.getLsbD_xor]
  generalize decimalValue (digitsOf 10 w.toNat) = value
  cases (signDigitOf w).getLsbD 0 <;> simp

theorem validWord_absWord {w : Word} (h : validWord w = true) : validWord (absWord w) = true := by
  rw [absWord, validWord_joinSign_iff, digitsOf_magnitude]
  exact ⟨(validWord_iff_parts.mp h).1, by decide⟩

theorem signedValue_absWord (w : Word) : signedValue (absWord w) = magnitudeValue w := by
  rw [absWord, signedValue_joinSign, digitsOf_magnitude]
  rfl

theorem validWord_negAbsWord {w : Word} (h : validWord w = true) : validWord (negAbsWord w) = true := by
  rw [negAbsWord, validWord_joinSign_iff, digitsOf_magnitude]
  exact ⟨(validWord_iff_parts.mp h).1, by decide⟩

theorem signedValue_negAbsWord (w : Word) : signedValue (negAbsWord w) = -(magnitudeValue w : Int) := by
  rw [negAbsWord, signedValue_joinSign, digitsOf_magnitude]
  rfl

/-- The digits of a number are its low ones and those of the rest. -/
theorem digitsOf_add (n m v : Nat) : digitsOf (n + m) v = digitsOf n v ++ digitsOf m (v / 16 ^ n) := by
  induction n generalizing v with
  | zero => simp [digitsOf]
  | succ n ih =>
    rw [Nat.succ_add, digitsOf, digitsOf, ih, Nat.div_div_eq_div_mul, ← Nat.pow_succ', List.cons_append]

/-- The special counter's four digits in a word's magnitude have six zeros above them (R219, R220). -/
theorem digitsOf_special (x : Address) :
    digitsOf 10 (x.setWidth 40).toNat = digitsOf 4 x.toNat ++ [0, 0, 0, 0, 0, 0] := by
  rw [BitVec.toNat_setWidth_of_le (by decide), digitsOf_add 4 6,
    Nat.div_eq_of_lt (show x.toNat < 16 ^ 4 from x.isLt)]
  rfl

theorem validWord_special {x : Address} (h : validAddress x = true) {sign : BitVec 4} (hs : sign.toNat ≤ 9) :
    validWord (joinSign sign (x.setWidth 40)) = true := by
  rw [validWord_joinSign_iff, digitsOf_special]
  rw [validAddress, allDecimal_iff] at h
  refine ⟨allDecimal_iff.mpr fun d hd => ?_, hs⟩
  obtain low | high := List.mem_append.mp hd
  · exact h d low
  · have zero : d = 0 := by simpa using high
    omega

theorem decimalValue_special (x : Address) :
    decimalValue (digitsOf 10 (x.setWidth 40).toNat) = addressValue x := by
  rw [digitsOf_special, decimalValue_append]
  simp [decimalValue, addressValue]

theorem signedValue_specialWord (x : Address) : signedValue (specialWord x) = addressValue x := by
  rw [specialWord, signedValue_joinSign, decimalValue_special]
  rfl

theorem signedValue_negSpecialWord (x : Address) :
    signedValue (negSpecialWord x) = -(addressValue x : Int) := by
  rw [negSpecialWord, signedValue_joinSign, decimalValue_special]
  rfl

/-! ### The instructions -/

/-- The outcome of an instruction from `s` leaves in A the decimal `value`, or the low ten digits of it and the
Overflow, and raises no other fault (R152, R221). -/
def ComputesDecimal (s : State) (value : Int) (outcome : Result) : Prop :=
  ∃ t, outcome = .next t ∧ validWord t.a = true ∧ t.stopForbidden = s.stopForbidden ∧
    (value.natAbs ≤ 9999999999 → signedValue t.a = value ∧ t.stopOverflow = s.stopOverflow) ∧
    (9999999999 < value.natAbs → magnitudeValue t.a = value.natAbs - 10 ^ 10 ∧ t.stopOverflow = true)

theorem serialAdd_fc_of_valid {a d : Word} (ha : validWord a = true) (hd : validWord d = true) :
    (serialAdd a d).fc = false := by
  rw [← Bool.not_eq_true, serialAdd_fc_iff]
  rintro ⟨k, low, high, bad⟩
  have left := validWord_iff.mp ha k low high
  have right := validWord_iff.mp hd k low high
  omega

/-- An Execute that ends with an addition of valid words into A computes the sum of their values. -/
theorem computesDecimal_add {x y : Word} {s : State} {value : Int} (hx : validWord x = true)
    (hy : validWord y = true) (hv : value = signedValue x + signedValue y) :
    ComputesDecimal s value (onNext executeComplete (addIntoA x y s)) := by
  obtain ⟨valid, ovf_iff, fits, exceeds, -⟩ := serialAddIsSignedDecimalAddition x y hx hy
  subst hv
  rw [addIntoA_eq, onNext_of_next, recordSum_eq]
  refine ⟨_, rfl, by simpa using valid, by simp [serialAdd_fc_of_valid hx hy], fun small => ?_,
    fun large => ?_⟩
  · have noOverflow : (serialAdd x y).ovf = false :=
      Bool.eq_false_iff.mpr (mt ovf_iff.mp (Nat.not_lt.mpr small))
    exact ⟨by simpa using fits noOverflow, by simp [noOverflow]⟩
  · have overflow := ovf_iff.mpr large
    obtain ⟨-, -, magnitude⟩ := exceeds overflow
    exact ⟨by simpa using magnitude, by simp [overflow]⟩

/-- The second half of an operand-class instruction performs it and ends the Execute (R183). -/
theorem operandInstr_performs {s : State} (h : s.phase = .awaitMem .execWithOperand) (addr : Address)
    (perform : State → Result) : operandInstr addr perform s = onNext executeComplete (perform s) := by
  rw [operandInstr, h]

/-- The second half of each operand-class addition adds its rule's operand words into A (R210-R217). -/
theorem exec_adder_performs {s : State} (h : s.phase = .awaitMem .execWithOperand) (addr : Address) :
    exec (.ad addr) s = onNext executeComplete (addIntoA s.a s.d s) ∧
    exec (.su addr) s = onNext executeComplete (addIntoA s.a (negWord s.d) s) ∧
    exec (.cad addr) s = onNext executeComplete (addIntoA zeroWord s.d s) ∧
    exec (.csu addr) s = onNext executeComplete (addIntoA zeroWord (negWord s.d) s) ∧
    exec (.ada addr) s = onNext executeComplete (addIntoA s.a (absWord s.d) s) ∧
    exec (.sua addr) s = onNext executeComplete (addIntoA s.a (negAbsWord s.d) s) ∧
    exec (.cada addr) s = onNext executeComplete (addIntoA zeroWord (absWord s.d) s) ∧
    exec (.csua addr) s = onNext executeComplete (addIntoA zeroWord (negAbsWord s.d) s) := by
  simp only [exec, execAd, execSu, execCad, execCsu, execAda, execSua, execCada, execCsua,
    operandInstr_performs h, and_self]

/-- Settles O22: each instruction is an addition of operand words, whose values its result is the sum of. -/
theorem arithmeticComputesSignedDecimals : Obligations.ArithmeticComputesSignedDecimals := by
  intro addr s c ha h
  show ComputesDecimal s c.2 (exec c.1 s)
  have zeroValid : validWord zeroWord = true := by decide
  have zeroValue : signedValue zeroWord = 0 := by decide
  simp only [List.mem_cons, List.not_mem_nil, or_false] at h
  obtain ⟨hp, hd, cases⟩ | ⟨hs, rfl | rfl⟩ := h
  · obtain ⟨ad, su, cad, csu, ada, sua, cada, csua⟩ := exec_adder_performs hp addr
    obtain rfl | rfl | rfl | rfl | rfl | rfl | rfl | rfl := cases
    · exact ad ▸ computesDecimal_add ha hd rfl
    · exact su ▸ computesDecimal_add ha (validWord_negWord hd)
        (by rw [signedValue_negWord, sub_eq_add_neg])
    · exact cad ▸ computesDecimal_add zeroValid hd (by rw [zeroValue, zero_add])
    · exact csu ▸ computesDecimal_add zeroValid (validWord_negWord hd)
        (by rw [zeroValue, signedValue_negWord, zero_add])
    · exact ada ▸ computesDecimal_add ha (validWord_absWord hd) (by rw [signedValue_absWord])
    · exact sua ▸ computesDecimal_add ha (validWord_negAbsWord hd)
        (by rw [signedValue_negAbsWord, sub_eq_add_neg])
    · exact cada ▸ computesDecimal_add zeroValid (validWord_absWord hd)
        (by rw [zeroValue, signedValue_absWord, zero_add])
    · exact csua ▸ computesDecimal_add zeroValid (validWord_negAbsWord hd)
        (by rw [zeroValue, signedValue_negAbsWord, zero_add])
  · exact computesDecimal_add (y := specialWord s.special) ha (validWord_special hs (by decide))
      (by rw [signedValue_specialWord])
  · exact computesDecimal_add (y := negSpecialWord s.special) ha (validWord_special hs (by decide))
      (by rw [signedValue_negSpecialWord, sub_eq_add_neg])

end Sys2Proof.Machine
end

section
/-! PROOFS. The unsigned add, position by position (spec/41_decimal_adder.md R140, R151). -/

namespace Sys2Proof.Machine

/-! ### The digits of an unsigned add -/

theorem allDecimal_digitsOf_iff {n v : Nat} :
    allDecimal (digitsOf n v) = true ↔ ∀ k < n, nibble v k ≤ 9 := by
  simp [allDecimal_iff, mem_digitsOf_iff]

theorem bcdAddN_eq_runPass (x y n : Nat) (c : Bool) :
    bcdAddN x y n c =
      runPass (fun p => mainStep false p.1 p.2) ((digitsOf n x).zip (digitsOf n y)) c := by
  rw [bcdAddN, unsignedPass_eq_mainPass, mainPass_eq_runPass]

theorem getElem?_zip_digitsOf {n k : Nat} (h : k < n) (x y : Nat) :
    ((digitsOf n x).zip (digitsOf n y))[k]? = some (nibble x k, nibble y k) :=
  List.getElem?_zip_eq_some.mpr ⟨getElem?_digitsOf h x, getElem?_digitsOf h y⟩

theorem mem_zip_digitsOf_iff {n x y : Nat} {p : Nat × Nat} :
    p ∈ (digitsOf n x).zip (digitsOf n y) ↔ ∃ k < n, (nibble x k, nibble y k) = p := by
  rw [List.mem_iff_getElem?]
  constructor
  · rintro ⟨k, hk⟩
    have lt : k < n := by simpa using (List.getElem?_eq_some_iff.mp hk).1
    exact ⟨k, lt, by simpa [getElem?_zip_digitsOf lt] using hk⟩
  · rintro ⟨k, lt, rfl⟩
    exact ⟨k, getElem?_zip_digitsOf lt x y⟩

/-- An unsigned add has a digit for each position. -/
@[simp] theorem length_digits_bcdAddN (x y n : Nat) (c : Bool) : (bcdAddN x y n c).digits.length = n := by
  simp [bcdAddN_eq_runPass]

/-- An unsigned add has decimal digits, whatever its operands (R140). -/
theorem allDecimal_digits_bcdAddN (x y n : Nat) (c : Bool) : allDecimal (bcdAddN x y n c).digits = true := by
  rw [bcdAddN_eq_runPass]
  exact allDecimal_digits_runPass (fun (p : Nat × Nat) => mainStep_digit_le false p.1 p.2) _ _

/-- The digits of an unsigned add are nibbles, so packing them loses nothing. -/
theorem digits_bcdAddN_lt (x y n : Nat) (c : Bool) : ∀ d ∈ (bcdAddN x y n c).digits, d < 16 := fun d hd =>
  lt_of_le_of_lt (allDecimal_iff.mp (allDecimal_digits_bcdAddN x y n c) d hd) (by decide)

theorem digitsOf_packDigits_bcdAddN (x y n : Nat) (c : Bool) :
    digitsOf n (packDigits (bcdAddN x y n c).digits) = (bcdAddN x y n c).digits := by
  simpa using digitsOf_packDigits (digits_bcdAddN_lt x y n c)

theorem packDigits_bcdAddN_lt (x y n : Nat) (c : Bool) : packDigits (bcdAddN x y n c).digits < 16 ^ n := by
  simpa using packDigits_lt (digits_bcdAddN_lt x y n c)

/-- An unsigned add reports a Forbidden Combination exactly when a digit of an operand exceeds 9 (R151). -/
theorem bcdAddN_fc (x y n : Nat) (c : Bool) :
    (bcdAddN x y n c).fc = !(allDecimal (digitsOf n x) && allDecimal (digitsOf n y)) := by
  have forbidden : (bcdAddN x y n c).fc = true ↔ ∃ k < n, 9 < nibble x k ∨ 9 < nibble y k := by
    rw [bcdAddN_eq_runPass, fc_runPass_iff (fun (p : Nat × Nat) => mainStep_fc_iff false p.1 p.2)]
    simp [mem_zip_digitsOf_iff]
  rw [Bool.eq_iff_iff, forbidden, Bool.not_eq_true', ← Bool.not_eq_true, Bool.and_eq_true,
    allDecimal_digitsOf_iff, allDecimal_digitsOf_iff]
  grind

/-- An unsigned add of decimal digits is addition modulo a power of ten (R151). -/
theorem decimalValue_bcdAddN {n x y : Nat} (hx : allDecimal (digitsOf n x) = true)
    (hy : allDecimal (digitsOf n y) = true) :
    decimalValue (bcdAddN x y n false).digits =
      (decimalValue (digitsOf n x) + decimalValue (digitsOf n y)) % 10 ^ n := by
  obtain ⟨-, length, decimal, value⟩ := unsignedAddIsDecimalAddition n x y false hx hy
  have bound := decimalValue_lt decimal
  rw [length] at bound
  rw [Bool.toNat_false, Nat.add_zero] at value
  rw [← value, Nat.add_mul_mod_self_left, Nat.mod_eq_of_lt bound]

/-! ### The sum in each position -/

/-- The carry into a position of an unsigned add, none entering at the bottom. -/
def addCarry (x y n : Nat) : Nat → Bool :=
  carryInto (fun p : Nat × Nat => mainStep false p.1 p.2) ((digitsOf n x).zip (digitsOf n y)) false

theorem addCarry_zero (x y n : Nat) : addCarry x y n 0 = false := carryInto_zero _ _

theorem addCarry_last (x y n : Nat) : addCarry x y n n = (bcdAddN x y n false).carry := by
  rw [bcdAddN_eq_runPass, ← carryInto_length]
  simp [addCarry]

/-- The digit and the carry out of a position of an unsigned add are those of its step (R140, R151). -/
theorem bcdAddN_position {n k : Nat} (h : k < n) (x y : Nat) :
    (bcdAddN x y n false).digitAt k = (mainStep false (nibble x k) (nibble y k) (addCarry x y n k)).digit ∧
      addCarry x y n (k + 1) = (mainStep false (nibble x k) (nibble y k) (addCarry x y n k)).carry := by
  rw [bcdAddN_eq_runPass]
  exact ⟨digitAt_runPass (getElem?_zip_digitsOf h x y) _, carryInto_succ (getElem?_zip_digitsOf h x y) _⟩

/-- A number that holds the digits of an unsigned add holds the digitwise sum (R140, R151). -/
theorem digitwiseSum_of_digitsOf {n x y r : Nat} (h : digitsOf n r = (bcdAddN x y n false).digits) :
    digitwiseSum n x y r (bcdAddN x y n false).carry := by
  have held : ∀ k < n, nibble r k = (bcdAddN x y n false).digitAt k := fun k hk => by
    rw [Pass.digitAt, ← h, List.getD_eq_getElem?_getD, getElem?_digitsOf hk, Option.getD_some]
  refine ⟨fun k => (addCarry x y n k).toNat, by simp [addCarry_zero], by simp [addCarry_last],
    fun k hk => ?_⟩
  obtain ⟨digit, carry⟩ := bcdAddN_position hk x y
  dsimp only
  rw [held k hk, digit, carry]
  refine ⟨fun bad => ?_, fun hx hy => ?_⟩
  · rw [mainStep_forbidden false _ bad]
    exact ⟨rfl, rfl⟩
  · obtain ⟨-, decimal, value⟩ := mainStep_value false (addCarry x y n k) hx hy
    exact ⟨decimal, Bool.toNat_le _, value⟩

end Sys2Proof.Machine
end

section
/-! PROOFS. What a Fetch leaves in C and in the toggles (spec/42_sequencer.md R173-R178). -/

namespace Sys2Proof.Machine

/-! ### The digits of an address -/

theorem validAddress_eq (x : Address) : validAddress x = allDecimal (digitsOf 4 x.toNat) := rfl

/-- Added to six digits, an address has two zeros above its own four (R176). -/
theorem digitsOf_six_address (x : Address) : digitsOf 6 x.toNat = digitsOf 4 x.toNat ++ [0, 0] := by
  rw [digitsOf_add 4 2, Nat.div_eq_of_lt (show x.toNat < 16 ^ 4 from x.isLt)]
  rfl

theorem allDecimal_six_address (x : Address) : allDecimal (digitsOf 6 x.toNat) = validAddress x := by
  rw [digitsOf_six_address, validAddress_eq]
  simp [allDecimal]

theorem decimalValue_six_address (x : Address) : decimalValue (digitsOf 6 x.toNat) = addressValue x := by
  rw [digitsOf_six_address, decimalValue_append]
  simp [decimalValue, addressValue]

/-- A decoded address has decimal digits (R61). -/
theorem validAddress_of_decodeAddress {x : Address} {loc : Location} (h : decodeAddress x = some loc) :
    validAddress x = true := by
  by_contra invalid
  rw [decodeAddress_of_not_valid (by simpa using invalid)] at h
  cases h

/-! ### The fields of words with the same six low digits -/

theorem copOf_eq_ofNat (w : Word) : copOf w = BitVec.ofNat 8 (w.toNat % 2 ^ 24 / 2 ^ 16) := by
  apply BitVec.eq_of_toNat_eq
  simp only [copOf, BitVec.extractLsb'_toNat, BitVec.toNat_ofNat, Nat.shiftRight_eq_div_pow]
  omega

theorem addressOf_eq_ofNat (w : Word) : addressOf w = BitVec.ofNat 16 (w.toNat % 2 ^ 24) := by
  apply BitVec.eq_of_toNat_eq
  simp only [addressOf, BitVec.extractLsb'_toNat, BitVec.toNat_ofNat, Nat.shiftRight_eq_div_pow]
  omega

/-! ### The transfer of D to C -/

/-- The control address advanced by one, as a number (R175). -/
def advancedControl (s : State) : Nat := packDigits (bcdAddN s.ccontrol.toNat 0x0001 4 false).digits

/-- The six order and address digits that go into C, as a number: those of D, with B added if bit 40 of D
asks for it (R175, R176). -/
def transferredLow (s : State) : Nat :=
  if signBit s.d then packDigits (bcdAddN s.d.toNat s.b.toNat 6 false).digits else s.d.toNat % 2 ^ 24

/-- A Fetch meets a Forbidden Combination, in B-modification or in the control increment (R175, R176). -/
def fetchForbidden (s : State) : Bool := modificationForbidden s.d s.b || !validAddress s.ccontrol

/-- B-modification adds the six low digits alone: those above are not seen (R176). -/
theorem modificationSum_eq (w : Word) (b : Address) :
    modificationSum (w.toNat % 2 ^ 24) b = bcdAddN w.toNat b.toNat 6 false := by
  rw [modificationSum, bcdAddN, bcdAddN, digitsOf_mod 6 _ _ (by decide)]

theorem transferredLow_lt (s : State) : transferredLow s < 2 ^ 24 := by
  unfold transferredLow
  split
  · exact packDigits_bcdAddN_lt _ _ 6 _
  · exact Nat.mod_lt _ (by decide)

theorem advancedControl_lt (s : State) : advancedControl s < 2 ^ 16 := packDigits_bcdAddN_lt _ _ 4 _

/-- C after a transfer: the sign digit of D, the advanced control address, and the six low digits (R175). -/
theorem toNat_transferDtoC_c (s : State) :
    (transferDtoC s).c.toNat =
      2 ^ 40 * (signDigitOf s.d).toNat + 2 ^ 24 * advancedControl s + transferredLow s := by
  have low := transferredLow_lt s
  have control := advancedControl_lt s
  have sign := (signDigitOf s.d).isLt
  have packed : (transferDtoC s).c = BitVec.ofNat 44
      (2 ^ 40 * (signDigitOf s.d).toNat + 2 ^ 24 * advancedControl s + transferredLow s) := by
    simp only [transferDtoC, modificationSum_eq]
    rfl
  rw [packed, BitVec.toNat_ofNat]
  omega

theorem signDigitOf_transferDtoC_c (s : State) : signDigitOf (transferDtoC s).c = signDigitOf s.d := by
  have low := transferredLow_lt s
  have control := advancedControl_lt s
  apply BitVec.eq_of_toNat_eq
  conv_lhs => rw [signDigitOf, BitVec.extractLsb'_toNat, toNat_transferDtoC_c, Nat.shiftRight_eq_div_pow]
  omega

theorem toNat_controlOf_transferDtoC_c (s : State) :
    (controlOf (transferDtoC s).c).toNat = advancedControl s := by
  have low := transferredLow_lt s
  have control := advancedControl_lt s
  rw [controlOf, BitVec.extractLsb'_toNat, toNat_transferDtoC_c, Nat.shiftRight_eq_div_pow]
  omega

theorem transferDtoC_c_low (s : State) : (transferDtoC s).c.toNat % 2 ^ 24 = transferredLow s := by
  have low := transferredLow_lt s
  rw [toNat_transferDtoC_c]
  omega

/-- The control address in C has the digits of the control increment (R175). -/
theorem digitsOf_control_transferDtoC (s : State) :
    digitsOf 4 (transferDtoC s).ccontrol.toNat = (bcdAddN s.ccontrol.toNat 0x0001 4 false).digits := by
  rw [State.ccontrol, toNat_controlOf_transferDtoC_c]
  exact digitsOf_packDigits_bcdAddN _ _ 4 _

/-- A word that asks for B-modification leaves the digits of the modification sum in C (R176). -/
theorem digitsOf_modified_transferDtoC {s : State} (h : signBit s.d = true) :
    digitsOf 6 (transferDtoC s).c.toNat = (bcdAddN s.d.toNat s.b.toNat 6 false).digits := by
  rw [← digitsOf_mod 6 _ (2 ^ 24) (by decide), transferDtoC_c_low, transferredLow, if_pos h]
  exact digitsOf_packDigits_bcdAddN _ _ 6 _

/-- Any other word's order and address go into C as they are (R175). -/
theorem sameInstruction_transferDtoC {s : State} (h : signBit s.d = false) :
    sameInstruction s.d (transferDtoC s).c := by
  have low : (transferDtoC s).c.toNat % 2 ^ 24 = s.d.toNat % 2 ^ 24 := by
    rw [transferDtoC_c_low, transferredLow, if_neg (by simp [h])]
  refine ⟨signDigitOf_transferDtoC_c s, ?_, ?_⟩
  · rw [copOf_eq_ofNat, low, ← copOf_eq_ofNat]
  · rw [addressOf_eq_ofNat, low, ← addressOf_eq_ofNat]

/-- What a transfer leaves of D in C: its sign digit, and its order and address, with B added if bit 40 asks
for it (R175, R176). -/
theorem transferDtoC_c_holds (s : State) :
    signDigitOf (transferDtoC s).c = signDigitOf s.d ∧
      (signBit s.d = false → sameInstruction s.d (transferDtoC s).c) ∧
      (signBit s.d = true →
        ∃ carry, digitwiseSum 6 s.d.toNat s.b.toNat (transferDtoC s).c.toNat carry) :=
  ⟨signDigitOf_transferDtoC_c s, sameInstruction_transferDtoC,
    fun modify => ⟨_, digitwiseSum_of_digitsOf (digitsOf_modified_transferDtoC modify)⟩⟩

/-- A decimal control address is advanced by one, 9999 to 0000 (R175). -/
theorem addressValue_transferDtoC {s : State} (h : validAddress s.ccontrol = true) :
    validAddress (transferDtoC s).ccontrol = true ∧
      addressValue (transferDtoC s).ccontrol = (addressValue s.ccontrol + 1) % 10000 := by
  rw [validAddress, addressValue, digitsOf_control_transferDtoC]
  exact ⟨allDecimal_digits_bcdAddN _ _ 4 _, decimalValue_bcdAddN h (by decide)⟩

/-- Settles O42: the six digits in C are those of an unsigned add of decimal digits. -/
theorem bModificationAddsSixDigits : Obligations.BModificationAddsSixDigits := by
  intro s modify hb hd
  rw [digitsOf_modified_transferDtoC modify, ← decimalValue_six_address]
  exact ⟨allDecimal_digits_bcdAddN _ _ 6 _,
    decimalValue_bcdAddN hd ((allDecimal_six_address s.b).trans hb), signDigitOf_transferDtoC_c s,
    transferDtoC_cop s⟩

/-- A transfer writes C, its order, and the toggles of a Forbidden Combination (R175, R176). -/
theorem transferDtoC_eq (s : State) :
    transferDtoC s =
      { s with
        c := (transferDtoC s).c
        cop := copOf (transferDtoC s).c
        stopForbidden := fetchForbidden s || s.stopForbidden
        togCST := fetchForbidden s || s.togCST } := by
  have one : allDecimal (digitsOf 4 0x0001) = true := by decide
  have forbidden : fetchForbidden s =
      ((bcdAddN s.ccontrol.toNat 0x0001 4 false).fc ||
        (signBit s.d && (bcdAddN s.d.toNat s.b.toNat 6 false).fc)) := by
    rw [bcdAddN_fc, bcdAddN_fc, allDecimal_six_address, one, ← validAddress_eq, Bool.and_true, Bool.or_comm]
    rfl
  simp only [transferDtoC, raiseIf_forbidden, modificationSum_eq, forbidden, Bool.or_assoc]

/-! ### The end of a Fetch -/

/-- A Fetch ends with its word transferred, the breakpoint tested, the Timing toggle written under Normal, and
halted if the computer-stop toggle is set by then (R174, R175, R178). -/
theorem fetchComplete_eq (s : State) :
    fetchComplete s =
      { s with
        c := (transferDtoC s).c
        cop := copOf (transferDtoC s).c
        togBKPT := s.togBKPT || breakpointMatches s
        togTiming := if s.sw.lockNormal = .normal then false else s.togTiming
        stopForbidden := fetchForbidden s || s.stopForbidden
        togCST := fetchForbidden s || s.togCST
        stopIdle := (fetchForbidden s || s.togCST) || s.stopIdle
        phase := if fetchForbidden s || s.togCST then .idle else .running } := by
  have tested : testBreakpoint s = { s with togBKPT := s.togBKPT || breakpointMatches s } := by
    unfold testBreakpoint
    cases breakpointMatches s <;> simp
  have transferred : transferDtoC (testBreakpoint s) =
      { transferDtoC s with togBKPT := s.togBKPT || breakpointMatches s } := by
    rw [tested, transferDtoC_eq, transferDtoC_eq s]
    rfl
  rw [fetchComplete, transferred, transferDtoC_eq]
  unfold endFetch setTiming halt
  cases s.sw.lockNormal <;> cases fetchForbidden s <;> cases s.togCST <;> rfl

/-- Settles O43: the Forbidden Combination sets the computer-stop toggle, which the end of the Fetch tests. -/
theorem forbiddenInFetchHalts : Obligations.ForbiddenInFetchHalts := by
  intro s h
  have met : fetchForbidden s = true := by
    obtain h | h := h <;> simp [fetchForbidden, h]
  obtain ⟨sign, plain, modified⟩ := transferDtoC_c_holds s
  refine ⟨_, fetchComplete_eq s, sign, rfl, plain, modified,
    ⟨_, digitwiseSum_of_digitsOf (digitsOf_control_transferDtoC s)⟩, rfl, rfl, ?_⟩
  simp [met]

end Sys2Proof.Machine
end

section
/-! PROOFS. The steps of the processor and of the drum: which half-step each of them is, two of them together,
and what each does to the Timing toggle (spec/42_sequencer.md R170-R205). -/

namespace Sys2Proof.Machine

/-! ### The half-step that a step is -/

/-- The step of a free-running machine whose computer-stop toggle is set: the halt (R171, R172). -/
theorem step_halts {s : State} (hs : freeRunning s) (hp : s.phase = .running) (hc : s.togCST = true) :
    step s = .next (halt (drawDisplay s)) := by
  obtain ⟨hturns, hrefused⟩ := hs
  rw [step_of_no_turns hrefused hturns]
  simp [agentStep, processorStep, hp, hc]

/-- The step of a free-running machine that is to execute: the dispatch of the order in C (R171, R179). -/
theorem step_executes {s : State} (hs : freeRunning s) (hp : s.phase = .running) (hc : s.togCST = false)
    (ht : s.togTiming = false) : step s = dispatchOrder (decompose (drawDisplay s)) := by
  obtain ⟨hturns, hrefused⟩ := hs
  rw [step_of_no_turns hrefused hturns]
  simp [agentStep, processorStep, execute, hp, hc, ht]

/-- The step of a free-running machine that awaits an access: the successor's (R202). -/
theorem step_completes {s : State} {k : Successor} (hs : freeRunning s) (hp : s.phase = .awaitMem k) :
    step s = onNext takeStepHalt (runSuccessor k (accessArrives (drawDisplay s))) := by
  obtain ⟨hturns, hrefused⟩ := hs
  rw [step_of_no_turns hrefused hturns]
  simp [agentStep, completion, hp]

/-- With no fault pending, the order that decodes is performed (R181, R182). -/
theorem dispatchOrder_performs {s : State} {i : Instr} (hf : faultPending s = false)
    (hd : decodeOrder s.opcodes s.cop s.caddr = some i) : dispatchOrder s = exec i s := by
  rw [dispatchOrder, hf, decodeClass_eq_instr_iff.mpr hd]
  rfl

/-- A pending fault halts at the end of an Execute that performs nothing (R180). -/
theorem dispatchOrder_halts {s : State} (hf : faultPending s = true) :
    dispatchOrder s = .next (executeComplete { s with togCST := true }) := by
  rw [dispatchOrder, if_pos hf]

/-- With no fault pending, a reserved code is run by its class (R293). -/
theorem dispatchOrder_runs_reserved {s : State} (hf : faultPending s = false)
    (hd : decodeOrder s.opcodes s.cop s.caddr = none) :
    dispatchOrder s =
      if isOperandOrder s.cop then execReservedOperand s else execReservedNonOperand s := by
  rw [dispatchOrder, decodeClass, hf, hd]
  cases isOperandOrder s.cop <;> rfl

/-- The operand-class instruction whose operand has come is performed (R183). -/
theorem executeWithOperand_performs {s : State} {i : Instr} (hi : i.operandClass = true)
    (hd : decodeOrder s.opcodes s.cop s.caddr = some i) : executeWithOperand s = exec i s := by
  rw [executeWithOperand, decodeClass_eq_instr_iff.mpr hd]
  exact if_pos hi

/-- Settles O38: the step is the Execute entry's dispatch, which runs what the order in C decodes to. -/
theorem stepRunsTheInstructionInC : Obligations.StepRunsTheInstructionInC := by
  intro s hs hp hc ht
  rw [step_executes hs hp hc ht]
  refine ⟨rfl, fun (hf : faultPending (decompose (drawDisplay s)) = false) =>
    ⟨fun i hd => dispatchOrder_performs hf hd, fun hd code => ?_, fun hd code => ?_⟩⟩
  · exact (dispatchOrder_runs_reserved hf hd).trans (if_pos (decide_eq_true code))
  · exact (dispatchOrder_runs_reserved hf hd).trans (if_neg (mt of_decide_eq_true (Nat.not_le.mpr code)))

/-- Settles O39: the successor of an operand read performs the instruction that the cached order names. -/
theorem completionRunsTheOperandInstruction : Obligations.CompletionRunsTheOperandInstruction := by
  refine ⟨fun s k hs hp => step_completes hs hp, fun s i hs hp order hd hi => ?_⟩
  have cached : decodeOrder s.opcodes s.cop s.caddr = some i := order ▸ hd
  rw [step_completes hs hp, runSuccessor,
    executeWithOperand_performs (s := accessArrives (drawDisplay s)) hi cached]

/-- Settles O45: the halt is the whole of that step, but for the display toggles it draws. -/
theorem haltRequestIsTakenFirst : Obligations.HaltRequestIsTakenFirst :=
  fun _ hs hp hc => ⟨_, step_halts hs hp hc, rfl⟩

/-! ### A pending fault -/

theorem faultPending_eq_true_iff {s : State} :
    faultPending s = true ↔
      (s.stopOverflow = true ∨ s.stopForbidden = true) ∧
        ¬ (s.cop &&& 0xF8#8 = 0x08#8 ∨ s.cop = s.opcodes.cc ∨ s.cop = s.opcodes.ccr) := by
  simp only [faultPending, isStopOrder, isConditionalOrder, Bool.and_eq_true, Bool.or_eq_true,
    Bool.not_eq_true', Bool.or_eq_false_iff, beq_eq_false_iff_ne]
  tauto

/-- The order of a row of the map decodes, by any map (R98). -/
theorem exists_decodeOrder_row {m : OpcodeMap} {row : OpcodeRow} (h : row ∈ m.rows) (addr : Address) :
    ∃ i, decodeOrder m row.code addr = some i := by
  rw [← Option.isSome_iff_exists, decodeOrder]
  split
  · rfl
  · simpa using ⟨row, h, rfl⟩

/-- The orders that a pending fault does not stop all decode (R98, R180). -/
theorem exists_decodeOrder_of_consumes_fault {m : OpcodeMap} {cop : Order}
    (h : cop &&& 0xF8#8 = 0x08#8 ∨ cop = m.cc ∨ cop = m.ccr) (addr : Address) :
    ∃ i, decodeOrder m cop addr = some i := by
  obtain stop | rfl | rfl := h
  · exact ⟨_, decodeOrder_stop m addr (beq_iff_eq.mpr stop)⟩
  · exact exists_decodeOrder_row (row := ⟨"CC", m.cc, .cc⟩) (by simp [OpcodeMap.rows]) addr
  · exact exists_decodeOrder_row (row := ⟨"CCR", m.ccr, .ccr⟩) (by simp [OpcodeMap.rows]) addr

/-- Settles O44: the dispatch ends the Execute with the computer-stop toggle set, or performs the order. -/
theorem pendingFaultHaltsUnperformed : Obligations.PendingFaultHaltsUnperformed := by
  intro s hs hp hc ht fault
  rw [step_executes hs hp hc ht]
  refine ⟨fun notStop notCc notCcr => ?_, fun consumes => ?_⟩
  · have pending : faultPending (decompose (drawDisplay s)) = true :=
      faultPending_eq_true_iff.mpr ⟨fault, by simp [notStop, notCc, notCcr]⟩
    rw [dispatchOrder_halts pending]
    obtain ⟨phase, stopIdle⟩ := executeComplete_halts
      (s := { decompose (drawDisplay s) with togCST := true }) (.inr (.inr rfl))
    refine ⟨_, rfl, by simp, phase, stopIdle, ?_, endsExecute_of rfl rfl rfl rfl, sameWords_of (by simp)⟩
    conv_lhs => rw [executeComplete_frame]
    simp [withEndOf]
  · have notPending : faultPending (decompose (drawDisplay s)) = false :=
      Bool.eq_false_iff.mpr fun pending => (faultPending_eq_true_iff.mp pending).2 consumes
    obtain ⟨i, hd⟩ := exists_decodeOrder_of_consumes_fault consumes s.caddr
    exact ⟨i, hd, dispatchOrder_performs notPending hd⟩

/-! ### Two steps -/

/-- The second step of an addition, its operand come: the sum is recorded and the Execute ends (R183, R210). -/
theorem step_adds {s : State} {addr : Address} (hs : freeRunning s)
    (hp : s.phase = .awaitMem .execWithOperand) (order : s.cop = copOf s.c)
    (hd : decode s.opcodes s.c = some (.ad addr)) (noLatch : s.stepHalt = false) :
    step s = .next (executeComplete
      (recordSum (serialAdd s.a s.d) (accessArrives (drawDisplay s)))) := by
  obtain ⟨-, completes⟩ := completionRunsTheOperandInstruction
  rw [completes s _ hs hp order hd rfl,
    (exec_adder_performs (s := accessArrives (drawDisplay s)) hp addr).1, addIntoA_eq, onNext_of_next,
    onNext_of_next, takeStepHalt_of_false (by simpa [recordSum_eq] using noLatch)]
  rfl

/-- Settles O40: the first step issues the read of the operand, and the second adds it into A. -/
theorem addRunsInTwoSteps : Obligations.AddRunsInTwoSteps := by
  intro s addr loc hs hp hc ht noOverflow noForbidden noLatch hd hl
  have notPending : faultPending (decompose (drawDisplay s)) = false := by
    simp [faultPending, noOverflow, noForbidden]
  have reads : step s = .next (issueAccess loc .execWithOperand
      { decompose (drawDisplay s) with d := s.read loc }) := by
    rw [step_executes hs hp hc ht, dispatchOrder_performs notPending hd,
      exec_arithmetic_reads (addr := addr) (by simp [hp]) _ (by simp)]
    exact memRead_of_location hl _ _
  refine ⟨_, _, reads, step_adds (by exact hs) rfl rfl (by exact hd) (by exact noLatch), rfl, rfl, rfl,
    samplesLatency_issueAccess loc _ { decompose (drawDisplay s) with d := s.read loc }, ?_⟩
  refine ⟨?_, ?_, ?_, ?_, ?_, ?_, sameWords_of ?_, endsExecute_of ?_ ?_ ?_ ?_⟩
  all_goals simp [recordSum_eq, State.read]

/-- The second step of a Fetch, its word come (R178, R202). -/
theorem step_completes_fetch {s : State} (hs : freeRunning s) (hp : s.phase = .awaitMem .fetchComplete)
    (noLatch : s.stepHalt = false) : step s = .next (fetchComplete (accessArrives (drawDisplay s))) := by
  rw [step_completes hs hp, runSuccessor, onNext_of_next, takeStepHalt_of_false (by simpa using noLatch)]

/-- Settles O41: the first step issues the read at the control address, and the second completes the Fetch. -/
theorem fetchRunsInTwoSteps : Obligations.FetchRunsInTwoSteps := by
  intro s loc hs hp hc ht noLatch hl
  have valid : validAddress s.ccontrol = true := validAddress_of_decodeAddress hl
  have reads := (step_fetches hs hp hc ht).trans
    (memRead_of_location hl .fetchComplete (decompose (drawDisplay s)))
  refine ⟨_, _, reads, step_completes_fetch (by exact hs) rfl (by exact noLatch), rfl, rfl, rfl,
    samplesLatency_issueAccess loc _ { decompose (drawDisplay s) with d := s.read loc }, ?_⟩
  generalize hm : accessArrives (drawDisplay (issueAccess loc .fetchComplete
    { decompose (drawDisplay s) with d := (decompose (drawDisplay s)).read loc })) = m
  have word : m.d = s.read loc := by simp [← hm, State.read]
  have index : m.b = s.b := by simp [← hm]
  have control : m.ccontrol = s.ccontrol := by simp [← hm, State.ccontrol]
  have forbidden : fetchForbidden m = modificationForbidden (s.read loc) s.b := by
    rw [fetchForbidden, word, index, control, valid]
    exact Bool.or_false _
  obtain ⟨sign, plain, modified⟩ := transferDtoC_c_holds m
  obtain ⟨decimal, advanced⟩ := addressValue_transferDtoC (control.symm ▸ valid)
  rw [word] at sign plain modified
  rw [index] at modified
  rw [control] at advanced
  rw [fetchComplete_eq, forbidden]
  refine ⟨word, sign, rfl, plain, modified, decimal, advanced, ?_, ?_, ?_, ?_, index, ?_, ?_, ?_, ?_,
    sameWords_of ?_⟩
  case refine_1 =>
    rw [breakpointMatches, word]
    simp [← hm]
  case refine_3 => cases modificationForbidden (s.read loc) s.b <;> simp [← hm, hc]
  all_goals simp [← hm, ht]

/-! ### The Timing toggle -/

/-- The Timing toggle is written under Normal, and holds under Lock (R178, R195). -/
def TimingWritten (fetchNext : Bool) (s t : State) : Prop :=
  t.togTiming = if s.sw.lockNormal = .normal then fetchNext else s.togTiming

/-- An Execute awaits the access that it has issued (R181, R182). -/
def State.awaitsInExecute (s : State) : Prop :=
  s.phase = .awaitMem .execWithOperand ∨ ∃ clear, s.phase = .awaitMem (.storeComplete clear)

/-- An Execute from `s` has issued an access, with the Timing toggle as it was, or has ended. -/
def ExecuteTiming (s t : State) : Prop :=
  (t.awaitsInExecute ∧ t.togTiming = s.togTiming) ∨ TimingWritten true s t

theorem timingWritten_executeComplete (s : State) : TimingWritten true s (executeComplete s) :=
  executeComplete_togTiming s

theorem Performed.timingWritten {s u : State} (h : Performed s u) :
    TimingWritten true s (executeComplete u) := by
  simp [TimingWritten, h.sw, h.togTiming]

theorem executeTiming_exec {i : Instr} {s t : State} (h : exec i s = .next t) : ExecuteTiming s t := by
  obtain ⟨-, loc, rfl⟩ | ⟨loc, clear, rfl⟩ | ⟨u, rfl, hu, -⟩ := exec_next h
  · exact .inl ⟨.inl rfl, rfl⟩
  · exact .inl ⟨.inr ⟨clear, rfl⟩, rfl⟩
  · exact .inr hu.timingWritten

/-- Halted by a pending fault, of an instruction or of a reserved code, an Execute writes the Timing toggle only
when it ends (R180-R182, R195). -/
theorem executeTiming_dispatchOrder {s t : State} (h : dispatchOrder s = .next t) : ExecuteTiming s t := by
  obtain ⟨-, rfl⟩ | ⟨-, ⟨i, -, hi⟩ | ⟨-, hr⟩⟩ := dispatchOrder_next h
  · exact .inr (timingWritten_executeComplete { s with togCST := true })
  · exact executeTiming_exec hi
  · obtain ⟨loc, rfl⟩ | rfl := reserved_next hr
    · exact .inl ⟨.inl rfl, rfl⟩
    · exact .inr (timingWritten_executeComplete s)

/-- A successor ends its Fetch or its Execute (R178, R195, R202). -/
theorem timingWritten_runSuccessor {k : Successor} {s t : State} (hp : s.phase = .awaitMem k)
    (h : runSuccessor k s = .next t) : TimingWritten (k != .fetchComplete) s t := by
  cases k with
  | fetchComplete =>
    injection h with h
    rw [← h, fetchComplete_eq]
    rfl
  | execWithOperand =>
    obtain rfl | ⟨i, -, hi, hx⟩ := executeWithOperand_next h
    · exact timingWritten_executeComplete s
    · obtain ⟨u, rfl, hu⟩ := exec_operandCame hi hp hx
      exact hu.timingWritten
  | storeComplete clear =>
    injection h with h
    subst h
    cases clear
    · exact timingWritten_executeComplete s
    · exact timingWritten_executeComplete { s with a := 0#44 }

/-- Settles O46: what each half-step does to the Timing toggle, by the phase and the toggles that choose it. -/
theorem timingAlternatesUnderNormal : Obligations.TimingAlternatesUnderNormal := by
  intro s t ⟨hturns, hrefused⟩ h
  rw [step_of_no_turns hrefused hturns] at h
  obtain ⟨hp, rfl⟩ | ⟨hp, h⟩ | ⟨k, hp, h⟩ := agentStep_next h
  · simp [hp]
  · obtain ⟨hc, rfl⟩ | ⟨hc, ht, h⟩ | ⟨hc, ht, h⟩ := processorStep_next h
    · have halts : s.togCST = true := hc
      simp [hp, halts]
    · have fetches : s.togTiming = true := ht
      obtain ⟨loc, -, rfl⟩ := fetch_next h
      simp [hp, fetches]
    · have executes : s.togTiming = false := ht
      obtain ⟨waits, kept⟩ | written := executeTiming_dispatchOrder h
      · exact ⟨fun _ => kept, by simp [hp], by simp [hp], fun _ _ _ _ => or_assoc.mp (.inl waits),
          by simp [executes]⟩
      · have written : t.togTiming = if s.sw.lockNormal = .normal then true else s.togTiming := written
        simp +contextual [hp, executes, written]
  · obtain ⟨u, hu, rfl⟩ := onNext_next.mp h
    have written : u.togTiming = if s.sw.lockNormal = .normal then k != .fetchComplete else s.togTiming :=
      timingWritten_runSuccessor (s := accessArrives (drawDisplay s)) hp hu
    refine ⟨fun lock => by simp [written, lock], fun normal fetched => ?_, fun normal executed => ?_,
      by simp [hp], by simp [hp]⟩
    · obtain rfl : k = .fetchComplete := by simpa [hp] using fetched
      simp [written, normal]
    · have notFetch : k ≠ .fetchComplete := by
        rintro rfl
        simp [hp] at executed
      simp [written, normal, notFetch]

end Sys2Proof.Machine
end

section
/-! PROOFS. What the arithmetic instructions leave in the state: the word in A, the adder's record and events,
the end of the Execute, and every other field kept (spec/43_arithmetic.md R210-R221). -/

namespace Sys2Proof.Machine

/-! ### The words of the special counter -/

/-- The counter's four digits with sign digit 0 (R219). -/
theorem specialWord_eq_ofNat (x : Address) : specialWord x = BitVec.ofNat 44 x.toNat := by
  rw [specialWord, joinSign, BitVec.toNat_setWidth_of_le (by decide)]
  simp

/-- The counter's four digits with sign digit 1 (R220). -/
theorem negSpecialWord_eq_ofNat (x : Address) : negSpecialWord x = BitVec.ofNat 44 (2 ^ 40 + x.toNat) := by
  rw [negSpecialWord, joinSign, BitVec.toNat_setWidth_of_le (by decide)]
  rfl

/-! ### What a sum into A leaves -/

/-- The outcome of an instruction from `s` leaves a sum in A, its record and its events in the toggles, and the
Execute ended, with every other field and every word of memory kept (R147, R195, R221). -/
def RecordsSum (s : State) (sum : AddResult) (outcome : Result) : Prop :=
  ∃ t, outcome = .next t ∧
    t.a = sum.sum ∧ t.togCOMPL = sum.compl ∧ t.togSIGN = sum.sign ∧ t.ct = sum.ct ∧
    t.stopOverflow = (sum.ovf || s.stopOverflow) ∧
    t.stopForbidden = (sum.fc || s.stopForbidden) ∧ t.togCST = (sum.fc || s.togCST) ∧
    t = { withEventsOf (withEndOf s t) t with
          a := t.a, togCOMPL := t.togCOMPL, togSIGN := t.togSIGN, ct := t.ct } ∧
    endsExecute s t ∧ sameWords s t

/-- A recorded sum writes A, the adder's record and its events, and the end of the Execute its own fields. -/
theorem executeComplete_recordSum_frame {s t : State} (sum : AddResult)
    (h : t = executeComplete (recordSum sum s)) :
    t = { withEventsOf (withEndOf s t) t with
          a := t.a, togCOMPL := t.togCOMPL, togSIGN := t.togSIGN, ct := t.ct } := by
  subst h
  conv_lhs => rw [executeComplete_frame]
  simp [withEndOf, withEventsOf, recordSum_eq]

/-- An extract writes A and its events, and the end of the Execute its own fields. -/
theorem executeComplete_extractIntoA_frame {s t : State} (v p : Word)
    (h : t = executeComplete (extractIntoA v p s)) :
    t = { withEventsOf (withEndOf s t) t with a := t.a } := by
  subst h
  conv_lhs => rw [executeComplete_frame]
  simp [withEndOf, withEventsOf, extractIntoA_eq]

/-- An Execute that ends with an addition into A records its sum, whatever its operands (R148). -/
theorem recordsSum_add (x y : Word) (s : State) :
    RecordsSum s (serialAdd x y) (onNext executeComplete (addIntoA x y s)) := by
  have kept := performed_recordSum (serialAdd x y) s
  refine ⟨executeComplete (recordSum (serialAdd x y) s), by rw [addIntoA_eq, onNext_of_next],
    ?_, ?_, ?_, ?_, ?_, ?_, ?_, executeComplete_recordSum_frame _ rfl, kept.endsExecute, kept.sameWords⟩
  all_goals simp [recordSum_eq]

/-! ### The instructions -/

/-- Settles O19: each is an addition of its rule's operand words into A. -/
theorem adderInstructionsRecordTheirSum : Obligations.AdderInstructionsRecordTheirSum := by
  intro addr s hp c hc
  show RecordsSum s c.2 (exec c.1 s)
  obtain ⟨ad, su, cad, csu, ada, sua, cada, csua⟩ := exec_adder_performs hp addr
  simp only [List.mem_cons, List.not_mem_nil, or_false] at hc
  obtain rfl | rfl | rfl | rfl | rfl | rfl | rfl | rfl := hc
  · exact ad ▸ recordsSum_add s.a s.d s
  · exact su ▸ recordsSum_add s.a (negWord s.d) s
  · exact cad ▸ recordsSum_add zeroWord s.d s
  · exact csu ▸ recordsSum_add zeroWord (negWord s.d) s
  · exact ada ▸ recordsSum_add s.a (absWord s.d) s
  · exact sua ▸ recordsSum_add s.a (negAbsWord s.d) s
  · exact cada ▸ recordsSum_add zeroWord (absWord s.d) s
  · exact csua ▸ recordsSum_add zeroWord (negAbsWord s.d) s

/-- Settles O20: both add a word of the special counter's digits, with the sign digit of their rule, into A. -/
theorem specialCounterInstructionsRecordTheirSum : Obligations.SpecialCounterInstructionsRecordTheirSum := by
  intro addr s c hc
  show RecordsSum s c.2 (exec c.1 s)
  obtain rfl | rfl := List.mem_pair.mp hc
  · exact specialWord_eq_ofNat s.special ▸ recordsSum_add s.a (specialWord s.special) s
  · exact negSpecialWord_eq_ofNat s.special ▸ recordsSum_add s.a (negSpecialWord s.special) s

/-- The second half of EX extracts A by the pattern in D (R218). -/
theorem exec_ex_performs {s : State} (h : s.phase = .awaitMem .execWithOperand) (addr : Address) :
    exec (.ex addr) s = .next (executeComplete (extractIntoA s.a s.d s)) :=
  operandInstr_performs h addr fun t => .next (extractIntoA t.a t.d t)

/-- Settles O21: the extract writes A and its events only, so the record of the last addition is kept. -/
theorem extractMergesIntoA : Obligations.ExtractMergesIntoA := by
  intro addr s hp
  have kept := performed_extractIntoA s.a s.d s
  refine ⟨_, exec_ex_performs hp addr, ?_, ?_, ?_, ?_, executeComplete_extractIntoA_frame _ _ rfl,
    kept.endsExecute, kept.sameWords⟩
  all_goals simp [extractIntoA_eq]

end Sys2Proof.Machine
end

section
/-! PROOFS. STOP and the branches: what each leaves in C, R and the toggles, and every other field kept
(spec/44_control.md R240-R248). -/

namespace Sys2Proof.Machine

/-! ### What each instruction performs -/

theorem exec_stop (low : BitVec 3) (addr : Address) (s : State) :
    exec (.stop low addr) s = .next (executeComplete (raiseFault .control s)) := rfl

theorem exec_cu (addr : Address) (s : State) :
    exec (.cu addr) s = .next (executeComplete (branchTo addr s)) := rfl

theorem exec_cur (addr : Address) (s : State) :
    exec (.cur addr) s = .next (executeComplete (branchTo addr (recordReturn s))) := rfl

/-- With Overflow set, CC clears it and branches (R245). -/
theorem exec_cc_taken {s : State} (h : s.stopOverflow = true) (addr : Address) :
    exec (.cc addr) s = .next (executeComplete (branchTo addr { s with stopOverflow := false })) := by
  rw [exec, execCc, changeConditionally, if_pos h]

/-- With Overflow clear, CC does nothing (R245). -/
theorem exec_cc_not_taken {s : State} (h : s.stopOverflow = false) (addr : Address) :
    exec (.cc addr) s = .next (executeComplete s) := by
  rw [exec, execCc, changeConditionally, if_neg (by simp [h])]

/-- With Overflow set, CCR clears it, records the return address and branches (R246). -/
theorem exec_ccr_taken {s : State} (h : s.stopOverflow = true) (addr : Address) :
    exec (.ccr addr) s =
      .next (executeComplete (branchTo addr (recordReturn { s with stopOverflow := false }))) := by
  rw [exec, execCcr, if_pos h]

/-- With Overflow clear, CCR does nothing (R246). -/
theorem exec_ccr_not_taken {s : State} (h : s.stopOverflow = false) (addr : Address) :
    exec (.ccr addr) s = .next (executeComplete s) := by
  rw [exec, execCcr, if_neg (by simp [h])]

theorem performed_branchTo (target : Address) (s : State) : Performed s (branchTo target s) := by
  constructor <;> simp

theorem performed_recordReturn (s : State) : Performed s (recordReturn s) := by
  constructor <;> rfl

theorem performed_clearOverflow (s : State) : Performed s { s with stopOverflow := false } := by
  constructor <;> rfl

/-- A branch that records the control address it replaces (R243, R246). -/
theorem performed_recordedBranch (target : Address) (s : State) :
    Performed s (branchTo target (recordReturn s)) :=
  (performed_recordReturn s).trans (performed_branchTo target _)

/-! ### The branch and the return address -/

/-- A new control address in C is a branch: the instruction's own fields stay (R24). -/
theorem branched_of_withControl {addr : Address} {s u : State} (h : u.c = withControl s.c addr) :
    (executeComplete u).ccontrol = addr ∧ sameInstruction s.c (executeComplete u).c := by
  simp [State.ccontrol, sameInstruction, h]

/-- R holds the return address in its four low digits, and its others are kept (R243). -/
theorem recorded_of_withReturnAddress {s u : State} (h : u.r = withReturnAddress s.r s.ccontrol) :
    (executeComplete u).r.extractLsb' 0 16 = s.ccontrol ∧
      (executeComplete u).r.extractLsb' 16 24 = s.r.extractLsb' 16 24 := by
  simp [h, withReturnAddress_low, withReturnAddress_high]

/-! ### STOP, CU and CUR -/

/-- Settles O26: the Control fault sets the computer-stop toggle, which the end of the Execute tests. -/
theorem stopHaltsWithControlFault : Obligations.StopHaltsWithControlFault := by
  intro low addr s
  have kept : Performed s (raiseFault .control s) := by constructor <;> rfl
  obtain ⟨phase, stopIdle⟩ := executeComplete_halts (s := raiseFault .control s) (.inr (.inr rfl))
  exact ⟨_, exec_stop low addr s, phase, stopIdle, executeComplete_frame _, kept.endsExecute, kept.sameWords⟩

/-- Settles O27: both write the control address alone in C, and CUR records the old one first. -/
theorem unconditionalBranchesSetControl : Obligations.UnconditionalBranchesSetControl := by
  intro addr s
  constructor
  · have kept := performed_branchTo addr s
    obtain ⟨control, same⟩ := branched_of_withControl (u := branchTo addr s) rfl
    exact ⟨_, exec_cu addr s, control, same, (executeComplete_frame _).trans (by simp [withEndOf]),
      kept.endsExecute, kept.sameWords⟩
  · have kept := performed_recordedBranch addr s
    obtain ⟨control, same⟩ := branched_of_withControl (u := branchTo addr (recordReturn s)) rfl
    obtain ⟨low, high⟩ := recorded_of_withReturnAddress (u := branchTo addr (recordReturn s)) rfl
    exact ⟨_, exec_cur addr s, control, same, low, high,
      (executeComplete_frame _).trans (by simp [withEndOf]), kept.endsExecute, kept.sameWords⟩

/-! ### CC and CCR -/

/-- A pending fault is not taken before an order of the CC class (R97, R180). -/
theorem faultPending_of_conditional {s : State} (h : s.cop = s.opcodes.cc ∨ s.cop = s.opcodes.ccr) :
    faultPending s = false :=
  Bool.eq_false_iff.mpr fun pending => (faultPending_eq_true_iff.mp pending).2 (.inr h)

/-- Settles O28: each order by the two values of Overflow, and their entry by the CC class. -/
theorem conditionalBranchesConsumeOverflow : Obligations.ConditionalBranchesConsumeOverflow := by
  intro addr s
  refine ⟨?cc, ?ccr, fun order => faultPending_of_conditional (s := decompose s) order⟩
  all_goals cases overflow : s.stopOverflow
  case cc.true =>
    have kept := (performed_clearOverflow s).trans (performed_branchTo addr _)
    exact ⟨_, exec_cc_taken overflow addr, by simp, fun _ => branched_of_withControl rfl, by simp,
      (executeComplete_frame _).trans (by simp [withEndOf]), kept.endsExecute, kept.sameWords⟩
  case ccr.true =>
    have kept := (performed_clearOverflow s).trans (performed_recordedBranch addr _)
    obtain ⟨control, same⟩ := branched_of_withControl (s := s)
      (u := branchTo addr (recordReturn { s with stopOverflow := false })) rfl
    exact ⟨_, exec_ccr_taken overflow addr, by simp,
      fun _ => ⟨control, same, recorded_of_withReturnAddress rfl⟩, by simp,
      (executeComplete_frame _).trans (by simp [withEndOf]), kept.endsExecute, kept.sameWords⟩
  case cc.false =>
    have kept := Performed.refl s
    exact ⟨_, exec_cc_not_taken overflow addr, by simp [overflow], by simp, by simp,
      (executeComplete_frame _).trans (by simp [withEndOf, overflow]), kept.endsExecute, kept.sameWords⟩
  case ccr.false =>
    have kept := Performed.refl s
    exact ⟨_, exec_ccr_not_taken overflow addr, by simp [overflow], by simp, by simp,
      (executeComplete_frame _).trans (by simp [withEndOf, overflow]), kept.endsExecute, kept.sameWords⟩

/-! ### The injected Change Conditionally -/

/-- The instructions that inject a Change Conditionally do so when their condition holds (R190). -/
def injectWhen (taken : Bool) (addr : Address) (s : State) : State :=
  if taken then injectCC addr s else s

/-- The injection writes C, the cached order and Overflow, and these only when it is made (R190). -/
theorem injectWhen_eq (taken : Bool) (addr : Address) (s : State) :
    injectWhen taken addr s =
      { s with
        c := if taken then withControl s.c addr else s.c
        cop := if taken then s.opcodes.cc else s.cop
        stopOverflow := !taken && s.stopOverflow } := by
  cases taken
  · rfl
  · exact injectCC_eq addr s

theorem performed_injectWhen (taken : Bool) (addr : Address) (s : State) :
    Performed s (injectWhen taken addr s) := by
  cases taken
  · exact Performed.refl s
  · exact performed_injectCC addr s

/-- Made, the injection leaves a branch, the order of CC cached and no Overflow (R190). -/
theorem executeComplete_injectWhen_true {addr : Address} {s u : State} (hc : u.c = s.c)
    (ho : u.opcodes = s.opcodes) :
    (executeComplete (injectWhen true addr u)).ccontrol = addr ∧
      sameInstruction s.c (executeComplete (injectWhen true addr u)).c ∧
      (executeComplete (injectWhen true addr u)).cop = s.opcodes.cc ∧
      (executeComplete (injectWhen true addr u)).stopOverflow = false := by
  obtain ⟨control, same⟩ := branched_of_withControl (addr := addr) (s := s)
    (u := injectWhen true addr u) (by simp [injectWhen_eq, hc])
  exact ⟨control, same, by simp [injectWhen_eq, ho], by simp [injectWhen_eq]⟩

theorem exec_cnz (addr : Address) (s : State) :
    exec (.cnz addr) s = .next (executeComplete (injectWhen (magnitude s.a != 0#40) addr s)) := by
  rw [exec, execCnz, injectWhen]
  by_cases zero : magnitude s.a = 0#40 <;> simp [zero]

theorem magnitude_bne_zero (w : Word) : (magnitude w != 0#40) = decide (w.toNat % 2 ^ 40 ≠ 0) := by
  rw [Bool.eq_iff_iff, bne_iff_ne, decide_eq_true_iff, ne_eq, ← BitVec.toNat_inj]
  simp [magnitude]

/-- Settles O29: the injection is made when the magnitude of A is not zero. -/
theorem changeOnNonZeroTestsMagnitude : Obligations.ChangeOnNonZeroTestsMagnitude := by
  intro addr s
  rw [exec_cnz, magnitude_bne_zero]
  have kept := performed_injectWhen (decide (s.a.toNat % 2 ^ 40 ≠ 0)) addr s
  refine ⟨_, rfl, fun nonzero => ?_, fun zero => ?_,
    (executeComplete_frame _).trans (by simp [withEndOf, injectWhen_eq]), kept.endsExecute, kept.sameWords⟩
  · rw [decide_eq_true nonzero]
    exact executeComplete_injectWhen_true rfl rfl
  · rw [decide_eq_false (not_not.mpr zero)]
    simp [injectWhen_eq]

end Sys2Proof.Machine
end

section
/-! PROOFS. The counting of B, by an unsigned add of four digits (spec/44_control.md R250, R252). -/

namespace Sys2Proof.Machine

/-! ### An addition into B -/

/-- B has the digits of the sum (R250, R252). -/
theorem digitsOf_b_addIntoB (x : Nat) (s : State) :
    digitsOf 4 (addIntoB x s).b.toNat = (bcdAddN s.b.toNat x 4 false).digits := by
  have bound : packDigits (bcdAddN s.b.toNat x 4 false).digits < 2 ^ 16 := packDigits_bcdAddN_lt _ _ 4 _
  rw [addIntoB_eq, BitVec.toNat_ofNat, Nat.mod_eq_of_lt bound, digitsOf_packDigits_bcdAddN]

theorem validAddress_b_addIntoB (x : Nat) (s : State) : validAddress (addIntoB x s).b = true := by
  rw [validAddress, digitsOf_b_addIntoB]
  exact allDecimal_digits_bcdAddN _ _ 4 _

theorem digitwiseSum_addIntoB (x : Nat) (s : State) :
    digitwiseSum 4 s.b.toNat x (addIntoB x s).b.toNat (bcdAddN s.b.toNat x 4 false).carry :=
  digitwiseSum_of_digitsOf (digitsOf_b_addIntoB x s)

/-- A decimal B and the carry out of it hold the decimal sum (R151). -/
theorem addressValue_addIntoB {x : Nat} {s : State} (hb : validAddress s.b = true)
    (hx : allDecimal (digitsOf 4 x) = true) :
    addressValue (addIntoB x s).b + 10000 * (bcdAddN s.b.toNat x 4 false).carry.toNat =
      addressValue s.b + decimalValue (digitsOf 4 x) := by
  obtain ⟨-, -, -, value⟩ := unsignedAddIsDecimalAddition 4 s.b.toNat x false hb hx
  rw [addressValue, digitsOf_b_addIntoB]
  exact value

/-- A decimal number added to B raises the Forbidden Combination exactly when B is not decimal (R151). -/
theorem addIntoB_forbidden {x : Nat} (hx : allDecimal (digitsOf 4 x) = true) (s : State) :
    (addIntoB x s).stopForbidden = (!validAddress s.b || s.stopForbidden) ∧
      (addIntoB x s).togCST = (!validAddress s.b || s.togCST) := by
  rw [addIntoB_eq, bcdAddN_fc, hx, Bool.and_true]
  exact ⟨rfl, rfl⟩

theorem addressValue_lt {x : Address} (h : validAddress x = true) : addressValue x < 10000 := by
  simpa [addressValue] using decimalValue_lt h

/-! ### IB and DB -/

theorem exec_ib (addr : Address) (s : State) :
    exec (.ib addr) s = .next (executeComplete (addIntoB 0x0001 s)) := rfl

theorem exec_db (addr : Address) (s : State) :
    exec (.db addr) s = .next (executeComplete
      (injectWhen (bcdAddN s.b.toNat 0x9999 4 false).carry addr (addIntoB 0x9999 s))) := rfl

/-- Settles O31: the digits of B are those of an unsigned add of 1, its carry dropped. -/
theorem increaseBCountsUp : Obligations.IncreaseBCountsUp := by
  intro addr s
  have one : allDecimal (digitsOf 4 0x0001) = true := by decide
  have kept := performed_addIntoB 0x0001 s
  have held : (executeComplete (addIntoB 0x0001 s)).b = (addIntoB 0x0001 s).b := by simp
  obtain ⟨forbidden, stops⟩ := addIntoB_forbidden one s
  refine ⟨_, exec_ib addr s, ⟨_, held ▸ digitwiseSum_addIntoB 0x0001 s⟩, fun decimal => ?_,
    fun invalid => by simp [forbidden, stops, invalid],
    (executeComplete_frame _).trans (by simp [withEndOf, addIntoB_eq]), kept.endsExecute, kept.sameWords⟩
  have valid := validAddress_b_addIntoB 0x0001 s
  have value := addressValue_addIntoB decimal one
  have unit : decimalValue (digitsOf 4 0x0001) = 1 := by decide
  have bound := addressValue_lt valid
  rw [held]
  exact ⟨valid, by omega, by simp [forbidden, decimal], by simp [stops, decimal]⟩

/-- Adding 9999 to a decimal B carries exactly when B is not zero, and leaves one less, or 9999 (R250). -/
theorem addIntoB_nines {s : State} (decimal : validAddress s.b = true) :
    (addressValue s.b ≠ 0 → (bcdAddN s.b.toNat 0x9999 4 false).carry = true ∧
      addressValue (addIntoB 0x9999 s).b + 1 = addressValue s.b) ∧
    (addressValue s.b = 0 → (bcdAddN s.b.toNat 0x9999 4 false).carry = false ∧
      addressValue (addIntoB 0x9999 s).b = 9999) := by
  have value := addressValue_addIntoB decimal (x := 0x9999) (by decide)
  have bound := addressValue_lt (validAddress_b_addIntoB 0x9999 s)
  have nines : decimalValue (digitsOf 4 0x9999) = 9999 := by decide
  generalize (bcdAddN s.b.toNat 0x9999 4 false).carry = carry at value ⊢
  cases carry with
  | false =>
    rw [Bool.toNat_false] at value
    exact ⟨fun nonzero => by omega, fun zero => ⟨rfl, by omega⟩⟩
  | true =>
    rw [Bool.toNat_true] at value
    exact ⟨fun nonzero => ⟨rfl, by omega⟩, fun zero => by omega⟩

/-- Settles O30: the digits of B are those of an unsigned add of 9999, whose carry makes the injection. -/
theorem decreaseBCountsDownAndBranches : Obligations.DecreaseBCountsDownAndBranches := by
  intro addr s
  have sum := digitwiseSum_addIntoB 0x9999 s
  have valid := validAddress_b_addIntoB 0x9999 s
  have counted := addIntoB_nines (s := s)
  obtain ⟨forbidden, stops⟩ := addIntoB_forbidden (x := 0x9999) (by decide) s
  rw [exec_db]
  generalize (bcdAddN s.b.toNat 0x9999 4 false).carry = carry at sum counted
  generalize ht : executeComplete (injectWhen carry addr (addIntoB 0x9999 s)) = t
  have kept := (performed_addIntoB 0x9999 s).trans (performed_injectWhen carry addr _)
  have held : (addIntoB 0x9999 s).b = t.b := by simp [← ht, injectWhen_eq]
  have branch : carry = true → t.ccontrol = addr ∧ sameInstruction s.c t.c ∧ t.cop = s.opcodes.cc ∧
      t.stopOverflow = false := by
    rintro rfl
    exact ht ▸ executeComplete_injectWhen_true (by simp) (by simp)
  have noBranch : carry = false → t.c = s.c ∧ t.cop = s.cop ∧ t.stopOverflow = s.stopOverflow := by
    rintro rfl
    simp [← ht, injectWhen_eq, addIntoB_eq]
  rw [held] at sum valid counted
  refine ⟨t, rfl, ⟨carry, sum, branch, noBranch⟩, fun decimal => ⟨valid, ?_, ?_⟩, fun decimal nonzero => ?_,
    fun decimal zero => ?_, fun invalid => ?_, ?_, ht ▸ kept.endsExecute, ht ▸ kept.sameWords⟩
  · simp [← ht, injectWhen_eq, forbidden, decimal]
  · simp [← ht, injectWhen_eq, stops, decimal]
  · obtain ⟨carried, decreased⟩ := (counted decimal).1 nonzero
    exact ⟨decreased, branch carried⟩
  · obtain ⟨notCarried, wrapped⟩ := (counted decimal).2 zero
    exact ⟨wrapped, noBranch notCarried⟩
  · simp [← ht, injectWhen_eq, forbidden, stops, invalid]
  · subst ht
    exact (executeComplete_frame _).trans (by simp [withEndOf, injectWhen_eq, addIntoB_eq])

end Sys2Proof.Machine
end

section
/-! PROOFS. The shifts, circulate and normalize, as arithmetic on the number that the twenty digits of A:R
make (spec/45_shift_store.md R270-R273). -/

namespace Sys2Proof.Machine

/-! ### The pair A:R as a number -/

theorem toNat_pairOf (a : Word) (r : Extension) :
    (pairOf a r).toNat = 2 ^ 40 * (magnitude a).toNat + r.toNat := by
  have high := (magnitude a).isLt
  have low := r.isLt
  rw [pairOf, BitVec.toNat_ofNat, Nat.mod_eq_of_lt (by omega)]

theorem toNat_halves (p : Pair) : 2 ^ 40 * (pairHigh p).toNat + (pairLow p).toNat = p.toNat := by
  have bound := p.isLt
  simp only [pairHigh, pairLow, BitVec.extractLsb'_toNat, Nat.shiftRight_eq_div_pow]
  omega

theorem sixteen_pow_eq (n : Nat) : 16 ^ n = 2 ^ (4 * n) := (pow_mul 2 4 n).symm

/-- Digits leave at the bottom, and from twenty on all of them do (R270). -/
theorem toNat_shiftPairRight (p : Pair) (n : Nat) : (shiftPairRight p n).toNat = p.toNat / 16 ^ n := by
  rw [shiftPairRight]
  split
  · rw [BitVec.toNat_ushiftRight, Nat.shiftRight_eq_div_pow, sixteen_pow_eq]
  · have twenty : 2 ^ 80 ≤ 16 ^ n := sixteen_pow_eq n ▸ Nat.pow_le_pow_right (by decide) (by omega)
    exact (Nat.div_eq_of_lt (p.isLt.trans_le twenty)).symm

/-- Digits leave at the top, and from twenty on all of them do (R271). -/
theorem toNat_shiftPairLeft (p : Pair) (n : Nat) :
    (shiftPairLeft p n).toNat = p.toNat * 16 ^ n % 2 ^ 80 := by
  rw [shiftPairLeft, sixteen_pow_eq]
  split
  · rw [BitVec.toNat_shiftLeft, Nat.shiftLeft_eq]
  · have twenty : 2 ^ 80 ∣ 2 ^ (4 * n) := pow_dvd_pow 2 (by omega)
    exact (Nat.mod_eq_zero_of_dvd (twenty.mul_left _)).symm

/-- The digits that leave at the top come in at the bottom, where the shift left zeros (R272). -/
theorem toNat_rotateDigits (x : Extension) {n : Nat} (h : n < 10) :
    (rotateDigits x n).toNat = (x.toNat * 16 ^ n + x.toNat / 16 ^ (10 - n)) % 2 ^ 40 := by
  have whole : 2 ^ 40 = 2 ^ (4 * n) * 2 ^ (4 * (10 - n)) := by
    rw [← pow_add, ← mul_add, Nat.add_sub_cancel' h.le]
  have leaving : x.toNat / 2 ^ (4 * (10 - n)) < 2 ^ (4 * n) :=
    Nat.div_lt_of_lt_mul (by rw [mul_comm, ← whole]; exact x.isLt)
  have staying : x.toNat * 2 ^ (4 * n) % 2 ^ 40 = 2 ^ (4 * n) * (x.toNat % 2 ^ (4 * (10 - n))) := by
    rw [mul_comm, whole, Nat.mul_mod_mul_left]
  calc (rotateDigits x n).toNat
    _ = x.toNat * 2 ^ (4 * n) % 2 ^ 40 ||| x.toNat / 2 ^ (4 * (10 - n)) := by
      simp only [rotateDigits, BitVec.toNat_or, BitVec.toNat_shiftLeft, BitVec.toNat_ushiftRight,
        Nat.shiftLeft_eq, Nat.shiftRight_eq_div_pow]
    _ = 2 ^ (4 * n) * (x.toNat % 2 ^ (4 * (10 - n))) + x.toNat / 2 ^ (4 * (10 - n)) := by
      rw [staying, Nat.two_pow_add_eq_or_of_lt leaving]
    _ = (x.toNat * 16 ^ n + x.toNat / 16 ^ (10 - n)) % 2 ^ 40 := by
      rw [sixteen_pow_eq, sixteen_pow_eq, whole, Nat.mod_mul, mul_comm x.toNat, Nat.mul_add_mod,
        Nat.mod_eq_of_lt leaving, Nat.mul_add_div (by positivity), Nat.div_eq_of_lt leaving, add_zero,
        add_comm]

/-! ### Counted instructions -/

/-- Two decimal digits are the count, whatever the digits above them (R94). -/
theorem decodeCount_eq (x : Address) : decodeCount x = val? 2 x.toNat := by
  rw [decodeCount, val?, val?, digitsOf_mod 2 x.toNat 256 (by decide)]

/-- A decimal count performs the instruction and ends its Execute (R94). -/
theorem countedInstr_performs {addr : Address} (h : allDecimal (digitsOf 2 addr.toNat) = true)
    (perform : Nat → State → State) (s : State) :
    countedInstr addr perform s =
      .next (executeComplete (perform (decimalValue (digitsOf 2 addr.toNat)) s)) := by
  simp [countedInstr, decodeCount_eq, val?, h]

/-- A count with a nibble above 9 is refused (R94). -/
theorem countedInstr_refused {addr : Address} (h : allDecimal (digitsOf 2 addr.toNat) = false)
    (perform : Nat → State → State) (s : State) :
    countedInstr addr perform s = .refused .nonDecimalCount := by
  simp [countedInstr, decodeCount_eq, val?, h]

/-! ### SR and SL -/

/-- The outcome of an instruction from `s` leaves a number in the twenty digits of A and R, and the Execute
ended, with A's sign digit, every other field and every word of memory kept (R270, R271). -/
def LeavesPair (s : State) (digits : Nat) (outcome : Result) : Prop :=
  ∃ t, outcome = .next t ∧ signDigitOf t.a = signDigitOf s.a ∧
    2 ^ 40 * (magnitude t.a).toNat + t.r.toNat = digits ∧
    t = { withEndOf s t with a := t.a, r := t.r } ∧ endsExecute s t ∧ sameWords s t

theorem performed_setPair (p : Pair) (s : State) : Performed s (setPair p s) := by
  constructor <;> rfl

theorem leavesPair_setPair (p : Pair) (s : State) :
    LeavesPair s p.toNat (.next (executeComplete (setPair p s))) := by
  have kept := performed_setPair p s
  exact ⟨_, rfl, by simp, by simpa using toNat_halves p, (executeComplete_frame _).trans (by simp [withEndOf]),
    kept.endsExecute, kept.sameWords⟩

/-- Settles O32: both set the pair to a shift of itself by the count. -/
theorem shiftsMoveTheTwentyDigits : Obligations.ShiftsMoveTheTwentyDigits := by
  refine fun addr s => ⟨fun decimal => ⟨?sr, ?sl⟩, fun other =>
    ⟨countedInstr_refused other _ s, countedInstr_refused other _ s⟩⟩
  case sr =>
    have shifted := leavesPair_setPair
      (shiftPairRight (pairOf s.a s.r) (decimalValue (digitsOf 2 addr.toNat))) s
    rw [toNat_shiftPairRight, toNat_pairOf] at shifted
    rw [exec, execSr, countedInstr_performs decimal]
    exact shifted
  case sl =>
    have shifted := leavesPair_setPair
      (shiftPairLeft (pairOf s.a s.r) (decimalValue (digitsOf 2 addr.toNat))) s
    rw [toNat_shiftPairLeft, toNat_pairOf] at shifted
    rw [exec, execSl, countedInstr_performs decimal]
    exact shifted

/-! ### CIRA -/

/-- Settles O33: A's magnitude is rotated by the count modulo 10, and nothing else performed. -/
theorem circulateRotatesTheMagnitude : Obligations.CirculateRotatesTheMagnitude := by
  refine fun addr s => ⟨fun decimal => ?counted, fun other => ?refused⟩
  case counted =>
    rw [exec, execCira, countedInstr_performs decimal]
    have rotated := toNat_rotateDigits (magnitude s.a)
      (Nat.mod_lt (decimalValue (digitsOf 2 addr.toNat)) (by decide : 0 < 10))
    have kept : ∀ w, Performed s { s with a := w } := fun w => by constructor <;> rfl
    exact ⟨_, rfl, by simp, by simpa using rotated, (executeComplete_frame _).trans (by simp [withEndOf]),
      (kept _).endsExecute, (kept _).sameWords⟩
  case refused => rw [exec, execCira, countedInstr_refused other]

/-! ### NOR -/

theorem topDigit_eq_zero_iff (p : Pair) : p.extractLsb' 76 4 = 0#4 ↔ p.toNat < 16 ^ 19 := by
  have bound := p.isLt
  rw [← BitVec.toNat_inj, BitVec.extractLsb'_toNat, Nat.shiftRight_eq_div_pow]
  simp only [BitVec.toNat_ofNat]
  omega

/-- A pair that `m` digits left make large enough for a top digit is shifted by at most `m`, losing no digit,
until it has one (R273). -/
theorem normalizePair_shifts {fuel m : Nat} {p : Pair} (count : Nat) (hm : m ≤ fuel)
    (hp : 16 ^ 19 ≤ p.toNat * 16 ^ m) :
    ∃ n ≤ m, (normalizePair fuel p count).2 = count + n ∧
      (normalizePair fuel p count).1.toNat = p.toNat * 16 ^ n ∧ 16 ^ 19 ≤ p.toNat * 16 ^ n := by
  induction fuel generalizing m p count with
  | zero =>
    obtain rfl : m = 0 := by omega
    exact ⟨0, le_rfl, rfl, by simp [normalizePair], hp⟩
  | succ fuel ih =>
    rw [normalizePair]
    by_cases top : p.toNat < 16 ^ 19
    · rw [if_pos ((topDigit_eq_zero_iff p).mpr top)]
      obtain _ | m := m
      · omega
      have shifted : (shiftPairLeft p 1).toNat = p.toNat * 16 := by
        rw [toNat_shiftPairLeft, Nat.mod_eq_of_lt (by omega), pow_one]
      obtain ⟨n, hn, counted, moved, normal⟩ := ih (p := shiftPairLeft p 1) (m := m) (count + 1)
        (by omega) (by rwa [shifted, mul_assoc, ← pow_succ'])
      rw [shifted, mul_assoc, ← pow_succ'] at moved normal
      exact ⟨n + 1, by omega, by omega, moved, normal⟩
    · rw [if_neg (mt (topDigit_eq_zero_iff p).mp top)]
      exact ⟨0, by omega, rfl, by simp, by omega⟩

/-- The pair of a magnitude that is not zero needs at most nine digits (R273). -/
theorem normalizePair_pairOf {a : Word} (h : magnitude a ≠ 0#40) (r : Extension) :
    ∃ n ≤ 9, (normalizePair 10 (pairOf a r) 0).2 = n ∧
      (normalizePair 10 (pairOf a r) 0).1.toNat = (2 ^ 40 * (magnitude a).toNat + r.toNat) * 16 ^ n ∧
      16 ^ 19 ≤ (normalizePair 10 (pairOf a r) 0).1.toNat := by
  have positive : 0 < (magnitude a).toNat := Nat.pos_of_ne_zero fun zero => h (BitVec.eq_of_toNat_eq zero)
  have pair := toNat_pairOf a r
  obtain ⟨n, hn, counted, moved, normal⟩ :=
    normalizePair_shifts (fuel := 10) (m := 9) (p := pairOf a r) 0 (by decide) (by omega)
  exact ⟨n, hn, counted.trans (Nat.zero_add n), pair ▸ moved, moved ▸ normal⟩

theorem toNat_bcd_digit : ∀ n ≤ 9, (BitVec.ofNat 16 (bcd 4 n)).toNat = n := by decide

theorem exec_nor_zero {s : State} (h : magnitude s.a = 0#40) (addr : Address) :
    exec (.nor addr) s = .next (executeComplete (injectWhen true addr s)) := by
  rw [exec, execNor, if_pos h]
  rfl

/-- The state after NOR's shift (R273). -/
def normalized (s : State) : State :=
  let shifted := normalizePair 10 (pairOf s.a s.r) 0
  { setPair shifted.1 s with special := BitVec.ofNat 16 (bcd 4 shifted.2) }

theorem exec_nor_nonzero {s : State} (h : magnitude s.a ≠ 0#40) (addr : Address) :
    exec (.nor addr) s = .next (executeComplete (normalized s)) := by
  rw [exec, execNor, if_neg h]
  rfl

theorem performed_normalized (s : State) : Performed s (normalized s) := by constructor <;> rfl

/-- A magnitude that is not zero gets a top digit, and SPECIAL the number of digits of the shift (R273). -/
theorem normalized_shifts {s : State} (h : magnitude s.a ≠ 0#40) :
    16 ^ 9 ≤ (magnitude (normalized s).a).toNat ∧
      ∃ n, n ≤ 9 ∧ (normalized s).special.toNat = n ∧
        2 ^ 40 * (magnitude (normalized s).a).toNat + (normalized s).r.toNat =
          (2 ^ 40 * (magnitude s.a).toNat + s.r.toNat) * 16 ^ n := by
  obtain ⟨n, hn, counted, moved, normal⟩ := normalizePair_pairOf h s.r
  have halves := toNat_halves (normalizePair 10 (pairOf s.a s.r) 0).1
  have low := (pairLow (normalizePair 10 (pairOf s.a s.r) 0).1).isLt
  have high : magnitude (normalized s).a = pairHigh (normalizePair 10 (pairOf s.a s.r) 0).1 :=
    magnitude_withMagnitude _ _
  have count : (normalized s).special.toNat = n :=
    (congrArg (fun k => (BitVec.ofNat 16 (bcd 4 k)).toNat) counted).trans (toNat_bcd_digit n hn)
  rw [high]
  exact ⟨by omega, n, hn, count, halves.trans moved⟩

/-- Settles O35: by whether the magnitude of A is zero. -/
theorem normalizeShiftsOrBranches : Obligations.NormalizeShiftsOrBranches := by
  intro addr s
  by_cases zero : magnitude s.a = 0#40
  · have kept := performed_injectWhen true addr s
    obtain ⟨control, same, order, overflow⟩ :=
      executeComplete_injectWhen_true (addr := addr) (s := s) (u := s) rfl rfl
    exact ⟨_, exec_nor_zero zero addr,
      fun _ => ⟨control, same, order, overflow, by simp [injectWhen_eq]⟩, absurd zero,
      (executeComplete_frame _).trans (by simp [withEndOf, injectWhen_eq]), kept.endsExecute, kept.sameWords⟩
  · have kept := performed_normalized s
    have shifted := normalized_shifts zero
    refine ⟨_, exec_nor_nonzero zero addr, (absurd · zero), fun _ => ⟨?_, ?_, ?_, ?_, by simpa using shifted⟩,
      (executeComplete_frame _).trans (by simp [withEndOf, normalized]), kept.endsExecute, kept.sameWords⟩
    all_goals simp [normalized]

end Sys2Proof.Machine
end

section
/-! PROOFS. The two halves of a storing instruction: the store issued, and its completion
(spec/45_shift_store.md R284, R285). -/

namespace Sys2Proof.Machine

/-- A storing instruction with no store of its own outstanding issues one (R182). -/
theorem storeInstr_issues {s : State} (h : ∀ clear, s.phase ≠ .awaitMem (.storeComplete clear))
    (addr : Address) (clearAfter : Bool) : storeInstr addr clearAfter s = memWrite addr clearAfter s := by
  unfold storeInstr
  split
  · exact absurd ‹_› (h _)
  · rfl

/-- A store that has been done is completed as its phase says, whichever instruction is asked (R202). -/
theorem storeInstr_completes {s : State} {clear : Bool} (h : s.phase = .awaitMem (.storeComplete clear))
    (addr : Address) (clearAfter : Bool) :
    storeInstr addr clearAfter s = .next (storeComplete clear s) := by
  simp [storeInstr, h]

theorem memWrite_of_location {x : Address} {loc : Location} (h : decodeAddress x = some loc)
    (clear : Bool) (s : State) :
    memWrite x clear s = .next (issueAccess loc (.storeComplete clear) (s.write loc s.a)) :=
  memWrite_next.mpr ⟨loc, h, rfl⟩

/-- The words that an issued store leaves: A at its location, the others as they were (R65). -/
theorem read_issuedStore (loc : Location) (k : Successor) (s : State) :
    (issueAccess loc k (s.write loc s.a)).read loc = s.a ∧
      ∀ other, other ≠ loc → (issueAccess loc k (s.write loc s.a)).read other = s.read other :=
  ⟨s.read_write_same loc s.a, fun _ distinct => s.read_write_other s.a distinct⟩

/-- Settles O36: both issue the store of A, and only the flag to clear A afterwards tells them apart. -/
theorem storesWriteExactlyTheirWord : Obligations.StoresWriteExactlyTheirWord := by
  intro addr s loc hp hl c hc
  have issued : exec c.1 s = .next (issueAccess loc (.storeComplete c.2) (s.write loc s.a)) := by
    rw [← memWrite_of_location hl, ← storeInstr_issues hp]
    obtain rfl | rfl := List.mem_pair.mp hc <;> rfl
  obtain ⟨stored, others⟩ := read_issuedStore loc (.storeComplete c.2) s
  exact ⟨_, issued, stored, others, rfl, samplesLatency_issueAccess loc _ (s.write loc s.a), rfl⟩

/-- The completion of a store ends the Execute of a state in which A alone may be cleared (R284, R285). -/
theorem storeComplete_eq (clear : Bool) (s : State) :
    storeComplete clear s = executeComplete { s with a := if clear then 0#44 else s.a } := by
  cases clear <;> rfl

/-- Settles O37: the instruction and the drum's successor run the same completion. -/
theorem storesCompleteByEndingTheExecute : Obligations.StoresCompleteByEndingTheExecute := by
  intro addr clear s hp
  have kept : Performed s { s with a := if clear then 0#44 else s.a } := by constructor <;> rfl
  refine ⟨storeComplete clear s, storeInstr_completes hp addr false, storeInstr_completes hp addr true, rfl,
    storeComplete_a clear s, ?_⟩
  rw [storeComplete_eq]
  exact ⟨(executeComplete_frame _).trans (by simp [withEndOf]), kept.endsExecute, kept.sameWords⟩

end Sys2Proof.Machine
end

section
/-! PROOFS. The orders that are not performed: the stubs and the reserved codes, each an operand read, an end of
the Execute or a refusal (spec/46_unimplemented.md R290-R293). -/

namespace Sys2Proof.Machine

/-! ### The two outcomes that are not a refusal -/

/-- The outcome of a half-step from `s` is the end of the Execute and nothing more (R183). -/
def OnlyEndsExecute (s : State) (outcome : Result) : Prop :=
  ∃ t, outcome = .next t ∧ t = withEndOf s t ∧ endsExecute s t ∧ sameWords s t

/-- The outcome of a half-step from `s` is a read of `loc` into D, issued for an operand, and nothing more
(R64, R181). -/
def OnlyReadsOperand (loc : Location) (s : State) (outcome : Result) : Prop :=
  ∃ t, outcome = .next t ∧ t.d = s.read loc ∧ t.phase = .awaitMem .execWithOperand ∧
    samplesLatency loc s t ∧ t = { withIssueOf s t with d := t.d } ∧ sameWords s t

theorem onlyEndsExecute_executeComplete (s : State) : OnlyEndsExecute s (.next (executeComplete s)) :=
  ⟨_, rfl, executeComplete_frame s, (Performed.refl s).endsExecute, (Performed.refl s).sameWords⟩

/-- Reading a location into D and issuing the access writes D and what `withIssueOf` lists. -/
theorem onlyReadsOperand_memRead {x : Address} {loc : Location} (h : decodeAddress x = some loc) (s : State) :
    OnlyReadsOperand loc s (memRead x .execWithOperand s) :=
  ⟨_, memRead_of_location h _ s, rfl, rfl, samplesLatency_issueAccess loc _ { s with d := s.read loc }, rfl,
    sameWords_of rfl⟩

/-! ### The stubs -/

/-- The six stubs have one meaning (R290). -/
theorem exec_stub (addr : Address) (s : State) :
    ∀ i ∈ [Instr.m addr, .div addr, .fad addr, .fsu addr, .fm addr, .fdiv addr],
      exec i s = stubInstr addr s := by
  simp [exec, execM, execDiv, execFad, execFsu, execFm, execFdiv]

/-- A stub whose operand has come does nothing with it, in either mode (R291). -/
theorem stubInstr_operandCame {s : State} (h : s.phase = .awaitMem .execWithOperand) (addr : Address) :
    stubInstr addr s = .next (executeComplete s) := by
  simp [stubInstr, h]

/-- In `refuse` mode a stub that awaits no operand is refused (R290). -/
theorem stubInstr_refused {s : State} (h : s.phase ≠ .awaitMem .execWithOperand) (hm : s.stubMode = .refuse)
    (addr : Address) : stubInstr addr s = .refused (.unimplemented s.cop) := by
  unfold stubInstr
  split
  · contradiction
  · simp_all
  · rfl

/-- Settles O23, by the two phases that a stub tells apart. -/
theorem stubsReadTheirOperandAndDoNothing : Obligations.StubsReadTheirOperandAndDoNothing := by
  refine fun addr s i hi => ⟨fun came => ?_, fun notCome hm loc hl => ?_⟩
  · rw [exec_stub addr s i hi, stubInstr_operandCame came]
    exact onlyEndsExecute_executeComplete s
  · rw [exec_stub_reads notCome hm i hi]
    exact onlyReadsOperand_memRead hl s

/-- Settles O24: a stub executed awaits no operand. -/
theorem stubsAreRefusedInRefuseMode : Obligations.StubsAreRefusedInRefuseMode := by
  intro addr s hp hm i hi
  rw [exec_stub addr s i hi, stubInstr_refused (by simp [hp]) hm]

/-! ### The reserved codes -/

/-- In `refuse` mode a reserved code of either class is refused (R293). -/
theorem dispatchOrder_reserved_refused {s : State} (hf : faultPending s = false)
    (hd : decodeOrder s.opcodes s.cop s.caddr = none) (hm : s.reservedMode = .refuse) :
    dispatchOrder s = .refused (.reserved s.cop) := by
  rw [dispatchOrder_runs_reserved hf hd]
  split
  · rw [execReservedOperand, hm]
  · rw [execReservedNonOperand, hm]

/-- In `noop` mode a reserved code of the non-operand class ends its Execute (R293). -/
theorem dispatchOrder_reserved_ends {s : State} (hf : faultPending s = false)
    (hd : decodeOrder s.opcodes s.cop s.caddr = none) (hm : s.reservedMode = .noop) (code : s.cop.toNat < 0x60) :
    dispatchOrder s = .next (executeComplete s) := by
  have nonOperand : isOperandOrder s.cop = false := decide_eq_false (Nat.not_le.mpr code)
  simp [dispatchOrder_runs_reserved hf hd, nonOperand, execReservedNonOperand, hm]

/-- The successor of an operand read ends the Execute of a reserved code of either class (R183; log 27). -/
theorem executeWithOperand_reserved {s : State} (hd : decodeOrder s.opcodes s.cop s.caddr = none) :
    executeWithOperand s = .next (executeComplete s) := by
  rw [executeWithOperand, decodeClass, hd]
  cases isOperandOrder s.cop <;> rfl

/-- Settles O25, by the mode and the class of the code, and by its successor in either class. -/
theorem reservedCodesFollowReservedMode : Obligations.ReservedCodesFollowReservedMode := by
  refine fun s hf hd => ⟨dispatchOrder_reserved_refused hf hd, fun hm code => ?_, fun hm code loc hl => ?_, ?_⟩
  · obtain ⟨t, next, frame, ends, -⟩ := onlyEndsExecute_executeComplete s
    exact ⟨t, (dispatchOrder_reserved_ends hf hd hm code).trans next, frame, ends⟩
  · obtain ⟨t, next, operand, phase, latency, frame, -⟩ := onlyReadsOperand_memRead hl s
    exact ⟨t, (dispatchOrder_reserved_reads hf hd hm code).trans next, operand, phase, latency, frame⟩
  · obtain ⟨t, next, frame, ends, -⟩ := onlyEndsExecute_executeComplete s
    exact ⟨t, (executeWithOperand_reserved hd).trans next, frame, ends⟩

end Sys2Proof.Machine
end

section
/-! PROOFS. No step of an enabled agent faults: the adder's assertion holds of every sum
(spec/41_decimal_adder.md R148), and the other fault is of a phase in which no agent is enabled (log 16). -/

namespace Sys2Proof.Machine

/-- The outcome is a next state or a refusal. -/
def NeverFaults {σ φ ρ : Type} (o : Host.Outcome σ φ ρ) : Prop := ∀ e, o ≠ .fault e

theorem neverFaults_next {σ φ ρ : Type} (s : σ) : NeverFaults (.next s : Host.Outcome σ φ ρ) :=
  fun _ => nofun

theorem neverFaults_refused {σ φ ρ : Type} (r : ρ) : NeverFaults (.refused r : Host.Outcome σ φ ρ) :=
  fun _ => nofun

theorem NeverFaults.onNext {f : State → State} {o : Result} (h : NeverFaults o) :
    NeverFaults (onNext f o) := by
  cases o with
  | next s => exact neverFaults_next (f s)
  | fault e => exact absurd rfl (h e)
  | refused r => exact neverFaults_refused r

/-! ### The shared operations -/

theorem neverFaults_memRead (x : Address) (k : Successor) (s : State) : NeverFaults (memRead x k s) := by
  unfold memRead
  split
  · exact neverFaults_refused _
  · exact neverFaults_next _

theorem neverFaults_memWrite (x : Address) (clear : Bool) (s : State) :
    NeverFaults (memWrite x clear s) := by
  unfold memWrite
  split
  · exact neverFaults_refused _
  · exact neverFaults_next _

/-- The top digit of every sum is 0, 1 or 9, which the adder asserts (R144, R148). -/
theorem neverFaults_addIntoA (x y : Word) (s : State) : NeverFaults (addIntoA x y s) := by
  rw [addIntoA_eq]
  exact neverFaults_next _

theorem neverFaults_operandInstr {perform : State → Result} (h : ∀ s, NeverFaults (perform s))
    (addr : Address) (s : State) : NeverFaults (operandInstr addr perform s) := by
  unfold operandInstr
  split
  · exact (h s).onNext
  · exact neverFaults_memRead _ _ _

theorem neverFaults_storeInstr (addr : Address) (clear : Bool) (s : State) :
    NeverFaults (storeInstr addr clear s) := by
  unfold storeInstr
  split
  · exact neverFaults_next _
  · exact neverFaults_memWrite _ _ _

theorem neverFaults_stubInstr (addr : Address) (s : State) : NeverFaults (stubInstr addr s) := by
  unfold stubInstr
  split
  · exact neverFaults_next _
  · exact neverFaults_memRead _ _ _
  · exact neverFaults_refused _

theorem neverFaults_countedInstr (addr : Address) (perform : Nat → State → State) (s : State) :
    NeverFaults (countedInstr addr perform s) := by
  unfold countedInstr
  split
  · exact neverFaults_refused _
  · exact neverFaults_next _

/-- An operand-class instruction that adds into A. -/
theorem neverFaults_operand_add (x y : State → Word) (addr : Address) (s : State) :
    NeverFaults (operandInstr addr (fun t => addIntoA (x t) (y t) t) s) :=
  neverFaults_operandInstr (fun t => neverFaults_addIntoA (x t) (y t) t) addr s

/-! ### The half-steps -/

theorem neverFaults_exec (i : Instr) (s : State) : NeverFaults (exec i s) := by
  cases i with
  | cira addr =>
    unfold exec execCira
    exact neverFaults_countedInstr addr _ s
  | stc addr => exact neverFaults_storeInstr addr true s
  | cnz addr => exact neverFaults_next _
  | stop low addr => exact neverFaults_next _
  | st addr => exact neverFaults_storeInstr addr false s
  | sr addr =>
    unfold exec execSr
    exact neverFaults_countedInstr addr _ s
  | sl addr =>
    unfold exec execSl
    exact neverFaults_countedInstr addr _ s
  | nor addr => exact neverFaults_next _
  | adsc addr => exact (neverFaults_addIntoA s.a (specialWord s.special) s).onNext
  | susc addr => exact (neverFaults_addIntoA s.a (negSpecialWord s.special) s).onNext
  | cu addr => exact neverFaults_next _
  | cur addr => exact neverFaults_next _
  | db addr => exact neverFaults_next _
  | cc addr => exact neverFaults_next _
  | ccr addr => exact neverFaults_next _
  | ib addr => exact neverFaults_next _
  | m addr => exact neverFaults_stubInstr addr s
  | div addr => exact neverFaults_stubInstr addr s
  | ex addr => exact neverFaults_operandInstr (fun t => neverFaults_next (extractIntoA t.a t.d t)) addr s
  | ad addr => exact neverFaults_operand_add (·.a) (·.d) addr s
  | su addr => exact neverFaults_operand_add (·.a) (fun t => negWord t.d) addr s
  | cad addr => exact neverFaults_operand_add (fun _ => zeroWord) (·.d) addr s
  | csu addr => exact neverFaults_operand_add (fun _ => zeroWord) (fun t => negWord t.d) addr s
  | fad addr => exact neverFaults_stubInstr addr s
  | fsu addr => exact neverFaults_stubInstr addr s
  | fm addr => exact neverFaults_stubInstr addr s
  | fdiv addr => exact neverFaults_stubInstr addr s
  | ada addr => exact neverFaults_operand_add (·.a) (fun t => absWord t.d) addr s
  | sua addr => exact neverFaults_operand_add (·.a) (fun t => negAbsWord t.d) addr s
  | cada addr => exact neverFaults_operand_add (fun _ => zeroWord) (fun t => absWord t.d) addr s
  | csua addr => exact neverFaults_operand_add (fun _ => zeroWord) (fun t => negAbsWord t.d) addr s

/-- A reserved code reads an operand, ends its Execute or is refused (R293). -/
theorem neverFaults_reserved (s : State) :
    NeverFaults (execReservedOperand s) ∧ NeverFaults (execReservedNonOperand s) := by
  cases hm : s.reservedMode with
  | noop =>
    rw [execReservedOperand, execReservedNonOperand, hm]
    exact ⟨neverFaults_memRead _ _ _, neverFaults_next _⟩
  | refuse =>
    rw [execReservedOperand, execReservedNonOperand, hm]
    exact ⟨neverFaults_refused _, neverFaults_refused _⟩

theorem neverFaults_dispatchOrder (s : State) : NeverFaults (dispatchOrder s) := by
  obtain ⟨operand, nonOperand⟩ := neverFaults_reserved s
  unfold dispatchOrder
  split
  · exact neverFaults_next _
  · split
    · exact neverFaults_exec _ s
    · exact operand
    · exact nonOperand

theorem neverFaults_executeWithOperand (s : State) : NeverFaults (executeWithOperand s) := by
  unfold executeWithOperand
  split
  · split
    · exact neverFaults_exec _ s
    · exact neverFaults_next _
  · exact neverFaults_next _
  · exact neverFaults_next _

theorem neverFaults_processorStep (s : State) : NeverFaults (processorStep s) := by
  unfold processorStep
  split
  · exact neverFaults_next _
  · split
    · exact neverFaults_memRead _ _ _
    · exact neverFaults_dispatchOrder _

theorem neverFaults_completion (k : Successor) (s : State) : NeverFaults (completion k s) := by
  refine NeverFaults.onNext ?_
  cases k with
  | fetchComplete => exact neverFaults_next _
  | execWithOperand => exact neverFaults_executeWithOperand _
  | storeComplete clear => exact neverFaults_next _

/-! ### The agents and the slice -/

/-- An agent is enabled while the processor is between half-steps and while an access is outstanding (R170). -/
theorem agentEnabled_iff {s : State} :
    agentEnabled s = true ↔ s.phase = .running ∨ ∃ k, s.phase = .awaitMem k := by
  cases hp : s.phase <;> simp [agentEnabled, hp]

theorem neverFaults_agentStep {s : State} (h : agentEnabled s = true) : NeverFaults (agentStep s) := by
  obtain hp | ⟨k, hp⟩ := agentEnabled_iff.mp h
  · rw [agentStep, hp]
    exact neverFaults_processorStep _
  · rw [agentStep, hp]
    exact neverFaults_completion k _

/-- The loop of a slice steps only where an agent is enabled (R305). -/
theorem neverFaults_sliceLoop (fuel cycles : Nat) (s : State) : NeverFaults (sliceLoop fuel cycles s) := by
  induction fuel generalizing cycles s with
  | zero => exact neverFaults_next _
  | succ fuel ih =>
    unfold sliceLoop
    split
    next enabled =>
      obtain ⟨enabled, -⟩ := enabled
      cases ha : agentStep s with
      | next t => exact ih _ t
      | fault e => exact absurd ha (neverFaults_agentStep enabled e)
      | refused r => exact neverFaults_refused r
    next => exact neverFaults_next _

theorem neverFaults_runSlice (s : State) : NeverFaults (runSlice s) := by
  unfold runSlice
  cases hl : sliceLoop Config.cycleBudget 0 s with
  | next result => exact neverFaults_next _
  | fault e => exact absurd hl (neverFaults_sliceLoop _ _ s e)
  | refused r => exact neverFaults_refused r

end Sys2Proof.Machine
end

section
/-! PROOFS. The host's console operations that run no slice: start, stop and the two clears
(spec/47_scheduler.md R301, R302, R309, R313, R314). -/

namespace Sys2Proof.Machine

/-! ### Which operations are enabled -/

theorem whenIdle_of_idle {s : State} (h : s.phase = .idle) (perform : Result) :
    whenIdle s perform = perform := if_pos h

theorem whenIdle_of_not_idle {s : State} (h : s.phase ≠ .idle) (perform : Result) :
    whenIdle s perform = .next s := if_neg h

theorem admitted_of_skip_off {s : State} (h : s.sw.skip = false) (perform : Result) :
    admitted s perform = perform := by
  simp [admitted, h]

theorem admitted_of_skip_on {s : State} (h : s.sw.skip = true) (perform : Result) :
    admitted s perform = .refused .skipSwitchOn := if_pos h

theorem hostOperation_start {s : State} (hp : s.phase = .idle) (hk : s.sw.skip = false) :
    hostOperation .start s = .next (startRun s) :=
  (whenIdle_of_idle hp _).trans (admitted_of_skip_off hk _)

theorem hostOperation_step {s : State} (hp : s.phase = .idle) (hk : s.sw.skip = false) :
    hostOperation .step s = stepRun s :=
  (whenIdle_of_idle hp _).trans (admitted_of_skip_off hk _)

/-! ### Reset, start and the clears -/

/-- Settles O48: each field of the reset state is written out, and Clear writes what stands there. -/
theorem resetIsTheClearedLaunch : Obligations.ResetIsTheClearedLaunch :=
  ⟨rfl, rfl, rfl, rfl, rfl, rfl, rfl, rfl, rfl, rfl, rfl, rfl, rfl, rfl, rfl, rfl, rfl, rfl, rfl, rfl, rfl,
    rfl, rfl⟩

/-- Settles O49: start is enabled and admitted, and its writes are those of the restart and of the scheduler. -/
theorem startResetsFaultsAndRuns : Obligations.StartResetsFaultsAndRuns := fun s hp hk =>
  ⟨startRun s, hostOperation_start hp hk, rfl, hostTime_le_readClock (restart s), rfl, rfl, rfl, rfl, rfl, rfl,
    rfl, rfl, rfl⟩

/-- Settles O51: both clears are enabled in Idle. -/
theorem clearAndClearControlReset : Obligations.ClearAndClearControlReset := fun _ hp =>
  ⟨whenIdle_of_idle hp _, whenIdle_of_idle hp _⟩

/-! ### A halt request during an access -/

/-- What has halted stays halted when the latch of the host's `step` is taken (R315). -/
theorem halted_takeStepHalt {s : State} (h : halted s) : halted (takeStepHalt s) := by
  obtain ⟨phase, idle⟩ := h
  unfold takeStepHalt
  split
  · rw [if_neg (by simp [phase])]
    exact ⟨phase, idle⟩
  · exact ⟨phase, idle⟩

/-- The second half of an instruction that adds into A ends halted when the halt was requested (R196, R221). -/
theorem operand_add_halts_on_request {addr : Address} {x y : State → Word} {s t : State}
    (hp : s.phase = .awaitMem .execWithOperand) (hc : s.togCST = true)
    (h : operandInstr addr (fun v => addIntoA (x v) (y v) v) s = .next t) : halted t := by
  rw [operandInstr_performs hp, addIntoA_eq, onNext_of_next, recordSum_eq] at h
  injection h with h
  exact h ▸ executeComplete_halts (.inr (.inr (by simp [hc])))

/-- No instruction of the operand class clears a halt request, so that its second half ends halted (R183,
R196). -/
theorem exec_operand_halts_on_request {i : Instr} {s t : State} (hi : i.operandClass = true)
    (hp : s.phase = .awaitMem .execWithOperand) (hc : s.togCST = true) (h : exec i s = .next t) :
    halted t := by
  have stub : ∀ {addr}, stubInstr addr s = .next t → halted t := fun {addr} h => by
    rw [stubInstr_operandCame hp] at h
    injection h with h
    exact h ▸ executeComplete_halts (.inr (.inr hc))
  cases i with
  | m addr => exact stub h
  | div addr => exact stub h
  | fad addr => exact stub h
  | fsu addr => exact stub h
  | fm addr => exact stub h
  | fdiv addr => exact stub h
  | ex addr =>
    rw [exec_ex_performs hp] at h
    injection h with h
    exact h ▸ executeComplete_halts (.inr (.inr (by simp [extractIntoA_eq, hc])))
  | ad addr => exact operand_add_halts_on_request hp hc h
  | su addr => exact operand_add_halts_on_request (y := fun v => negWord v.d) hp hc h
  | cad addr => exact operand_add_halts_on_request (x := fun _ => zeroWord) (y := (·.d)) hp hc h
  | csu addr => exact operand_add_halts_on_request (x := fun _ => zeroWord) (y := fun v => negWord v.d) hp hc h
  | ada addr => exact operand_add_halts_on_request (y := fun v => absWord v.d) hp hc h
  | sua addr => exact operand_add_halts_on_request (y := fun v => negAbsWord v.d) hp hc h
  | cada addr => exact operand_add_halts_on_request (x := fun _ => zeroWord) (y := fun v => absWord v.d) hp hc h
  | csua addr => exact operand_add_halts_on_request (x := fun _ => zeroWord) (y := fun v => negAbsWord v.d) hp hc h
  | _ => cases hi

/-- Every successor tests the halt request at its end (R178, R196). -/
theorem runSuccessor_halts_on_request {k : Successor} {s t : State} (hp : s.phase = .awaitMem k)
    (hc : s.togCST = true) (h : runSuccessor k s = .next t) : halted t := by
  cases k with
  | fetchComplete =>
    injection h with h
    rw [← h, fetchComplete_eq]
    simp [halted, hc]
  | execWithOperand =>
    obtain rfl | ⟨i, -, hi, hx⟩ := executeWithOperand_next h
    · exact executeComplete_halts (.inr (.inr hc))
    · exact exec_operand_halts_on_request hi hp hc hx
  | storeComplete clear =>
    injection h with h
    subst h
    cases clear
    · exact executeComplete_halts (.inr (.inr hc))
    · exact executeComplete_halts (s := { s with a := 0#44 }) (.inr (.inr hc))

/-- A halt requested while an access is outstanding is taken by its completion (R302). -/
theorem completion_halts_on_request {k : Successor} {s t : State} (hp : s.phase = .awaitMem k)
    (hc : s.togCST = true) (h : completion k s = .next t) : halted t := by
  obtain ⟨u, hu, rfl⟩ := onNext_next.mp h
  exact halted_takeStepHalt (runSuccessor_halts_on_request (s := accessArrives s) hp hc hu)

/-! ### Stop -/

/-- `stop`, field by field: the clock is read twice (R302; log 23), and only a running processor is halted. -/
theorem stopRun_eq (s : State) :
    stopRun s = { s with
      togCST := true
      stopIdle := decide (s.phase = .running) || s.stopIdle
      phase := if s.phase = .running then .idle else s.phase
      hostTime := (readClock (readClock s)).hostTime
      draws := s.draws + 2
      sched := { s.sched with
        busy := false
        token := none
        runTime := s.sched.runTime + ((readClock s).hostTime - s.sched.runStamp)
        runStamp := (readClock (readClock s)).hostTime } } := by
  by_cases hp : s.phase = .running <;> simp [stopRun, readClock, halt, hp]

/-- Settles O50: the halt request is taken between half-steps, and else by the completion of the access. -/
theorem stopIsTakenAtTheBoundary : Obligations.StopIsTakenAtTheBoundary := by
  intro s
  refine ⟨_, congrArg Host.Outcome.next (stopRun_eq s), rfl, rfl, rfl,
    ⟨_, hostTime_le_readClock s, hostTime_le_readClock (readClock s), rfl⟩, rfl, rfl,
    fun hp => ?running, fun hp => ?elsewhere, fun k u hp h => ?access⟩
  case running => simp [hp]
  case elsewhere => simp [hp]
  case access => exact completion_halts_on_request (by simp [hp]) rfl h

end Sys2Proof.Machine
end

section
/-! PROOFS. A slice is a run: the loop of a slice takes the agents' steps one by one, each begun within the
budget, and counts their cycles (spec/47_scheduler.md R305, R306). -/

namespace Sys2Proof.Machine

/-- Step `m` of the run from `s` is begun with an agent enabled and the cycle budget not used, when `cycles` were
counted before the run (R305). -/
def beginsAfter (cycles m : Nat) (s : State) : Prop :=
  cycles + runCycles m s < Config.cycleBudget ∧ ∃ t, core.run m s = .next t ∧ agentEnabled t = true

theorem beginsAfter_zero_cycles (m : Nat) (s : State) : beginsAfter 0 m s ↔ beginsWithinBudget m s := by
  simp only [beginsAfter, beginsWithinBudget, zero_add]

theorem beginsAfter_zero (cycles : Nat) (s : State) :
    beginsAfter cycles 0 s ↔ cycles < Config.cycleBudget ∧ agentEnabled s = true := by
  constructor
  · rintro ⟨budget, t, run, enabled⟩
    injection run with same
    exact ⟨budget, same ▸ enabled⟩
  · exact fun ⟨budget, enabled⟩ => ⟨budget, s, rfl, enabled⟩

theorem beginsAfter_succ {s t : State} (h : step s = .next t) (cycles m : Nat) :
    beginsAfter cycles (m + 1) s ↔ beginsAfter (cycles + Config.cycleCost (activityOf s)) m t := by
  simp only [beginsAfter, runCycles_succ h, core_run_succ h, Nat.add_assoc]

/-- Every activity costs a cycle (log 10). -/
theorem cycleCost_pos (x : Activity) : 1 ≤ Config.cycleCost x := Nat.le_add_right 1 _

/-- The agents list no turn and mark no state refused. -/
theorem freeRunning_agentStep {s t : State} (hs : freeRunning s) (h : agentStep s = .next t) :
    freeRunning t := by
  obtain ⟨turns, refused⟩ := hs
  have kept := agentKeeps_agentStep h
  exact ⟨kept.turns.trans turns, kept.refused.trans refused⟩

/-- The loop of a slice, begun with `cycles` counted, has run the `n` steps from `s` to `t` (R305). -/
structure RunsWithin (cycles n : Nat) (s t : State) : Prop where
  run : core.run n s = .next t
  counted : n ≤ runCycles n s
  begins : ∀ m < n, beginsAfter cycles m s

theorem RunsWithin.refl (cycles : Nat) (s : State) : RunsWithin cycles 0 s s where
  run := rfl
  counted := Nat.le_refl 0
  begins := nofun

/-- A run within the budget of one step more, from its first step. -/
theorem RunsWithin.step {cycles n : Nat} {s t u : State} (begins : beginsAfter cycles 0 s)
    (h : step s = .next t) (ht : RunsWithin (cycles + Config.cycleCost (activityOf s)) n t u) :
    RunsWithin cycles (n + 1) s u where
  run := (core_run_succ h).trans ht.run
  counted := by
    rw [runCycles_succ h, Nat.add_comm n]
    exact Nat.add_le_add (cycleCost_pos _) ht.counted
  begins
    | 0, _ => begins
    | m + 1, hm => (beginsAfter_succ h cycles m).mpr (ht.begins m (Nat.lt_of_succ_lt_succ hm))

/-! ### The loop -/

/-- The loop stops where no agent is enabled or the budget is used (R305). -/
theorem sliceLoop_stops {cycles : Nat} {s : State}
    (h : ¬ (agentEnabled s = true ∧ cycles < Config.cycleBudget)) (fuel : Nat) :
    sliceLoop fuel cycles s = .next (cycles, s) := by
  cases fuel with
  | zero => rfl
  | succ fuel => exact if_neg h

/-- The loop goes on with the step of the enabled agent, and charges it (R305). -/
theorem sliceLoop_steps {cycles : Nat} {s t : State}
    (h : agentEnabled s = true ∧ cycles < Config.cycleBudget) (ht : agentStep s = .next t) (fuel : Nat) :
    sliceLoop (fuel + 1) cycles s = sliceLoop fuel (cycles + Config.cycleCost (activityOf s)) t := by
  rw [sliceLoop, if_pos h, ht]

/-- The loop is refused with the step of the enabled agent (R305; log 31). -/
theorem sliceLoop_refuses {cycles : Nat} {s : State} {r : Refusal}
    (h : agentEnabled s = true ∧ cycles < Config.cycleBudget) (hr : agentStep s = .refused r) (fuel : Nat) :
    sliceLoop (fuel + 1) cycles s = .refused r := by
  rw [sliceLoop, if_pos h, hr]

/-- The loop has answered with the cycles of the run of `n` steps from `s` to `t`, because no agent is enabled
there, the budget is used or the fuel is; or a step begun there within the budget was refused. -/
def LoopEnds (fuel cycles n : Nat) (s t : State) (answer : Host.Outcome (Nat × State) Fault Refusal) : Prop :=
  (answer = .next (cycles + runCycles n s, t) ∧
    (agentEnabled t = false ∨ Config.cycleBudget ≤ cycles + runCycles n s ∨ n = fuel)) ∨
  ∃ r, answer = .refused r ∧ n < fuel ∧ beginsAfter cycles n s ∧ agentEnabled t = true ∧ step t = .refused r

theorem LoopEnds.step {fuel cycles n : Nat} {s t u : State} {answer : Host.Outcome (Nat × State) Fault Refusal}
    (hs : step s = .next t)
    (h : LoopEnds fuel (cycles + Config.cycleCost (activityOf s)) n t u answer) :
    LoopEnds (fuel + 1) cycles (n + 1) s u answer := by
  rw [LoopEnds, runCycles_succ hs, ← Nat.add_assoc, beginsAfter_succ hs, Nat.add_lt_add_iff_right,
    Nat.add_right_cancel_iff]
  exact h

/-- The loop from a free-running state runs the agents' steps within the budget, and ends with them. -/
theorem sliceLoop_runs (fuel cycles : Nat) {s : State} (hs : freeRunning s) :
    ∃ n t, n ≤ fuel ∧ RunsWithin cycles n s t ∧ LoopEnds fuel cycles n s t (sliceLoop fuel cycles s) := by
  induction fuel generalizing cycles s with
  | zero => exact ⟨0, s, Nat.le_refl 0, .refl _ _, .inl ⟨rfl, .inr (.inr rfl)⟩⟩
  | succ fuel ih =>
    by_cases goesOn : agentEnabled s = true ∧ cycles < Config.cycleBudget
    · obtain ⟨enabled, budget⟩ := goesOn
      have begins : beginsAfter cycles 0 s := (beginsAfter_zero cycles s).mpr ⟨budget, enabled⟩
      have free : step s = agentStep s := step_of_no_turns hs.2 hs.1
      cases ha : agentStep s with
      | next v =>
        have stepped : step s = .next v := free.trans ha
        obtain ⟨n, t, hn, runs, ends⟩ :=
          ih (cycles + Config.cycleCost (activityOf s)) (freeRunning_agentStep hs ha)
        rw [sliceLoop_steps ⟨enabled, budget⟩ ha]
        exact ⟨n + 1, t, Nat.succ_le_succ hn, runs.step begins stepped, ends.step stepped⟩
      | fault e => exact absurd ha (neverFaults_agentStep enabled e)
      | refused r =>
        rw [sliceLoop_refuses ⟨enabled, budget⟩ ha]
        exact ⟨0, s, Nat.zero_le _, .refl _ _,
          .inr ⟨r, rfl, Nat.succ_pos fuel, begins, enabled, free.trans ha⟩⟩
    · rw [sliceLoop_stops goesOn]
      refine ⟨0, s, Nat.zero_le _, .refl _ _, .inl ⟨rfl, ?_⟩⟩
      cases enabled : agentEnabled s with
      | false => exact .inl rfl
      | true => exact .inr (.inl (Nat.not_lt.mp fun budget => goesOn ⟨enabled, budget⟩))

/-! ### The slice -/

/-- A slice that goes on is its loop, with the cycles counted (R305). -/
theorem runSlice_next {s u : State} (h : runSlice s = .next u) :
    ∃ cycles t, sliceLoop Config.cycleBudget 0 s = .next (cycles, t) ∧
      u = { t with sched := { t.sched with totalCycles := t.sched.totalCycles + cycles } } := by
  unfold runSlice at h
  cases hl : sliceLoop Config.cycleBudget 0 s with
  | next answer =>
    simp only [hl] at h
    injection h with h
    exact ⟨answer.1, answer.2, rfl, h.symm⟩
  | fault e => simp only [hl] at h; cases h
  | refused r => simp only [hl] at h; cases h

/-- A slice is refused only by its loop (R305; log 31). -/
theorem runSlice_refused {s : State} {r : Refusal} (h : runSlice s = .refused r) :
    sliceLoop Config.cycleBudget 0 s = .refused r := by
  unfold runSlice at h
  cases hl : sliceLoop Config.cycleBudget 0 s with
  | next answer => simp only [hl] at h; cases h
  | fault e => simp only [hl] at h; cases h
  | refused r' =>
    simp only [hl] at h
    injection h with h
    rw [h]

/-- Settles O54: the slice has as much fuel as budget, and each step costs a cycle, so that the budget is used
when the fuel is. -/
theorem sliceIsARunOfAgentSteps : Obligations.SliceIsARunOfAgentSteps := by
  intro s hs
  obtain ⟨n, t, fuel, ⟨run, counted, begins⟩, ends⟩ := sliceLoop_runs Config.cycleBudget 0 hs
  have begun : ∀ m < n, beginsWithinBudget m s := fun m hm => (beginsAfter_zero_cycles m s).mp (begins m hm)
  refine ⟨fun u hu => ?next, fun r hr => ?refused, neverFaults_runSlice s⟩
  case next =>
    obtain ⟨cycles, v, hl, rfl⟩ := runSlice_next hu
    obtain ⟨answer, stops⟩ | ⟨r, answer, -⟩ := ends
    · obtain ⟨rfl, rfl⟩ : runCycles n s = cycles ∧ t = v := by simpa [hl, eq_comm] using answer
      refine ⟨n, t, fuel, run, rfl, rfl, Nat.add_le_add_left counted _, begun, stops.imp_right fun used => ?_⟩
      rw [Nat.zero_add] at used
      rw [Nat.add_sub_cancel_left]
      exact used.elim id fun exhausted => exhausted ▸ counted
    · cases hl.symm.trans answer
  case refused =>
    obtain ⟨answer, -⟩ | ⟨r', answer, last, begins, enabled, refused⟩ := ends
    · cases (runSlice_refused hr).symm.trans answer
    · cases (runSlice_refused hr).symm.trans answer
      exact ⟨n, t, last, run, fun m hm => hm.lt_or_eq.elim (begun m) fun same =>
        same ▸ (beginsAfter_zero_cycles n s).mp begins, enabled, refused⟩

end Sys2Proof.Machine
end

section
/-! PROOFS. The operations that run a slice between their own writes, the timer's call of `schedule` and the
host's `step`, and whose turn it is (spec/47_scheduler.md R300, R304, R309, R315). -/

namespace Sys2Proof.Machine

/-! ### Around a slice -/

/-- A slice counts cycles, and changes nothing else of the scheduler (R305). -/
theorem runSlice_sched {s u : State} (h : runSlice s = .next u) :
    ∃ n, u.sched = { s.sched with totalCycles := n } := by
  obtain ⟨t, n, kept, rfl⟩ := runSlice_induct (P := fun v => v.sched = s.sched)
    (fun _ _ hv hw => (agentKeeps_agentStep hw).sched.trans hv) h rfl
  exact ⟨n, congrArg (fun sched => { sched with totalCycles := n }) kept⟩

/-- No agent is enabled in a halted machine, whose slice is of no step (R305). -/
theorem runSlice_of_idle {s : State} (h : s.phase = .idle) : runSlice s = .next s := by
  have stops : ¬ (agentEnabled s = true ∧ 0 < Config.cycleBudget) := by simp [agentEnabled, h]
  rw [runSlice, sliceLoop_stops stops]
  rfl

/-! ### schedule -/

/-- A call that finds the scheduler not busy, or the processor halted, runs no slice (R304). -/
theorem schedule_runs_nothing {s : State} (h : s.sched.busy = false ∨ s.stopIdle = true) :
    schedule s = .next { scheduleEntry s with sched := { (scheduleEntry s).sched with busy := false } } := by
  have noSlice : (!(scheduleEntry s).sched.busy || (scheduleEntry s).stopIdle) = true := by
    simpa [scheduleEntry] using h
  exact if_pos noSlice

/-- Any other call runs a slice between its entry and its end (R304). -/
theorem schedule_runs_slice {s : State} (hb : s.sched.busy = true) (hi : s.stopIdle = false) :
    schedule s = onNext (scheduleExit (scheduleEntry s).hostTime) (runSlice (scheduleEntry s)) := by
  have runs : ¬ (!(scheduleEntry s).sched.busy || (scheduleEntry s).stopIdle) = true := by
    simp [scheduleEntry, hb, hi]
  exact if_neg runs

/-- The running time after a slice that ends in `s` (R304). -/
def runTimeAfter (s : State) : Rat := s.sched.runTime + ((readClock s).hostTime - s.sched.runStamp)

/-- The end of `schedule`, field by field: the next call is asked for unless the processor has halted (R304). -/
theorem scheduleExit_eq (now : Rat) (s : State) :
    scheduleExit now s = { readClock s with sched := { s.sched with
      avgRun := ewma s.sched.avgRun Config.runDecay ((readClock s).hostTime - now)
      runTime := runTimeAfter s
      runStamp := (readClock s).hostTime
      busy := !s.stopIdle && s.sched.busy
      nextDelay := if s.stopIdle then s.sched.nextDelay else
        delayAfter s.sched.totalCycles Config.cyclesPerMs (runTimeAfter s)
      lastSlice := if s.stopIdle then s.sched.lastSlice else (readClock s).hostTime
      token := if s.stopIdle then s.sched.token else
        some ⟨(readClock s).hostTime +
          delayAfter s.sched.totalCycles Config.cyclesPerMs (runTimeAfter s)⟩ } } := by
  cases hi : s.stopIdle <;> simp [scheduleExit, runTimeAfter, hi]

/-- Settles O55, by whether the call runs a slice and whether the slice halts the processor. -/
theorem scheduleRunsASliceAndAsksForTheNext : Obligations.ScheduleRunsASliceAndAsksForTheNext := by
  refine fun s => ⟨scheduleEntry s, hostTime_le_readClock s, rfl, rfl, schedule_runs_nothing,
    fun hb hi => ?_⟩
  rw [schedule_runs_slice hb hi]
  refine ⟨fun r hr => by rw [hr]; rfl, (neverFaults_runSlice _).onNext, fun u hu => ?_⟩
  obtain ⟨n, kept⟩ := runSlice_sched hu
  refine ⟨_, (congrArg (onNext _) hu).trans (congrArg Host.Outcome.next (scheduleExit_eq _ u)),
    hostTime_le_readClock u, rfl, rfl, ?avgSlack, ?avgRun, ?runTime, rfl, fun halts => ?halts,
    fun goesOn => ?goesOn⟩
  case avgSlack => simp [kept]
  case avgRun => simp [kept, ewma, scheduleEntry]
  case runTime => simp [kept, runTimeAfter, scheduleEntry]
  case halts => simp [kept, halts, scheduleEntry]
  case goesOn => simp [kept, goesOn, scheduleEntry, hb, delayAfter]

/-! ### The host's step -/

/-- A completion takes the halt that the host's `step` has latched (R315; log 17). -/
theorem completion_halts_when_latched {k : Successor} {s t : State} (hp : s.phase = .awaitMem k)
    (hl : s.stepHalt = true) (h : completion k s = .next t) : halted t := by
  obtain ⟨u, hu, rfl⟩ := onNext_next.mp h
  obtain ⟨running | ended, latch⟩ := runSuccessor_ends (s := accessArrives s) hp hu
  · have latched : u.stepHalt = true := latch.trans hl
    simp [halted, takeStepHalt, latched, running]
  · exact halted_takeStepHalt ended

/-- The host's `step` whose slice ends in `u` ends in `t`: the processor is halted where it still runs, its halt
is latched where an access is outstanding, and the scheduler is not busy (R315; log 17). -/
structure EndsHostStep (u t : State) : Prop where
  frame : t = { u with
    stopIdle := t.stopIdle, phase := t.phase, stepHalt := t.stepHalt
    sched := { u.sched with busy := false } }
  running : u.phase = .running → t.phase = .idle ∧ t.stopIdle = true ∧ t.stepHalt = u.stepHalt
  access : ∀ k, u.phase = .awaitMem k →
    t.phase = u.phase ∧ t.stopIdle = u.stopIdle ∧ t.stepHalt = true ∧
      ∀ v, completion k t = .next v → halted v
  elsewhere : u.phase ≠ .running → (∀ k, u.phase ≠ .awaitMem k) →
    t.phase = u.phase ∧ t.stopIdle = u.stopIdle ∧ t.stepHalt = u.stepHalt

theorem stepRun_halts {s u : State} (hu : runSlice (restart s) = .next u) (hp : u.phase = .running) :
    stepRun s = .next { halt u with sched := { u.sched with busy := false } } := by
  simp [stepRun, hu, hp]

theorem stepRun_latches {s u : State} {k : Successor} (hu : runSlice (restart s) = .next u)
    (hp : u.phase = .awaitMem k) :
    stepRun s = .next { u with stepHalt := true, sched := { u.sched with busy := false } } := by
  simp [stepRun, hu, hp]

theorem stepRun_leaves {s u : State} (hu : runSlice (restart s) = .next u) (hp : agentEnabled u = false) :
    stepRun s = .next { u with sched := { u.sched with busy := false } } := by
  cases h : u.phase with
  | idle => simp [stepRun, hu, h]
  | awaitIO k => simp [stepRun, hu, h]
  | running => simp [agentEnabled, h] at hp
  | awaitMem k => simp [agentEnabled, h] at hp

/-- After its slice the host's `step` writes what the phase asks for (R315). -/
theorem stepRun_ends {s u : State} (hu : runSlice (restart s) = .next u) :
    ∃ t, stepRun s = .next t ∧ EndsHostStep u t := by
  cases enabled : agentEnabled u with
  | false =>
    exact ⟨_, stepRun_leaves hu enabled, rfl, fun hp => by simp [agentEnabled, hp] at enabled,
      fun k hp => by simp [agentEnabled, hp] at enabled, fun _ _ => ⟨rfl, rfl, rfl⟩⟩
  | true =>
    obtain hp | ⟨k, hp⟩ := agentEnabled_iff.mp enabled
    · exact ⟨_, stepRun_halts hu hp, rfl, fun _ => ⟨rfl, rfl, rfl⟩, by simp [hp], by simp [hp]⟩
    · exact ⟨_, stepRun_latches hu hp, rfl, by simp [hp],
        fun _ hk => ⟨rfl, rfl, rfl, fun _ => completion_halts_when_latched hk rfl⟩, by simp [hp]⟩

/-- In the invariant no slice ends in a phase that is neither halted, running nor within an access, so that the
processor is left halted, or in an access whose completion halts it. -/
theorem EndsHostStep.leaves_halt {u t : State} (h : EndsHostStep u t) (hu : u.Inv) :
    halted t ∨ ∃ k, t.phase = .awaitMem k ∧ ∀ v, completion k t = .next v → halted v := by
  cases hp : u.phase with
  | running =>
    obtain ⟨phase, idle, -⟩ := h.running hp
    exact .inl ⟨phase, idle⟩
  | awaitMem k =>
    obtain ⟨phase, -, -, halts⟩ := h.access k hp
    exact .inr ⟨k, phase.trans hp, halts⟩
  | idle =>
    obtain ⟨phase, idle, -⟩ := h.elsewhere (by simp [hp]) (by simp [hp])
    exact .inl ⟨phase.trans hp, idle.trans (hu.idle.mpr hp)⟩
  | awaitIO k => exact absurd hp (hu.noIO k)

/-- Settles O53: what the host's `step` does after its slice, by the phase in which the slice ends. -/
theorem hostStepHaltsAfterItsSlice : Obligations.HostStepHaltsAfterItsSlice := by
  refine ⟨fun s => rfl, fun s hp hk => ?_, fun s t hs hp h => ?_⟩
  · rw [hostOperation_step hp hk]
    refine ⟨fun r hr => by rw [stepRun, hr]; rfl, (neverFaults_runSlice _).onNext, fun u hu => ?_⟩
    obtain ⟨t, next, ends⟩ := stepRun_ends hu
    exact ⟨t, next, ends.frame, ends.running, ends.access, ends.elsewhere⟩
  · have stepped : stepRun s = .next t := admitted_next ((whenIdle_of_idle hp _).symm.trans h)
    obtain ⟨u, hu, -⟩ := onNext_next.mp stepped
    obtain ⟨t', next, ends⟩ := stepRun_ends hu
    obtain rfl : t' = t := by simpa using next.symm.trans stepped
    refine ⟨congrArg (·.sched.busy) ends.frame, ends.leaves_halt ?_⟩
    exact inv_keptByAgents.runSlice (hs.restart hp) hu

/-! ### Whose turn it is -/

/-- A call of `schedule` does not leave Idle: the slice that it runs there is of no step (R304, R345). -/
theorem schedule_stays_idle {s t : State} (h : schedule s = .next t) (hp : s.phase = .idle) :
    t.phase = .idle := by
  by_cases nothing : s.sched.busy = false ∨ s.stopIdle = true
  · rw [schedule_runs_nothing nothing] at h
    injection h with h
    exact h ▸ hp
  · obtain ⟨busy, notHalted⟩ := not_or.mp nothing
    have entered : (scheduleEntry s).phase = .idle := hp
    rw [schedule_runs_slice (by simpa using busy) (by simpa using notHalted), runSlice_of_idle entered,
      onNext_of_next, scheduleExit_eq] at h
    injection h with h
    exact h ▸ hp

theorem timerFires_stays_idle {s t : State} (h : timerFires s = .next t) (hp : s.phase = .idle) :
    t.phase = .idle := by
  unfold timerFires at h
  split at h
  · injection h with h
    exact h ▸ hp
  · exact schedule_stays_idle h hp

/-- Of the console operations only `start` and `step` leave Idle (R309, R345). -/
theorem hostOperation_leaves_idle {op : HostOp} {s t : State} (hp : s.phase = .idle)
    (h : hostOperation op s = .next t) (left : t.phase ≠ .idle) : op = .start ∨ op = .step := by
  cases op with
  | start => exact .inl rfl
  | step => exact .inr rfl
  | stop =>
    injection h with h
    exact absurd (by simp [← h, stopRun_eq, hp]) left
  | clear =>
    injection (whenIdle_of_idle hp _).symm.trans h with h
    exact absurd (h ▸ hp) left
  | clearControl =>
    injection (whenIdle_of_idle hp _).symm.trans h with h
    exact absurd (h ▸ hp) left

/-- Whoever's turn it is, only the host's `start` or `step` leaves Idle (R345). -/
theorem step_leaves_idle {s t : State} (hp : s.phase = .idle) (h : step s = .next t)
    (left : t.phase ≠ .idle) : ∃ rest, s.turns = .host .start :: rest ∨ s.turns = .host .step :: rest := by
  have agent : ∀ v : State, v.phase = .idle → agentStep v ≠ .next t := by
    intro v hv ha
    rw [agentStep, hv] at ha
    injection ha with ha
    exact left (ha ▸ hv)
  obtain ⟨-, ⟨-, h⟩ | ⟨rest, -, h⟩ | ⟨rest, -, h⟩ | ⟨op, rest, turn, h⟩⟩ := step_next h
  · exact absurd h (agent s hp)
  · exact absurd h (agent _ hp)
  · exact absurd (timerFires_stays_idle h hp) left
  · obtain rfl | rfl := hostOperation_leaves_idle (s := { s with turns := rest }) hp h left
    · exact ⟨rest, .inl turn⟩
    · exact ⟨rest, .inr turn⟩

theorem step_of_host_turn {s : State} {op : HostOp} {rest : List Turn} (hr : s.refused = false)
    (ht : s.turns = .host op :: rest) : step s = hostOperation op { s with turns := rest } := by
  simp [step, blockStep, hr, ht]

theorem step_of_agent_turn {s : State} {rest : List Turn} (hr : s.refused = false)
    (ht : s.turns = .agent :: rest) : step s = agentStep { s with turns := rest } := by
  simp [step, blockStep, hr, ht]

theorem step_of_timer_turn {s : State} {rest : List Turn} (hr : s.refused = false)
    (ht : s.turns = .timer :: rest) : step s = timerFires { s with turns := rest } := by
  simp [step, blockStep, hr, ht]

/-- Settles O52: the step of each turn, and which operations the phase and the skip switch enable. -/
theorem turnsPerformWhatIsEnabled : Obligations.TurnsPerformWhatIsEnabled := by
  refine ⟨fun s rest hr => ⟨fun op => step_of_host_turn hr, step_of_no_turns hr, step_of_agent_turn hr,
      fun timer => ⟨fun noCall => ?noCall, fun token call => ?call⟩⟩,
    fun s hp => ?halted, fun s t => step_leaves_idle, fun s hp => ?notEnabled, fun s hp hk => ?skip,
    fun s hr => if_pos hr⟩
  case noCall =>
    rw [step_of_timer_turn hr timer, timerFires, noCall]
  case call =>
    rw [step_of_timer_turn hr timer, timerFires, call]
  case halted => rw [agentStep, hp]
  case notEnabled =>
    have nothing := whenIdle_of_not_idle hp
    exact ⟨nothing _, nothing _, nothing _, nothing _⟩
  case skip =>
    have refused : ∀ perform, whenIdle s (admitted s perform) = .refused .skipSwitchOn := fun perform =>
      (whenIdle_of_idle hp _).trans (admitted_of_skip_on hk perform)
    exact ⟨refused _, refused _⟩

end Sys2Proof.Machine
end

section
/-! PROOFS. What a fault and a halt write, and the invariant at reset. -/

namespace Sys2Proof.Machine

/-- Settles O47: the equation of each kind of fault, and that of the halt. -/
theorem faultsSetOnlyTheirToggles : Obligations.FaultsSetOnlyTheirToggles := fun s =>
  ⟨raiseFault_forbidden s, raiseFault_overflow s, raiseFault_control s, rfl⟩

/-- Settles O56: nothing is listed in memory, the machine is halted with no halt latched, and C and the
cached order are both clear; the map is the table of R96 (R361). -/
theorem resetMeetsTheInvariant : Obligations.ResetMeetsTheInvariant where
  memory := Memory.wf_reset
  idle := ⟨fun _ => rfl, fun _ => rfl⟩
  order := .inl (by decide)
  noIO := fun _ awaits => nomatch awaits
  operand := fun awaits => nomatch awaits
  latched := fun latch => nomatch latch
  map := OpcodeMap.default_wf

end Sys2Proof.Machine
end
